-- ==== Sys2Proof/Word.lean ====
section
/-! DEFINITION. The machine's two widths (spec `00_scope.md` rules R5, R9): a 16-bit word, which is
also every register value and every logical address, and an 8-bit byte. -/

namespace Sys2Proof

/-- `u16` of rule R9: a register value or a logical address. -/
abbrev Word := BitVec 16

/-- `u8` of rule R9. -/
abbrev Byte := BitVec 8

end Sys2Proof
end

