-- ==== Sys2Proof/Syntax.lean ====
section
/-! DEFINITION. The instruction set as syntax (spec `30_encoding.md`): one constructor of `Instr` per
row of the opcode map (rule R60), holding the fields of the instruction word. Extension words are not
fields: the operand resolver fetches them as it reaches them (rules R51, R63). -/

namespace Sys2Proof

/-- The eight registers r[0] .. r[7] (rule R10); r6 is the stack pointer, r7 the program counter. -/
inductive Reg where
  | r0 | r1 | r2 | r3 | r4 | r5 | r6 | r7
  deriving DecidableEq, Repr, Inhabited

/-- The eight addressing modes 0 .. 7, in order (rule R52's table names them). -/
inductive Mode where
  | register
  | deferred
  | autoInc
  | autoIncDeferred
  | autoDec
  | autoDecDeferred
  | index
  | indexDeferred
  deriving DecidableEq, Repr, Inhabited

/-- The 6-bit operand spec: mode above register (rule R52). -/
structure Spec where
  mode : Mode
  reg : Reg
  deriving DecidableEq, Repr, Inhabited

/-- The 32 instructions of rule R60. -/
inductive Instr where
  -- format D, word (rule R53): source, destination
  | mov (src dst : Spec)
  | cmp (src dst : Spec)
  | bit (src dst : Spec)
  | bic (src dst : Spec)
  | bis (src dst : Spec)
  | add (src dst : Spec)
  | sub (src dst : Spec)
  -- format D, byte
  | movb (src dst : Spec)
  | cmpb (src dst : Spec)
  | bitb (src dst : Spec)
  | bicb (src dst : Spec)
  | bisb (src dst : Spec)
  -- format S, word (rule R54)
  | clr (dst : Spec)
  | inc (dst : Spec)
  | dec (dst : Spec)
  | tst (dst : Spec)
  | ror (dst : Spec)
  | rol (dst : Spec)
  | asr (dst : Spec)
  | asl (dst : Spec)
  -- format S, byte
  | clrb (dst : Spec)
  | incb (dst : Spec)
  | decb (dst : Spec)
  | tstb (dst : Spec)
  -- format B (rule R55): signed word offset
  | br (off : BitVec 8)
  | bne (off : BitVec 8)
  | beq (off : BitVec 8)
  -- control: formats S, J, R, H, T (rules R54, R56 to R59)
  | jmp (dst : Spec)
  | jsr (link : Reg) (dst : Spec)
  | rts (link : Reg)
  | halt
  | trap (vec : BitVec 8)
  deriving DecidableEq, Repr, Inhabited

end Sys2Proof
end

