-- ==== Sys2Proof/WellFormed.lean ====
section
/-! DEFINITION. The one check on an instruction that its types do not already make: a jump needs a
destination that has an address (rule R52: all 64 specs are legal in every position, "except that
`JMP` and `JSR` with mode 0 have no address to take"). -/

namespace Sys2Proof

/-- The spec names a memory location, so it has an address. -/
def Spec.hasAddress (d : Spec) : Bool :=
  match d.mode with
  | .register => false
  | _ => true

/-- Rules R52, R67: every instruction whose words execute; a `JMP` or `JSR` to a register does not. -/
def Instr.wellFormed (i : Instr) : Bool :=
  match i with
  | .jmp d => d.hasAddress
  | .jsr _ d => d.hasAddress
  | .mov _ _ | .cmp _ _ | .bit _ _ | .bic _ _ | .bis _ _ | .add _ _ | .sub _ _ => true
  | .movb _ _ | .cmpb _ _ | .bitb _ _ | .bicb _ _ | .bisb _ _ => true
  | .clr _ | .inc _ | .dec _ | .tst _ | .ror _ | .rol _ | .asr _ | .asl _ => true
  | .clrb _ | .incb _ | .decb _ | .tstb _ => true
  | .br _ | .bne _ | .beq _ | .rts _ | .halt | .trap _ => true

end Sys2Proof
end

