-- ==== Sys2Proof/Decode.lean ====
section
/-! DEFINITION. Instruction words to instructions and back (spec `30_encoding.md`): byte order, the
fields of a word, the opcode map of rule R60 as a list of rows, a total decoder that rejects by name
(rules R61, R66), and after it the encoder (rules R53 to R59). -/

namespace Sys2Proof

/-! ## Byte order (`20_memory.md` rules R32, R37) -/

/-- A word from its two bytes: `lo | (hi << 8)`. -/
def joinBytes (lo hi : Byte) : Word := hi ++ lo

/-- `v[7:0]`, the byte at the lower address. -/
def lowByte (v : Word) : Byte := v.extractLsb' 0 8

/-- `v[15:8]`, the byte at the higher address. -/
def highByte (v : Word) : Byte := v.extractLsb' 8 8

/-! ## Fields (rule R52) -/

/-- The register number 0 .. 7. -/
def Reg.bits (r : Reg) : BitVec 3 :=
  match r with
  | .r0 => 0 | .r1 => 1 | .r2 => 2 | .r3 => 3 | .r4 => 4 | .r5 => 5 | .r6 => 6 | .r7 => 7

/-- The register with a 3-bit number; 7 is the one left after 0 .. 6. -/
def Reg.ofBits (b : BitVec 3) : Reg :=
  match b.toNat with
  | 0 => .r0 | 1 => .r1 | 2 => .r2 | 3 => .r3 | 4 => .r4 | 5 => .r5 | 6 => .r6 | _ => .r7

/-- The mode number 0 .. 7. -/
def Mode.bits (m : Mode) : BitVec 3 :=
  match m with
  | .register => 0 | .deferred => 1 | .autoInc => 2 | .autoIncDeferred => 3
  | .autoDec => 4 | .autoDecDeferred => 5 | .index => 6 | .indexDeferred => 7

/-- The mode with a 3-bit number; 7 is the one left after 0 .. 6. -/
def Mode.ofBits (b : BitVec 3) : Mode :=
  match b.toNat with
  | 0 => .register | 1 => .deferred | 2 => .autoInc | 3 => .autoIncDeferred
  | 4 => .autoDec | 5 => .autoDecDeferred | 6 => .index | _ => .indexDeferred

/-- The destination spec, bits 5:0 of the word. -/
def dstSpec (w : Word) : Spec := ⟨Mode.ofBits (w.extractLsb' 3 3), Reg.ofBits (w.extractLsb' 0 3)⟩

/-- The source spec, bits 11:6 of the word. -/
def srcSpec (w : Word) : Spec := ⟨Mode.ofBits (w.extractLsb' 9 3), Reg.ofBits (w.extractLsb' 6 3)⟩

/-- The link register of `JSR`, bits 8:6 (rules R57, R62). -/
def linkReg (w : Word) : Reg := Reg.ofBits (w.extractLsb' 6 3)

/-- The link register of `RTS`, bits 2:0 (rules R58, R62). -/
def returnReg (w : Word) : Reg := Reg.ofBits (w.extractLsb' 0 3)

/-- The branch offset and the trap vector, bits 7:0 (rules R55, R56, R62). -/
def lowField (w : Word) : BitVec 8 := w.extractLsb' 0 8

/-! ## The opcode map (rule R60) -/

/-- One row of rule R60: a word w selects it when `(w & mask) = pattern`. -/
structure OpcodeRow where
  mnemonic : String
  pattern : Word
  mask : Word
  build : Word → Instr

/-- A row of format D (rule R53): mask 0xF000. -/
def rowD (m : String) (p : Word) (c : Spec → Spec → Instr) : OpcodeRow :=
  ⟨m, p, 0xF000, fun w => c (srcSpec w) (dstSpec w)⟩

/-- A row of format S (rule R54): mask 0xFFC0. -/
def rowS (m : String) (p : Word) (c : Spec → Instr) : OpcodeRow :=
  ⟨m, p, 0xFFC0, fun w => c (dstSpec w)⟩

/-- A row of format B or T (rules R55, R56): mask 0xFF00. -/
def rowB (m : String) (p : Word) (c : BitVec 8 → Instr) : OpcodeRow :=
  ⟨m, p, 0xFF00, fun w => c (lowField w)⟩

/-- The complete opcode map, in the order of rule R60. -/
def opcodeRows : List OpcodeRow :=
  [ rowD "MOV" 0x1000 .mov, rowD "CMP" 0x2000 .cmp, rowD "BIT" 0x3000 .bit,
    rowD "BIC" 0x4000 .bic, rowD "BIS" 0x5000 .bis, rowD "ADD" 0x6000 .add,
    rowD "SUB" 0xE000 .sub, rowD "MOVB" 0x9000 .movb, rowD "CMPB" 0xA000 .cmpb,
    rowD "BITB" 0xB000 .bitb, rowD "BICB" 0xC000 .bicb, rowD "BISB" 0xD000 .bisb ] ++
  [ rowS "CLR" 0x0A00 .clr, rowS "INC" 0x0A80 .inc, rowS "DEC" 0x0AC0 .dec,
    rowS "TST" 0x0BC0 .tst, rowS "ROR" 0x0C00 .ror, rowS "ROL" 0x0C40 .rol,
    rowS "ASR" 0x0C80 .asr, rowS "ASL" 0x0CC0 .asl, rowS "CLRB" 0x8A00 .clrb,
    rowS "INCB" 0x8A80 .incb, rowS "DECB" 0x8AC0 .decb, rowS "TSTB" 0x8BC0 .tstb ] ++
  [ rowB "BR" 0x0100 .br, rowB "BNE" 0x0200 .bne, rowB "BEQ" 0x0300 .beq,
    rowS "JMP" 0x0040 .jmp,
    ⟨"JSR", 0x0800, 0xFE00, fun w => .jsr (linkReg w) (dstSpec w)⟩,
    ⟨"RTS", 0x0010, 0xFFF8, fun w => .rts (returnReg w)⟩,
    ⟨"HALT", 0x0000, 0xFFFF, fun _ => .halt⟩,
    rowB "TRAP" 0x8800 .trap ]

/-- The word selects the row. -/
def OpcodeRow.selects (r : OpcodeRow) (w : Word) : Bool := (w &&& r.mask) == r.pattern

/-! ## The decoder (rule R61) -/

/-- Why bytes are no instruction. -/
inductive DecodeError where
  /-- the word matches no row of rule R60: an unimplemented instruction encoding (rule R66) -/
  | unimplementedEncoding (w : Word)
  /-- fewer than the two bytes of an instruction word (rule R50) -/
  | truncated
  deriving DecidableEq, Repr

/-- Rule R61: the row the word selects, or the error of rule R66. -/
def decodeWord (w : Word) : Except DecodeError Instr :=
  match opcodeRows.find? (fun r => r.selects w) with
  | some r => .ok (r.build w)
  | none => .error (.unimplementedEncoding w)

/-- The instruction at the head of a byte sequence and the bytes after its word; the extension words,
if it has any, are the first of those. -/
def decode (bytes : List Byte) : Except DecodeError (Instr × List Byte) :=
  match bytes with
  | lo :: hi :: rest =>
    match decodeWord (joinBytes lo hi) with
    | .ok i => .ok (i, rest)
    | .error e => .error e
  | _ => .error .truncated

/-- The six bytes (the longest instruction, rule R50) of an instruction whose bits are `w`, each word
little-endian and the first at the lowest address; every bit above `nbits` is 0. -/
def tableBytes (nbits w : Nat) : List Byte :=
  [0, 1, 2, 3, 4, 5].map fun k => BitVec.ofNat 8 ((w % 2 ^ nbits) / 2 ^ (8 * k))

/-- The instruction the decoder reads from a row of spec/opcode_table.json with its bits filled in. -/
def decodeTableWord (nbits w : Nat) : Option Instr :=
  match decode (tableBytes nbits w) with
  | .ok r => some r.1
  | .error _ => none

/-! ## The encoder (rules R53 to R59) -/

/-- The 6 bits of a spec, as a word. -/
def Spec.bits (sp : Spec) : Word := (sp.mode.bits.setWidth 16 <<< 3) ||| sp.reg.bits.setWidth 16

/-- Format D: `base | (src_spec << 6) | dst_spec` (rule R53). -/
def formatD (base : Word) (ss dd : Spec) : Word := base ||| (ss.bits <<< 6) ||| dd.bits

/-- Format S: `base | dst_spec` (rule R54). -/
def formatS (base : Word) (dd : Spec) : Word := base ||| dd.bits

/-- Formats B and T: `base | offset8`, `base | vector8` (rules R55, R56). -/
def formatB (base : Word) (field : BitVec 8) : Word := base ||| field.setWidth 16

/-- Format J: `base | (reg << 6) | dst_spec` (rule R57). -/
def formatJ (base : Word) (r : Reg) (dd : Spec) : Word :=
  base ||| (r.bits.setWidth 16 <<< 6) ||| dd.bits

/-- Format R: `base | reg` (rule R58). -/
def formatR (base : Word) (r : Reg) : Word := base ||| r.bits.setWidth 16

/-- The instruction word, from the base values of rule R60. -/
def encodeWord (i : Instr) : Word :=
  match i with
  | .mov a d => formatD 0x1000 a d
  | .cmp a d => formatD 0x2000 a d
  | .bit a d => formatD 0x3000 a d
  | .bic a d => formatD 0x4000 a d
  | .bis a d => formatD 0x5000 a d
  | .add a d => formatD 0x6000 a d
  | .sub a d => formatD 0xE000 a d
  | .movb a d => formatD 0x9000 a d
  | .cmpb a d => formatD 0xA000 a d
  | .bitb a d => formatD 0xB000 a d
  | .bicb a d => formatD 0xC000 a d
  | .bisb a d => formatD 0xD000 a d
  | .clr d => formatS 0x0A00 d
  | .inc d => formatS 0x0A80 d
  | .dec d => formatS 0x0AC0 d
  | .tst d => formatS 0x0BC0 d
  | .ror d => formatS 0x0C00 d
  | .rol d => formatS 0x0C40 d
  | .asr d => formatS 0x0C80 d
  | .asl d => formatS 0x0CC0 d
  | .clrb d => formatS 0x8A00 d
  | .incb d => formatS 0x8A80 d
  | .decb d => formatS 0x8AC0 d
  | .tstb d => formatS 0x8BC0 d
  | .br o => formatB 0x0100 o
  | .bne o => formatB 0x0200 o
  | .beq o => formatB 0x0300 o
  | .jmp d => formatS 0x0040 d
  | .jsr r d => formatJ 0x0800 r d
  | .rts r => formatR 0x0010 r
  | .halt => 0x0000
  | .trap v => formatB 0x8800 v

/-- The bytes of the instruction word as memory holds them (rules R37, R50). -/
def encode (i : Instr) : List Byte := [lowByte (encodeWord i), highByte (encodeWord i)]

end Sys2Proof
end

