-- ==== Sys2Proof/Config.lean ====
section
/-! DEFINITION. What the spec leaves open (`92_eei_decisions.md`, `93_implementation_defined.md`): the
OPEN parameters of the machine as constants with no body, and the free values. Nothing can be proved
about the value of any of them, so a claim holds whatever it is. -/

namespace Sys2Proof

/-! ## The OPEN parameters -/

/-- `JSR_LINK_SP_VALUE` (decision D6): which value of r[6] `JSR R6, dst` pushes. -/
inductive LinkSpValue where
  | before
  | after
  deriving DecidableEq, Repr, Inhabited

/-- `BANK_SELECT_OUT_OF_RANGE` (decision D9): what service 26 does to `mem_bank` when r[0] > 3. -/
inductive BankOutOfRange where
  | mask
  | ignore
  | refuse
  deriving DecidableEq, Repr, Inhabited

/-- `READLINE_OVERFLOW` (decision D23): what becomes of the rest of a line longer than the buffer. -/
inductive ReadlineOverflow where
  | leave
  | drop
  deriving DecidableEq, Repr, Inhabited

/-- `BREAK_RESUME` (decision D28): how a run gets past a breakpoint at the program counter. -/
inductive BreakResume where
  | callerSteps
  | runSkipsOnce
  deriving DecidableEq, Repr, Inhabited

/-- Which program counter a memory-watch line shows (rule R215, K18): pc0 or r[7] at the access. -/
inductive WatchPc where
  | instruction
  | advanced
  deriving DecidableEq, Repr, Inhabited

/-- `JSR_LINK_SP_VALUE` (rule R151). DESIGN CHOICE: a constant of the machine, log 9. -/
opaque Config.jsrLinkSpValue : LinkSpValue

/-- `BANK_SELECT_OUT_OF_RANGE` (rule R181). DESIGN CHOICE: a constant of the machine, log 10. -/
opaque Config.bankSelectOutOfRange : BankOutOfRange

/-- `READLINE_OVERFLOW` (rule R169). DESIGN CHOICE: a constant of the machine, log 11. -/
opaque Config.readlineOverflow : ReadlineOverflow

/-- Whether service 5 reads any input when max = 0 (rule R169: not fixed). DESIGN CHOICE, log 11. -/
opaque Config.readlineReadsWhenMaxZero : Bool

/-- `FILE_TABLE_CAPACITY` less one (decision D24: a positive integer below 0xFFFF). -/
opaque Config.fileTableCapacityPred : Fin 0xFFFE

/-- `FILE_TABLE_CAPACITY` (rules R5, R187), between 1 and 0xFFFE. DESIGN CHOICE, log 12. -/
def Config.fileTableCapacity : Nat := Config.fileTableCapacityPred.val + 1

/-- The number of the first slot, "(0 or 1)" (rule R187); no slot is kept for the host's standard streams.
DESIGN CHOICE, log 12. -/
opaque Config.firstHandle : Fin 2

/-- `WATCH_LOGS_FETCH` (rule R214): whether instruction and extension-word fetches are logged.
DESIGN CHOICE, log 13. -/
opaque Config.watchLogsFetch : Bool

/-- The "current PC" of a log line (rule R215). DESIGN CHOICE, log 13. -/
opaque Config.watchPc : WatchPc

/-- `BREAK_RESUME` (rule R212). DESIGN CHOICE, log 14. -/
opaque Config.breakResume : BreakResume

/-! ## The parse details of services 9 and 10 (rules R173, R174; K9). DESIGN CHOICE, log 8 -/

/-- Which characters besides the space (0x20, the example of rule R173) count as white space. -/
opaque Config.isOtherSpace : Byte → Bool

/-- Whether the character that ends the parse, with a number or without one, is consumed, by the base
(10 for service 9, 16 for service 10) and the characters read, that one the last of them. -/
opaque Config.parseEndConsumed : Nat → List Byte → Bool

/-- The result of service 9 for a number outside -32768..65535. -/
opaque Config.readIntOutOfRange : Int → Word

/-- The result of service 10 for a number above 0xFFFF. -/
opaque Config.readHexOutOfRange : Nat → Word

/-- Whether service 10 skips leading white space. -/
opaque Config.readHexSkipsSpace : Bool

/-- Whether service 10 takes the lower-case letters as digits. -/
opaque Config.readHexLowerCase : Bool

/-- Whether "0x" with no hexadecimal digit after it is the number 0 ended by the "x", not a prefix
without a number. -/
opaque Config.readHexBarePrefixFound : Bool

/-! ## Free values -/

/-- The k-th free flag: a flag whose value the spec leaves open (rule R161). Log 7. -/
opaque Config.freeFlag : Nat → Bool

/-- The k-th free word: a register value the spec leaves open (rules R173, R174, R181). Log 7. -/
opaque Config.freeWord : Nat → Word

/-- What the host answers to one file operation (rule R186: "each of which may fail"). A field that
does not concern the operation is not read. -/
structure HostAnswer where
  /-- the operation succeeds -/
  ok : Bool
  /-- open: the host's name of the file -/
  file : Nat
  /-- open, write: the file's position afterwards (seek: where the arithmetic gives none) -/
  position : Nat
  /-- seek from the end: the file's size -/
  size : Nat
  /-- read: the bytes -/
  data : List Byte
  deriving DecidableEq, Repr, Inhabited

/-- The host's answer to a file operation for which State holds no scripted one (rule R186: "free
inputs to the model"). Log 4. -/
opaque Config.hostAnswer : Nat → HostAnswer

end Sys2Proof
end

