-- ==== Sys2Proof/Machine/State.lean ====
section
/-! DEFINITION. The state of the machine (spec `10_state.md`), the one fault it can raise
(`60_exceptions.md` rule R200), the refusals of the model, and the state after reset (rules R27, R231). -/

namespace Sys2Proof.Machine

/-- The eight general registers (rule R10); r6 is SP, r7 is PC. -/
structure Regs where
  r0 : Word
  r1 : Word
  r2 : Word
  r3 : Word
  r4 : Word
  r5 : Word
  r6 : Word
  r7 : Word
  deriving DecidableEq, Repr

/-- The condition flags, the whole processor status (rule R17). -/
structure Flags where
  n : Bool
  z : Bool
  v : Bool
  c : Bool
  deriving DecidableEq, Repr

/-- The 256 KiB memory (rules R24, R30): physical address and byte, in the canonical form
`Memory.wf` of Machine/Ops.lean. -/
abbrev Memory := List Host.Cell

/-- An open host file as a slot of the handle table holds it, "with its position" (rules R25, R186):
the host's name for it, and the position. -/
structure OpenFile where
  file : Nat
  position : Nat
  deriving DecidableEq, Repr

/-- The file-handle table (rules R25, R187): handle number and open file; a handle that is not listed
is a vacant slot. Canonical form `FileTable.wf` of Machine/Ops.lean. -/
abbrev FileTable := List (Nat × OpenFile)

/-- The memory-watch descriptor (rule R23); `stop` is the rule's `end`, both ends inclusive. -/
structure Watch where
  enabled : Bool
  traceAll : Bool
  start : Word
  stop : Word
  deriving DecidableEq, Repr

/-- The access size (rules R9, R39): a word, size 2, or a byte, size 1. -/
inductive Size where
  | word
  | byte
  deriving DecidableEq, Repr

/-- The direction of a logged access (rule R215). -/
inductive Direction where
  | read
  | write
  deriving DecidableEq, Repr

/-- The content of one memory-watch line (rule R215): direction, current PC, logical address, size and
value. -/
structure WatchLine where
  direction : Direction
  pc : Word
  addr : Word
  size : Size
  value : Word
  deriving DecidableEq, Repr

/-- A file operation asked of the host, with its arguments (rule R186). -/
inductive FileCall where
  | openFile (path : List Byte) (mode : Word)
  | readFile (file : Nat) (max : Nat)
  | writeFile (file : Nat) (bytes : List Byte)
  | closeFile (file : Nat)
  | seekFile (file : Nat) (offset : Int) (whence : Word)
  | tellFile (file : Nat)
  deriving DecidableEq, Repr

/-- Why the machine stops with a fault. -/
inductive Fault where
  /-- `UnimplementedInstruction(pc0, w)` (rule R200), raised by a step whose instruction word matches
  no row of the opcode map, and by `JMP` and `JSR` with a mode 0 destination (decision D4). It is the
  hardware's own fatal error, so it is SAFE. -/
  | unimplementedInstruction (pc0 w : Word)
  deriving DecidableEq, Repr

/-- Why the model gives no result. -/
inductive Refusal where
  /-- raised by an arm of `exec` whose instruction has no meaning yet; SAFE -/
  | notModelled (mnemonic : String)
  /-- raised by trap services 3, 8 and 20 on a string at `addr` with no NUL in 65,536 bytes: the result
  "is not defined by the source" and "a model refuses such a call" (rule R164, D26, K10); SAFE -/
  | unterminatedString (addr : Word)
  deriving DecidableEq, Repr

/-- Everything the spec gives the machine, and the host's side of the trap services. -/
structure State where
  /-- r[0] .. r[7] (rule R10) -/
  regs : Regs
  /-- N, Z, V, C (rule R17) -/
  flags : Flags
  /-- rule R20 -/
  halted : Bool
  /-- the data bank selector (rule R21) -/
  memBank : BitVec 2
  /-- rule R24 -/
  mem : Memory
  /-- the address of the instruction word of the current step (rules R9, R200) -/
  pc0 : Word
  /-- rules R25, R187 -/
  files : FileTable
  /-- rule R23 -/
  watch : Watch
  /-- the breakpoint set (rule R22), strictly rising -/
  breakpoints : List Word
  /-- rules R22, R213 -/
  breakHit : Bool
  /-- rules R22, R213 -/
  breakAddr : Word
  /-- what the host's input stream has still to give (rule R26); its end is the list's end -/
  hostIn : List Byte
  /-- everything sent to `Host.out_char`, oldest first (rule R26) -/
  hostOut : List Byte
  /-- the host's answers to the next file operations, the next one first (rule R186); log 4 -/
  hostAnswers : List HostAnswer
  /-- the file operations asked of the host, oldest first (rule R186) -/
  hostCalls : List FileCall
  /-- the memory-watch lines sent to the sink, oldest first (rules R214, R215) -/
  watchLog : List WatchLine
  /-- the MODEL's own counter of the free values drawn so far (log 7) -/
  freeCount : Nat
  deriving DecidableEq, Repr

/-- The state right after reset (rules R27, R231). Two values are the source's: r[6] = 0xFFFE and the
empty file table. The others are the spec's decision D12, and where the rule says "unspecified"
(breakAddr, watch.start, watch.stop) a value log 2 names; the host's streams are empty (logs 3, 4). -/
def State.reset : State where
  regs := { r0 := 0, r1 := 0, r2 := 0, r3 := 0, r4 := 0, r5 := 0, r6 := 0xFFFE, r7 := 0 }
  flags := { n := false, z := false, v := false, c := false }
  halted := false
  memBank := 0
  mem := []
  pc0 := 0
  files := []
  watch := { enabled := false, traceAll := false, start := 0, stop := 0 }
  breakpoints := []
  breakHit := false
  breakAddr := 0
  hostIn := []
  hostOut := []
  hostAnswers := []
  hostCalls := []
  watchLog := []
  freeCount := 0

end Sys2Proof.Machine
end

