-- ==== Sys2Proof/Machine/Ops.lean ====
section
/-! DEFINITION. The named operations on memory, registers, the file table, the watch log and the host
that every meaning is built from, instruction fetch, and the one exception of the hardware. -/

namespace Sys2Proof.Machine

/-! ## Sorted lists of key and value -/

/-- The value of a key, if it is listed. -/
def lookupKey {α : Type} (l : List (Nat × α)) (k : Nat) : Option α :=
  match l with
  | [] => none
  | e :: t => if e.1 = k then some e.2 else lookupKey t k

/-- The list without a key. -/
def eraseKey {α : Type} (l : List (Nat × α)) (k : Nat) : List (Nat × α) :=
  match l with
  | [] => []
  | e :: t => if e.1 = k then eraseKey t k else e :: eraseKey t k

/-- The list with a key put before the first greater one. -/
def insertKey {α : Type} (l : List (Nat × α)) (k : Nat) (v : α) : List (Nat × α) :=
  match l with
  | [] => [(k, v)]
  | e :: t => if k < e.1 then (k, v) :: e :: t else e :: insertKey t k v

/-! ## Memory (rules R30 to R38) -/

/-- What a byte that nothing has written reads as: 0 (rule R231, the spec's decision D12; log 6). -/
def Memory.unlisted : Byte := 0

/-- The size of the physical memory, 256 KiB (rule R30). -/
def Memory.size : Nat := 0x40000

/-- The canonical form: addresses strictly rising and inside the memory, and no entry equal to what an
unlisted address reads as. -/
abbrev Memory.wf (m : Memory) : Prop :=
  m.Pairwise (fun x y => x.1 < y.1) ∧ ∀ e ∈ m, e.1 < Memory.size ∧ e.2 ≠ Memory.unlisted

/-- `PA(bank, a) = bank * 0x10000 + a` (rule R30). -/
def physAddr (bank : BitVec 2) (a : Word) : Nat := bank.toNat * 0x10000 + a.toNat

/-- The byte at a physical address. -/
def Memory.read (m : Memory) (pa : Nat) : Byte := (lookupKey m pa).getD Memory.unlisted

/-- Store a byte at a physical address, keeping the canonical form. -/
def Memory.write (m : Memory) (pa : Nat) (b : Byte) : Memory :=
  if b = Memory.unlisted then eraseKey m pa else insertKey (eraseKey m pa) pa b

/-- `MemRead((bank, a), 1)` (rule R32). -/
def Memory.readByte (m : Memory) (bank : BitVec 2) (a : Word) : Byte := m.read (physAddr bank a)

/-- `MemRead((bank, a), 2)` (rule R32): the high byte is at `(a + 1) mod 0x10000` of the same bank
(rule R35). -/
def Memory.readWord (m : Memory) (bank : BitVec 2) (a : Word) : Word :=
  joinBytes (m.readByte bank a) (m.readByte bank (a + 1))

/-- `MemWrite((bank, a), 1, v)` (rule R33). -/
def Memory.writeByte (m : Memory) (bank : BitVec 2) (a : Word) (b : Byte) : Memory :=
  m.write (physAddr bank a) b

/-- `MemWrite((bank, a), 2, v)` (rule R33). -/
def Memory.writeWord (m : Memory) (bank : BitVec 2) (a : Word) (v : Word) : Memory :=
  (m.writeByte bank a (lowByte v)).writeByte bank (a + 1) (highByte v)

/-- Bytes laid down in bank 0 from a 16-bit address on, wrapping inside the bank (rule R35). -/
def Memory.placeCode (m : Memory) (a : Word) (bytes : List Byte) : Memory :=
  match bytes with
  | [] => m
  | b :: t => Memory.placeCode (m.writeByte 0 a b) (a + 1) t

/-! ## Registers (rules R10 to R14) -/

/-- `r[n]`. -/
def Regs.get (g : Regs) (n : Reg) : Word :=
  match n with
  | .r0 => g.r0 | .r1 => g.r1 | .r2 => g.r2 | .r3 => g.r3
  | .r4 => g.r4 | .r5 => g.r5 | .r6 => g.r6 | .r7 => g.r7

/-- `r[n] <- v`; no register is hardwired (rule R10). -/
def Regs.set (g : Regs) (n : Reg) (v : Word) : Regs :=
  match n with
  | .r0 => { g with r0 := v } | .r1 => { g with r1 := v }
  | .r2 => { g with r2 := v } | .r3 => { g with r3 := v }
  | .r4 => { g with r4 := v } | .r5 => { g with r5 := v }
  | .r6 => { g with r6 := v } | .r7 => { g with r7 := v }

/-- `r[n]` of a state. -/
def State.reg (s : State) (n : Reg) : Word := s.regs.get n

/-- `r[n] <- v` in a state. -/
def State.setReg (s : State) (n : Reg) (v : Word) : State := { s with regs := s.regs.set n v }

/-- `pc`, r[7] (rule R14). -/
def State.pc (s : State) : Word := s.reg .r7

/-- `sp`, r[6] (rule R11). -/
def State.sp (s : State) : Word := s.reg .r6

/-- The flags as an instruction leaves them. -/
def State.setFlags (s : State) (f : Flags) : State := { s with flags := f }

/-! ## The two views of memory, and the watch log (rules R31, R34, R214, R215) -/

/-- Which view an access uses (rule R31). -/
inductive View where
  | code
  | data
  deriving DecidableEq, Repr

/-- `CODE` is bank 0; `DATA` is bank `mem_bank`, read at the moment of the access (rule R31). -/
def State.bank (s : State) (v : View) : BitVec 2 :=
  match v with
  | .code => 0
  | .data => s.memBank

/-- Whether an access is a fetch of the instruction stream, that is of an instruction or extension word
(rules R31, R36), or an operand access; only the watch log tells them apart (rule R214). -/
inductive Access where
  | fetch
  | operand
  deriving DecidableEq, Repr

/-- Rule R214: the access at logical address `a` is logged. -/
def State.watches (s : State) (k : Access) (a : Word) : Bool :=
  s.watch.enabled && (s.watch.traceAll || (s.watch.start.ule a && a.ule s.watch.stop)) &&
    match k with
    | .operand => true
    | .fetch => Config.watchLogsFetch

/-- The "current PC" of a log line (rule R215; log 13). -/
def State.watchPc (s : State) : Word :=
  match Config.watchPc with
  | .instruction => s.pc0
  | .advanced => s.pc

/-- Emit the log line of an access if the memory-watch matches (rule R214); nothing else changes. -/
def State.logAccess (s : State) (k : Access) (d : Direction) (a : Word) (z : Size) (v : Word) : State :=
  { s with
    watchLog :=
      if s.watches k a then s.watchLog ++ [⟨d, s.watchPc, a, z, v⟩] else s.watchLog }

/-- `ReadCode(a, 2)` or `ReadData(a, 2)` (rule R34). -/
def State.readWord (s : State) (v : View) (a : Word) (k : Access := .operand) : Word × State :=
  let w := s.mem.readWord (s.bank v) a
  (w, s.logAccess k .read a .word w)

/-- `ReadCode(a, 1)` or `ReadData(a, 1)` (rule R34). -/
def State.readByte (s : State) (v : View) (a : Word) (k : Access := .operand) : Byte × State :=
  let b := s.mem.readByte (s.bank v) a
  (b, s.logAccess k .read a .byte (b.setWidth 16))

/-- `WriteCode(a, 2, w)` or `WriteData(a, 2, w)` (rule R34). -/
def State.writeWord (s : State) (v : View) (a : Word) (w : Word) : State :=
  { s.logAccess .operand .write a .word w with mem := s.mem.writeWord (s.bank v) a w }

/-- `WriteCode(a, 1, b)` or `WriteData(a, 1, b)` (rule R34). -/
def State.writeByte (s : State) (v : View) (a : Word) (b : Byte) : State :=
  { s.logAccess .operand .write a .byte (b.setWidth 16) with
    mem := s.mem.writeByte (s.bank v) a b }

/-- The bytes at `a`, `a + 1`, ... of the data view, modulo 2^16 (rule R163). -/
def State.readBytes (s : State) (a : Word) (n : Nat) : List Byte × State :=
  match n with
  | 0 => ([], s)
  | k + 1 =>
    let b := s.readByte .data a
    let r := State.readBytes b.2 (a + 1) k
    (b.1 :: r.1, r.2)

/-- Store bytes at `a`, `a + 1`, ... of the data view, modulo 2^16 (rule R163). -/
def State.writeBytes (s : State) (a : Word) (bytes : List Byte) : State :=
  match bytes with
  | [] => s
  | b :: t => State.writeBytes (s.writeByte .data a b) (a + 1) t

/-! ## Instruction fetch (rules R14, R36) -/

/-- `FetchWord()`: the word at `pc` in the code bank, after which `pc` is 2 greater. -/
def State.fetchWord (s : State) : Word × State :=
  let w := s.mem.readWord 0 s.pc
  (w, (s.logAccess .fetch .read s.pc .word w).setReg .r7 (s.pc + 2))

/-- The fetch that begins a step: it fixes pc0, then reads the instruction word. -/
def State.fetchInstr (s : State) : Word × State := State.fetchWord { s with pc0 := s.pc }

/-! ## The exception (rules R200, R204, R206) -/

/-- `raise UnimplementedInstruction(pc0, w)`: the one exception of this hardware. "No handler in the
program is entered; no state is saved to memory or to a register" (rule R200), and there is no return
from it (rule R206), so it has no next state. -/
def raiseUnimplemented (pc0 w : Word) : Host.Outcome State Fault Refusal :=
  .fault (.unimplementedInstruction pc0 w)

/-! ## Free values (log 7) -/

/-- A flag the spec leaves open. -/
def State.drawFlag (s : State) : Bool × State :=
  (Config.freeFlag s.freeCount, { s with freeCount := s.freeCount + 1 })

/-- A word the spec leaves open. -/
def State.drawWord (s : State) : Word × State :=
  (Config.freeWord s.freeCount, { s with freeCount := s.freeCount + 1 })

/-! ## The host (rules R8, R26, R186, R187) -/

/-- `Host.in_char()`: one byte, or nothing at the end of input, and then always nothing (decision
D29). -/
def State.inChar (s : State) : Option Byte × State :=
  (s.hostIn.head?, { s with hostIn := s.hostIn.tail })

/-- `Host.out_char` for each byte of a sequence. -/
def State.outChars (s : State) (bytes : List Byte) : State := { s with hostOut := s.hostOut ++ bytes }

/-- Ask the host for a file operation: the call is recorded, and the answer is the next scripted one,
or a free one when none is (log 4). -/
def State.callHost (s : State) (c : FileCall) : HostAnswer × State :=
  match s.hostAnswers with
  | a :: rest => (a, { s with hostAnswers := rest, hostCalls := s.hostCalls ++ [c] })
  | [] =>
    (Config.hostAnswer s.freeCount,
      { s with freeCount := s.freeCount + 1, hostCalls := s.hostCalls ++ [c] })

/-- The canonical form of the file table: handles strictly rising, and none is 0xFFFF or above (rule
R187: "a handle can never be 0xFFFF"). -/
abbrev FileTable.wf (t : FileTable) : Prop :=
  t.Pairwise (fun x y => x.1 < y.1) ∧ ∀ e ∈ t, e.1 < 0xFFFF

/-- The open file of a handle; none when the handle is not valid (rule R187). -/
def FileTable.file (t : FileTable) (h : Nat) : Option OpenFile := lookupKey t h

/-- The slot `h` holds the file `f`. -/
def FileTable.set (t : FileTable) (h : Nat) (f : OpenFile) : FileTable := insertKey (eraseKey t h) h f

/-- The slot `h` is vacant (rule R178). -/
def FileTable.vacate (t : FileTable) (h : Nat) : FileTable := eraseKey t h

/-- The lowest-numbered vacant slot from `h` on, looking at no more than `n` slots and no more than the
`cap` slots there are (rule R187). -/
def FileTable.scan (t : FileTable) (h cap n : Nat) : Option Nat :=
  match n, cap with
  | k + 1, c + 1 => if (t.file h).isNone then some h else FileTable.scan t (h + 1) c k
  | _, _ => none

/-- "The first vacant slot" of the table (rule R187), none when it is full. Only as many slots as there
are open files, and one more, need be looked at. DESIGN CHOICE: the host's standard streams occupy no slot,
where the rule says that this is not in the source (N14, log 12). -/
def FileTable.firstVacant (t : FileTable) : Option Nat :=
  t.scan Config.firstHandle.val Config.fileTableCapacity (t.length + 1)

end Sys2Proof.Machine
end

