-- ==== Sys2Proof/Machine/Operands.lean ====
section
/-! DEFINITION. The operand resolver (spec `40_operand_addressing.md`): how a spec becomes a target,
with its side effects, and how a target is read and written. -/

namespace Sys2Proof.Machine

/-- A target (rule R80): a register, or a memory location in the code or the data bank. -/
inductive Target where
  | reg (n : Reg)
  | mem (v : View) (a : Word)
  deriving DecidableEq, Repr

/-- `delta(size, n)` (rule R81): 2, but 1 for a byte access through r[0] .. r[5]. -/
def delta (z : Size) (n : Reg) : Word :=
  match z, n with
  | .word, _ => 2
  | .byte, .r6 => 2
  | .byte, .r7 => 2
  | .byte, _ => 1

/-- The view that modes 2, 3, 6 and 7 use for register n: code when n = 7, data otherwise (rule R12). -/
def viewOf (n : Reg) : View :=
  match n with
  | .r7 => .code
  | _ => .data

/-- What a read through `(Rn)+` is to the memory-watch: with n = 7 the word at the program counter is an
extension word, and its read the fetch of it (rule R31; log 13). -/
def accessOf (n : Reg) : Access :=
  match n with
  | .r7 => .fetch
  | _ => .operand

/-- Mode 2 (rule R85): the old r[n], then the increment. -/
def resolveAutoInc (n : Reg) (z : Size) (s : State) : Target × State :=
  (.mem (viewOf n) (s.reg n), s.setReg n (s.reg n + delta z n))

/-- Mode 3 (rule R86): the pointer read at r[n], then the increment. -/
def resolveAutoIncDeferred (n : Reg) (z : Size) (s : State) : Target × State :=
  let p := s.readWord (viewOf n) (s.reg n) (accessOf n)
  (.mem .data p.1, p.2.setReg n (p.2.reg n + delta z n))

/-- Mode 4 (rule R87): the decrement, then the new r[n]. -/
def resolveAutoDec (n : Reg) (z : Size) (s : State) : Target × State :=
  (.mem .data (s.reg n - delta z n), s.setReg n (s.reg n - delta z n))

/-- Mode 5 (rule R88): the decrement, then the pointer read at the new r[n] in the data bank. -/
def resolveAutoDecDeferred (n : Reg) (z : Size) (s : State) : Target × State :=
  let t := s.setReg n (s.reg n - delta z n)
  let p := t.readWord .data (t.reg n)
  (.mem .data p.1, p.2)

/-- Mode 6 (rule R89): the displacement is fetched first, so r[7] is read after the fetch. -/
def resolveIndex (n : Reg) (s : State) : Target × State :=
  let disp := s.fetchWord
  (.mem (viewOf n) (disp.2.reg n + disp.1), disp.2)

/-- Mode 7 (rule R90): as mode 6, and the pointer read there. -/
def resolveIndexDeferred (n : Reg) (s : State) : Target × State :=
  let disp := s.fetchWord
  let p := disp.2.readWord (viewOf n) (disp.2.reg n + disp.1)
  (.mem .data p.1, p.2)

/-- `Resolve(spec, size)` (rules R80, R83 to R90). -/
def resolve (sp : Spec) (z : Size) (s : State) : Target × State :=
  match sp.mode with
  | .register => (.reg sp.reg, s)
  | .deferred => (.mem .data (s.reg sp.reg), s)
  | .autoInc => resolveAutoInc sp.reg z s
  | .autoIncDeferred => resolveAutoIncDeferred sp.reg z s
  | .autoDec => resolveAutoDec sp.reg z s
  | .autoDecDeferred => resolveAutoDecDeferred sp.reg z s
  | .index => resolveIndex sp.reg s
  | .indexDeferred => resolveIndexDeferred sp.reg s

/-- `ReadOperand(t, 2)` (rule R91). -/
def readTargetWord (t : Target) (s : State) (k : Access := .operand) : Word × State :=
  match t with
  | .reg n => (s.reg n, s)
  | .mem v a => s.readWord v a k

/-- `ReadOperand(t, 1)` (rule R91): the low byte of a register (decision D2). -/
def readTargetByte (t : Target) (s : State) (k : Access := .operand) : Byte × State :=
  match t with
  | .reg n => (lowByte (s.reg n), s)
  | .mem v a => s.readByte v a k

/-- `WriteOperand(t, 2, v)` (rule R92). -/
def writeTargetWord (t : Target) (v : Word) (s : State) : State :=
  match t with
  | .reg n => s.setReg n v
  | .mem w a => s.writeWord w a v

/-- `WriteOperand(t, 1, v)` (rule R92): a register keeps its high byte. -/
def writeTargetByte (t : Target) (b : Byte) (s : State) : State :=
  match t with
  | .reg n => s.setReg n (joinBytes b (highByte (s.reg n)))
  | .mem w a => s.writeByte w a b

/-- `sext_8` of rule R9. -/
def sext8 (b : Byte) : Word := b.signExtend 16

/-- `WriteOperandSext(t, v)` (rule R93), used by `MOVB` only. -/
def writeTargetSext (t : Target) (b : Byte) (s : State) : State :=
  match t with
  | .reg n => s.setReg n (sext8 b)
  | .mem w a => s.writeByte w a b

/-- What reading a spec's operand is to the memory-watch: an immediate is an extension word (rule R31),
every other operand is an operand access. -/
def operandAccess (sp : Spec) : Access :=
  match sp.mode with
  | .autoInc => accessOf sp.reg
  | _ => .operand

/-- Resolve a spec and read it as a word: steps 2 and 3, or 4 and 5, of rule R94. The target is kept
for the write. -/
def operandWord (sp : Spec) (s : State) : Target × Word × State :=
  let t := resolve sp .word s
  let v := readTargetWord t.1 t.2 (operandAccess sp)
  (t.1, v.1, v.2)

/-- Resolve a spec and read it as a byte. -/
def operandByte (sp : Spec) (s : State) : Target × Byte × State :=
  let t := resolve sp .byte s
  let v := readTargetByte t.1 t.2 (operandAccess sp)
  (t.1, v.1, v.2)

/-! ## The common sequences of rules R100 and R120 -/

/-- Word, two operands, destination read and written (`BIC`, `BIS`, `ADD`, `SUB`). -/
def modifyWord2 (ss dd : Spec) (f : Word → Word → Word) (fl : Word → Word → Flags) (s : State) : State :=
  let a := operandWord ss s
  let b := operandWord dd a.2.2
  (writeTargetWord b.1 (f a.2.1 b.2.1) b.2.2).setFlags (fl a.2.1 b.2.1)

/-- Word, two operands, nothing written but the flags (`CMP`, `BIT`). -/
def testWord2 (ss dd : Spec) (fl : Word → Word → Flags) (s : State) : State :=
  let a := operandWord ss s
  let b := operandWord dd a.2.2
  b.2.2.setFlags (fl a.2.1 b.2.1)

/-- Byte, two operands, destination read and written (`BICB`, `BISB`). -/
def modifyByte2 (ss dd : Spec) (f : Byte → Byte → Byte) (fl : Byte → Byte → Flags) (s : State) : State :=
  let a := operandByte ss s
  let b := operandByte dd a.2.2
  (writeTargetByte b.1 (f a.2.1 b.2.1) b.2.2).setFlags (fl a.2.1 b.2.1)

/-- Byte, two operands, nothing written but the flags (`CMPB`, `BITB`). -/
def testByte2 (ss dd : Spec) (fl : Byte → Byte → Flags) (s : State) : State :=
  let a := operandByte ss s
  let b := operandByte dd a.2.2
  b.2.2.setFlags (fl a.2.1 b.2.1)

/-- Word, one operand, read and written (`INC`, `DEC`, `ROR`, `ROL`, `ASR`, `ASL`). -/
def modifyWord1 (dd : Spec) (f : Word → Word) (fl : Word → Flags) (s : State) : State :=
  let b := operandWord dd s
  (writeTargetWord b.1 (f b.2.1) b.2.2).setFlags (fl b.2.1)

/-- Byte, one operand, read and written (`INCB`, `DECB`). -/
def modifyByte1 (dd : Spec) (f : Byte → Byte) (fl : Byte → Flags) (s : State) : State :=
  let b := operandByte dd s
  (writeTargetByte b.1 (f b.2.1) b.2.2).setFlags (fl b.2.1)

end Sys2Proof.Machine
end

