-- ==== Sys2Proof/Machine/Control.lean ====
section
/-! DEFINITION. Branches (spec `43_branch.md`), `JMP`, `JSR`, `RTS` and `HALT` (spec `44_control.md`).
Each is given after the fetch of its word: `pc` is pc0 + 2. None of them writes a flag. -/

namespace Sys2Proof.Machine

/-- `pc <- (pc + 2 * signed8(off)) mod 2^16` when the condition holds (rule R140). -/
def branchIf (cond : Bool) (off : BitVec 8) (s : State) : State :=
  if cond then s.setReg .r7 (s.pc + 2 * off.signExtend 16) else s

/-- `BR` (rule R141). -/
def execBr (off : BitVec 8) (s : State) : Host.Outcome State Fault Refusal :=
  .next (branchIf true off s)

/-- `BNE` (rule R142): taken when Z = 0. -/
def execBne (off : BitVec 8) (s : State) : Host.Outcome State Fault Refusal :=
  .next (branchIf (!s.flags.z) off s)

/-- `BEQ` (rule R143): taken when Z = 1. -/
def execBeq (off : BitVec 8) (s : State) : Host.Outcome State Fault Refusal :=
  .next (branchIf s.flags.z off s)

/-- `JMP` (rule R150): size 2 (decision D25), the target is not accessed and its bank is dropped; a
register destination raises the fatal error (decision D4). -/
def execJmp (dd : Spec) (s : State) : Host.Outcome State Fault Refusal :=
  let t := resolve dd .word s
  match t.1 with
  | .reg _ => raiseUnimplemented s.pc0 (encodeWord (.jmp dd))
  | .mem _ a => .next (t.2.setReg .r7 a)

/-- The value `JSR` pushes: r[R] read before the decrement, but for R = 6 the OPEN parameter
`JSR_LINK_SP_VALUE` chooses (rule R151, decision D6; log 9). -/
def linkValue (link : Reg) (s : State) : Word :=
  match link with
  | .r6 =>
    match Config.jsrLinkSpValue with
    | .before => s.sp
    | .after => s.sp - 2
  | r => s.reg r

/-- The push of `JSR`: r[6] down by 2, then the word at the new r[6] in the data bank (decision D5). -/
def pushWord (v : Word) (s : State) : State :=
  (s.setReg .r6 (s.sp - 2)).writeWord .data (s.sp - 2) v

/-- `JSR` (rule R151): the destination first, then the push, the link register and the jump. -/
def execJsr (link : Reg) (dd : Spec) (s : State) : Host.Outcome State Fault Refusal :=
  let t := resolve dd .word s
  match t.1 with
  | .reg _ => raiseUnimplemented s.pc0 (encodeWord (.jsr link dd))
  | .mem _ a =>
    let p := pushWord (linkValue link t.2) t.2
    .next ((p.setReg link p.pc).setReg .r7 a)

/-- `RTS` (rule R152): the four assignments in order. -/
def execRts (link : Reg) (s : State) : Host.Outcome State Fault Refusal :=
  let w := s.readWord .data s.sp
  let p := w.2.setReg link w.1
  .next ((p.setReg .r6 (p.sp + 2)).setReg .r7 (s.reg link))

/-- `HALT` (rule R153). -/
def execHalt (s : State) : Host.Outcome State Fault Refusal := .next { s with halted := true }

end Sys2Proof.Machine
end

