-- ==== Sys2Proof/Machine/Flags.lean ====
section
/-! DEFINITION. Every result and every flag computation of the ALU (spec `10_state.md` rule R18,
`41_double_operand.md`, `42_single_operand.md`), once for both widths: w is 16 for the word instructions
and 8 for the byte instructions. Operands are `s` (source) and `d` (destination), as in the rules. -/

namespace Sys2Proof.Machine

variable {w : Nat}

/-- The largest signed number of the width, 0x7FFF or 0x7F. -/
def maxSigned (w : Nat) : BitVec w := BitVec.ofNat w (2 ^ (w - 1) - 1)

/-- The smallest signed number of the width, 0x8000 or 0x80. -/
def minSigned (w : Nat) : BitVec w := BitVec.ofNat w (2 ^ (w - 1))

/-! ## Results -/

/-- `d & ~s` (rules R104, R111). -/
def bicResult (s d : BitVec w) : BitVec w := d &&& ~~~s

/-- `d | s` (rules R105, R112). -/
def bisResult (s d : BitVec w) : BitVec w := d ||| s

/-- `(s + d) mod 2^w` (rule R106). -/
def addResult (s d : BitVec w) : BitVec w := s + d

/-- `(d - s) mod 2^w` (rules R102, R107, R109). -/
def subResult (s d : BitVec w) : BitVec w := d - s

/-- `(d + 1) mod 2^w` (rules R122, R130). -/
def incResult (d : BitVec w) : BitVec w := d + 1

/-- `(d - 1) mod 2^w` (rules R123, R131). -/
def decResult (d : BitVec w) : BitVec w := d - 1

/-- `(C << 15) | (d >> 1)` with the C before the instruction (rule R125). -/
def rorResult (c : Bool) (d : Word) : Word := (if c then 0x8000 else 0) ||| (d >>> 1)

/-- `((d << 1) mod 2^16) | C` with the C before the instruction (rule R126). -/
def rolResult (c : Bool) (d : Word) : Word := (d <<< 1) ||| (if c then 1 else 0)

/-- `(d & 0x8000) | (d >> 1)` (rule R127). -/
def asrResult (d : Word) : Word := (d &&& 0x8000) ||| (d >>> 1)

/-- `(d << 1) mod 2^16` (rule R128). -/
def aslResult (d : Word) : Word := d <<< 1

/-! ## Flags -/

/-- `N <- res[MSB]; Z <- (res = 0)` with the V and C of the instruction (rule R100). -/
def resultFlags (res : BitVec w) (v c : Bool) : Flags := { n := res.msb, z := res == 0, v := v, c := c }

/-- `MOV`, `MOVB` (rules R101, R108): V cleared, C unchanged. -/
def movFlags (s : BitVec w) (old : Flags) : Flags := resultFlags s false old.c

/-- `BIT`, `BIC`, `BIS`, `TST` and their byte forms (rules R103 to R105, R110 to R112, R124, R132): V
and C cleared. -/
def logicFlags (res : BitVec w) : Flags := resultFlags res false false

/-- `ADD` (rule R106): V when operands of equal sign give a result of the other, C the carry out. -/
def addFlags (s d : BitVec w) : Flags :=
  resultFlags (addResult s d) ((~~~(s ^^^ d) &&& (s ^^^ addResult s d)).msb)
    (decide (2 ^ w ≤ s.toNat + d.toNat))

/-- `CMP`, `SUB`, `CMPB` (rules R102, R107, R109): `((d ^ s) & (d ^ res))[MSB]` and the borrow. -/
def subFlags (s d : BitVec w) : Flags :=
  resultFlags (subResult s d) (((d ^^^ s) &&& (d ^^^ subResult s d)).msb) (d.ult s)

/-- `CLR`, `CLRB` (rules R121, R129). -/
def clrFlags : Flags := { n := false, z := true, v := false, c := false }

/-- `INC`, `INCB` (rules R122, R130): C unchanged. -/
def incFlags (d : BitVec w) (old : Flags) : Flags := resultFlags (incResult d) (d == maxSigned w) old.c

/-- `DEC`, `DECB` (rules R123, R131): C unchanged (decision D3). -/
def decFlags (d : BitVec w) (old : Flags) : Flags := resultFlags (decResult d) (d == minSigned w) old.c

/-- `ROR`, `ROL`, `ASR`, `ASL` (rules R125 to R128): V is the new N xor the new C. -/
def shiftFlags (res : Word) (c : Bool) : Flags := resultFlags res (res.msb ^^ c) c

/-- The flags a defined trap service starts from: N, V and C cleared (rules R160, R161). -/
def serviceFlags (old : Flags) : Flags := { n := false, z := old.z, v := false, c := false }

end Sys2Proof.Machine
end

