-- ==== Sys2Proof/Machine/Double.lean ====
section
/-! DEFINITION. The double-operand instructions (spec `41_double_operand.md`). None of them raises an
exception (rule R100). Each is given after the fetch of its word: `pc` is pc0 + 2. -/

namespace Sys2Proof.Machine

/-- `MOV` (rule R101): the destination is not read (decision D22). -/
def execMov (ss dd : Spec) (s : State) : Host.Outcome State Fault Refusal :=
  let a := operandWord ss s
  let t := resolve dd .word a.2.2
  .next ((writeTargetWord t.1 a.2.1 t.2).setFlags (movFlags a.2.1 s.flags))

/-- `CMP` (rule R102): destination minus source. -/
def execCmp (ss dd : Spec) (s : State) : Host.Outcome State Fault Refusal :=
  .next (testWord2 ss dd subFlags s)

/-- `BIT` (rule R103). -/
def execBit (ss dd : Spec) (s : State) : Host.Outcome State Fault Refusal :=
  .next (testWord2 ss dd (fun a d => logicFlags (a &&& d)) s)

/-- `BIC` (rule R104). -/
def execBic (ss dd : Spec) (s : State) : Host.Outcome State Fault Refusal :=
  .next (modifyWord2 ss dd bicResult (fun a d => logicFlags (bicResult a d)) s)

/-- `BIS` (rule R105). -/
def execBis (ss dd : Spec) (s : State) : Host.Outcome State Fault Refusal :=
  .next (modifyWord2 ss dd bisResult (fun a d => logicFlags (bisResult a d)) s)

/-- `ADD` (rule R106). -/
def execAdd (ss dd : Spec) (s : State) : Host.Outcome State Fault Refusal :=
  .next (modifyWord2 ss dd addResult addFlags s)

/-- `SUB` (rule R107): a word instruction, size 2. -/
def execSub (ss dd : Spec) (s : State) : Host.Outcome State Fault Refusal :=
  .next (modifyWord2 ss dd subResult subFlags s)

/-- `MOVB` (rule R108): sign-extended into a register, one byte into memory. -/
def execMovb (ss dd : Spec) (s : State) : Host.Outcome State Fault Refusal :=
  let a := operandByte ss s
  let t := resolve dd .byte a.2.2
  .next ((writeTargetSext t.1 a.2.1 t.2).setFlags (movFlags a.2.1 s.flags))

/-- `CMPB` (rule R109): destination minus source. -/
def execCmpb (ss dd : Spec) (s : State) : Host.Outcome State Fault Refusal :=
  .next (testByte2 ss dd subFlags s)

/-- `BITB` (rule R110). -/
def execBitb (ss dd : Spec) (s : State) : Host.Outcome State Fault Refusal :=
  .next (testByte2 ss dd (fun a d => logicFlags (a &&& d)) s)

/-- `BICB` (rule R111). -/
def execBicb (ss dd : Spec) (s : State) : Host.Outcome State Fault Refusal :=
  .next (modifyByte2 ss dd bicResult (fun a d => logicFlags (bicResult a d)) s)

/-- `BISB` (rule R112). -/
def execBisb (ss dd : Spec) (s : State) : Host.Outcome State Fault Refusal :=
  .next (modifyByte2 ss dd bisResult (fun a d => logicFlags (bisResult a d)) s)

end Sys2Proof.Machine
end

