-- ==== Sys2Proof/Machine/Text.lean ====
section
/-! DEFINITION. The text the print services send (spec `45_trap_services.md` rules R168, R170, R171)
and the text the input services read (rules R169, R173, R174), as functions on byte lists. -/

namespace Sys2Proof.Machine

/-! ## Printing -/

/-- The digits of a number in a base, most significant first, at least one and no leading zero; `k` is
one less than the most digits the number can have. -/
def digits (base : Nat) (k n : Nat) : List Nat :=
  match k with
  | 0 => [n]
  | j + 1 => if n < base then [n] else digits base j (n / base) ++ [n % base]

/-- The ASCII character of a digit 0 .. 15, letters in lower case. -/
def digitChar (d : Nat) : Byte := BitVec.ofNat 8 (if d < 10 then 0x30 + d else 0x57 + d)

/-- A number below 2^16 in decimal ASCII digits (decision D18). -/
def decimalText (n : Nat) : List Byte := (digits 10 4 n).map digitChar

/-- A signed word: a leading "-" when negative (rule R168, decision D18). -/
def signedText (v : Word) : List Byte :=
  if v.msb then 0x2D :: decimalText v.toInt.natAbs else decimalText v.toNat

/-- "0x" and the hexadecimal digits (rule R170, decision D18). -/
def hexText (v : Word) : List Byte := 0x30 :: 0x78 :: (digits 16 3 v.toNat).map digitChar

/-! ## Reading a line (rule R169) -/

/-- The input after the next newline, which is consumed. -/
def dropLine (input : List Byte) : List Byte :=
  match input with
  | [] => []
  | c :: t => if c = 0x0A then t else dropLine t

/-- The bytes of a line that are stored, at most `cap` of them, and the input left unread. The line
ends at a newline, which is consumed, or at the end of input; a longer line is READLINE_OVERFLOW's. -/
def takeLine (policy : ReadlineOverflow) (cap : Nat) (input : List Byte) : List Byte × List Byte :=
  match input with
  | [] => ([], [])
  | c :: t =>
    if c = 0x0A then ([], t)
    else
      match cap with
      | 0 =>
        match policy with
        | .leave => ([], c :: t)
        | .drop => ([], dropLine t)
      | k + 1 =>
        let r := takeLine policy k t
        (c :: r.1, r.2)

/-! ## Reading a number (rules R173, R174; log 8) -/

/-- A sign, a digit or a letter: never white space. -/
def isNumberChar (b : Byte) : Bool :=
  b == 0x2B || b == 0x2D || (0x30#8).ule b && b.ule 0x39 || (0x41#8).ule b && b.ule 0x5A ||
    (0x61#8).ule b && b.ule 0x7A

/-- White space: the space of rule R173's example, and what the machine's constant adds. -/
def isSpace (b : Byte) : Bool := b == 0x20 || !isNumberChar b && Config.isOtherSpace b

/-- A decimal digit's value. -/
def decimalDigit (b : Byte) : Option Nat :=
  if (0x30#8).ule b && b.ule 0x39 then some (b.toNat - 0x30) else none

/-- A hexadecimal digit's value; the upper case is rule R174's example, the lower case is open. -/
def hexDigit (b : Byte) : Option Nat :=
  if (0x30#8).ule b && b.ule 0x39 then some (b.toNat - 0x30)
  else if (0x41#8).ule b && b.ule 0x46 then some (b.toNat - 0x37)
  else if ((0x61#8).ule b && b.ule 0x66) && Config.readHexLowerCase then some (b.toNat - 0x57)
  else none

/-- The value of the leading digits, begun at `acc`, and the input from the first non-digit on. -/
def scanDigits (digit : Byte → Option Nat) (base acc : Nat) (input : List Byte) : Nat × List Byte :=
  match input with
  | [] => (acc, [])
  | c :: t =>
    match digit c with
    | some d => scanDigits digit base (acc * base + d) t
    | none => (acc, c :: t)

/-- The input left after a parse of `input` that ended at the head of `rest`, with a number or without
one: what stands before it was read with `Host.in_char` and is gone, and whether the ending character is
consumed is open. At the end of input nothing is left (decision D29). -/
def afterParse (base : Nat) (input rest : List Byte) : List Byte :=
  match rest with
  | [] => []
  | c :: t =>
    if Config.parseEndConsumed base (input.take (input.length - t.length)) then t else c :: t

/-- The first character is a digit. -/
def startsWithDigit (digit : Byte → Option Nat) (input : List Byte) : Bool :=
  match input with
  | [] => false
  | c :: _ => (digit c).isSome

/-- The input after an optional "+" or "-". -/
def afterSign (input : List Byte) : List Byte :=
  match input with
  | [] => []
  | c :: t => if c == 0x2B || c == 0x2D then t else c :: t

/-- The input starts with a "-". -/
def startsWithMinus (input : List Byte) : Bool :=
  match input with
  | [] => false
  | c :: _ => c == 0x2D

/-- `Host.read_int` (rule R173): leading white space, an optional sign, decimal digits. -/
def readInt (input : List Byte) : Option Int × List Byte :=
  let t := input.dropWhile isSpace
  let u := afterSign t
  if startsWithDigit decimalDigit u then
    let r := scanDigits decimalDigit 10 0 u
    (some (if startsWithMinus t then -(r.1 : Int) else (r.1 : Int)), afterParse 10 input r.2)
  else (none, afterParse 10 input u)

/-- `v mod 2^16`; outside -32768..65535 the result is not fixed (rule R173). -/
def intWord (v : Int) : Word :=
  if -32768 ≤ v ∧ v ≤ 65535 then BitVec.ofInt 16 v else Config.readIntOutOfRange v

/-- The input starts with "0x" or "0X". -/
def hasHexPrefix (input : List Byte) : Bool :=
  match input with
  | c :: d :: _ => c == 0x30 && (d == 0x78 || d == 0x58)
  | _ => false

/-- The input starts with white space. -/
def startsWithSpace (input : List Byte) : Bool :=
  match input with
  | [] => false
  | c :: _ => isSpace c

/-- `Host.read_hex` (rule R174): an optional "0x" or "0X", hexadecimal digits. Of "0x" with no digit after
it the prefix is read and there is no number, or the "0" is the number and the "x" the character that
ends it (log 8). -/
def readHex (input : List Byte) : Option Nat × List Byte :=
  let t := if startsWithSpace input && Config.readHexSkipsSpace then input.dropWhile isSpace else input
  let u := if hasHexPrefix t then t.drop 2 else t
  if startsWithDigit hexDigit u then
    let r := scanDigits hexDigit 16 0 u
    (some r.1, afterParse 16 input r.2)
  else if hasHexPrefix t && Config.readHexBarePrefixFound then (some 0, afterParse 16 input t.tail)
  else (none, afterParse 16 input u)

/-- `v mod 2^16`; above 0xFFFF the result is not fixed (rule R174). -/
def hexWord (v : Nat) : Word := if v ≤ 0xFFFF then BitVec.ofNat 16 v else Config.readHexOutOfRange v

end Sys2Proof.Machine
end

