-- ==== Sys2Proof/Machine/Services.lean ====
section
/-! DEFINITION. `TRAP` and its seventeen host services (spec `44_control.md` rule R154,
`45_trap_services.md`). A service runs whole inside the step; failures are reported in r[0] and Z. -/

namespace Sys2Proof.Machine

/-- The seventeen defined services (rule R160). -/
inductive Service where
  | putc | getc | puts | printSigned | readLine | printHex | printUnsigned | println | readInt | readHex
  | openFile | readFile | writeFile | closeFile | seekFile | tellFile | bank
  deriving DecidableEq, Repr

/-- The service a vector names; the other 239 vectors name none (rules R160, R162). -/
def serviceOf (vec : BitVec 8) : Option Service :=
  match vec.toNat with
  | 1 => some .putc
  | 2 => some .getc
  | 3 => some .puts
  | 4 => some .printSigned
  | 5 => some .readLine
  | 6 => some .printHex
  | 7 => some .printUnsigned
  | 8 => some .println
  | 9 => some .readInt
  | 10 => some .readHex
  | 20 => some .openFile
  | 21 => some .readFile
  | 22 => some .writeFile
  | 23 => some .closeFile
  | 24 => some .seekFile
  | 25 => some .tellFile
  | 26 => some .bank
  | _ => none

/-! ## Shared parts -/

/-- `Z <- b`. -/
def State.setZ (s : State) (b : Bool) : State := s.setFlags { s.flags with z := b }

/-- Z after a service with no documented Z condition is any value (rule R161, K8; log 7). -/
def State.freeZ (s : State) : State :=
  let f := s.drawFlag
  f.2.setZ f.1

/-- `r[0] <- v` with `Z <- (v = 0)` (rules R176, R177). -/
def State.result (s : State) (v : Word) : State := (s.setReg .r0 v).setZ (v == 0)

/-- The valid handle r[0] names, as the open file in its slot (rule R187). -/
def State.openFileOf (s : State) : Option OpenFile := s.files.file (s.reg .r0).toNat

/-- The slot of the handle r[0] now holds `f`. -/
def State.setFile (s : State) (f : OpenFile) : State :=
  { s with files := s.files.set (s.reg .r0).toNat f }

/-- `CString(a)` (rule R164), looking at `n` bytes of the data view: the bytes before the first zero;
none when there is no zero. -/
def cstring (n : Nat) (a : Word) (s : State) : Option (List Byte × State) :=
  match n with
  | 0 => none
  | k + 1 =>
    let b := s.readByte .data a
    if b.1 = 0 then some ([], b.2)
    else
      match cstring k (a + 1) b.2 with
      | none => none
      | some r => some (b.1 :: r.1, r.2)

/-- A service whose input is the string at r[0]; with no NUL in 65,536 bytes the spec says "a model
refuses such a call" (rule R164, D26, K10; log 17). -/
def withString (f : List Byte → State → State) (s : State) : Host.Outcome State Fault Refusal :=
  match cstring 0x10000 (s.reg .r0) s with
  | some r => .next (f r.1 r.2)
  | none => .refused (.unterminatedString (s.reg .r0))

/-! ## Characters and numbers (vectors 1 to 10) -/

/-- Service 1 (rule R165). -/
def servicePutc (s : State) : State := (s.outChars [lowByte (s.reg .r0)]).freeZ

/-- Service 2 (rule R166). -/
def serviceGetc (s : State) : State :=
  let c := s.inChar
  match c.1 with
  | none => (c.2.setReg .r0 0).setZ true
  | some b => (c.2.setReg .r0 (b.setWidth 16)).setZ false

/-- Service 3 (rule R167), for the string's bytes. -/
def servicePuts (bytes : List Byte) (s : State) : State := (s.outChars bytes).freeZ

/-- Service 4 (rule R168). -/
def servicePrintSigned (s : State) : State := (s.outChars (signedText (s.reg .r0))).freeZ

/-- The part of service 5 that reads: the stored bytes, the input left, and whether a character was
seen (rule R169; log 11 for max = 0). -/
def lineRead (max : Word) (input : List Byte) : List Byte × List Byte × Bool :=
  if max = 0 && !Config.readlineReadsWhenMaxZero then ([], input, false)
  else
    let r := takeLine Config.readlineOverflow (max.toNat - 1) input
    (r.1, r.2, !input.isEmpty)

/-- Service 5 (rule R169): r[0] = buf, r[1] = max. -/
def serviceReadLine (s : State) : State :=
  let buf := s.reg .r0
  let r := lineRead (s.reg .r1) s.hostIn
  let count : Word := BitVec.ofNat 16 r.1.length
  let t := State.writeBytes { s with hostIn := r.2.1 } buf r.1
  let u := if s.reg .r1 = 0 then t else t.writeByte .data (buf + count) 0
  (u.setReg .r0 count).setZ (!r.2.2 && count == 0)

/-- Service 6 (rule R170). -/
def servicePrintHex (s : State) : State := (s.outChars (hexText (s.reg .r0))).freeZ

/-- Service 7 (rule R171). -/
def servicePrintUnsigned (s : State) : State := (s.outChars (decimalText (s.reg .r0).toNat)).freeZ

/-- Service 8 (rule R172), for the string's bytes: one byte 0x0A after them (decision D18). -/
def servicePrintln (bytes : List Byte) (s : State) : State := ((s.outChars bytes).outChars [0x0A]).freeZ

/-- r[0] and Z after a number was read or not; r[0] is any value when not (rules R173, R174; log 8). -/
def numberResult (v : Option Word) (s : State) : State :=
  match v with
  | some w => (s.setReg .r0 w).setZ false
  | none =>
    let d := s.drawWord
    (d.2.setReg .r0 d.1).setZ true

/-- Service 9 (rule R173). -/
def serviceReadInt (s : State) : State :=
  let r := readInt s.hostIn
  numberResult (r.1.map intWord) { s with hostIn := r.2 }

/-- Service 10 (rule R174). -/
def serviceReadHex (s : State) : State :=
  let r := readHex s.hostIn
  numberResult (r.1.map hexWord) { s with hostIn := r.2 }

/-! ## Files (vectors 20 to 25) -/

/-- A result of 0xFFFF, the failure of services 20, 23, 24 and 25; Z is not documented. -/
def State.failed (s : State) : State := (s.setReg .r0 0xFFFF).freeZ

/-- Service 20 (rule R175), for the path's bytes: r[1] = mode. A path over 1024 bytes, a mode outside
0..3 and a full table are failures (decision D24), and the host is then not asked. -/
def serviceOpen (path : List Byte) (s : State) : State :=
  if path.length ≤ 1024 && (s.reg .r1).ule 3 then
    match s.files.firstVacant with
    | none => s.failed
    | some h =>
      let a := s.callHost (.openFile path (s.reg .r1))
      if a.1.ok then
        (State.setReg { a.2 with files := a.2.files.set h ⟨a.1.file, a.1.position⟩ } .r0
          (BitVec.ofNat 16 h)).freeZ
      else a.2.failed
  else s.failed

/-- Service 21 (rule R176): r[0] = handle, r[1] = buf, r[2] = max. The host gives at most max bytes and
the position advances by them (rule R186). DESIGN CHOICE: a read that fails leaves the position as it
was, where the spec is silent (log 5). -/
def serviceReadFile (s : State) : State :=
  match s.openFileOf with
  | none => s.result 0
  | some f =>
    let a := s.callHost (.readFile f.file (s.reg .r2).toNat)
    if a.1.ok then
      let bytes := a.1.data.take (s.reg .r2).toNat
      let t := a.2.setFile { f with position := f.position + bytes.length }
      (t.writeBytes (s.reg .r1) bytes).result (BitVec.ofNat 16 bytes.length)
    else a.2.result 0

/-- Service 22 (rule R177): r[0] = handle, r[1] = buf, r[2] = len. DESIGN CHOICE: the position after a
write is the host's, and a write that fails leaves it as it was, where the spec is silent (log 5). -/
def serviceWriteFile (s : State) : State :=
  let b := s.readBytes (s.reg .r1) (s.reg .r2).toNat
  match s.openFileOf with
  | none => b.2.result 0
  | some f =>
    let a := b.2.callHost (.writeFile f.file b.1)
    if a.1.ok then (a.2.setFile { f with position := a.1.position }).result (s.reg .r2)
    else a.2.result 0

/-- Service 23 (rule R178): "this spec vacates it only on success". -/
def serviceClose (s : State) : State :=
  match s.openFileOf with
  | none => s.failed
  | some f =>
    let a := s.callHost (.closeFile f.file)
    if a.1.ok then
      (State.setReg { a.2 with files := a.2.files.vacate (s.reg .r0).toNat } .r0 0).freeZ
    else a.2.failed

/-- Where a seek ends (rule R186): from the start, the current position or the end by whence; where
that is below 0, wherever the host says (log 5). -/
def seekPosition (f : OpenFile) (offset : Int) (whence : Word) (a : HostAnswer) : Nat :=
  let base : Nat := if whence = 0 then 0 else if whence = 1 then f.position else a.size
  if 0 ≤ (base : Int) + offset then ((base : Int) + offset).toNat else a.position

/-- Service 24 (rule R179): r[0] = handle, r[1] = signed offset, r[2] = whence. DESIGN CHOICE: a seek that
fails leaves the position as it was, where the spec is silent (log 5). -/
def serviceSeek (s : State) : State :=
  match s.openFileOf with
  | none => s.failed
  | some f =>
    if (s.reg .r2).ule 2 then
      let offset := (s.reg .r1).toInt
      let a := s.callHost (.seekFile f.file offset (s.reg .r2))
      if a.1.ok then
        ((a.2.setFile { f with position := seekPosition f offset (s.reg .r2) a.1 }).setReg .r0 0).freeZ
      else a.2.failed
    else s.failed

/-- Service 25 (rule R180): the low 16 bits of the position. -/
def serviceTell (s : State) : State :=
  match s.openFileOf with
  | none => s.failed
  | some f =>
    let a := s.callHost (.tellFile f.file)
    if a.1.ok then (a.2.setReg .r0 (BitVec.ofNat 16 f.position)).freeZ
    else a.2.failed

/-! ## The bank (vector 26) -/

/-- The bank of an out-of-range request, by `BANK_SELECT_OUT_OF_RANGE` (rule R181, D9; log 10). -/
def outOfRangeBank (r0 : Word) (old : BitVec 2) : BitVec 2 :=
  match Config.bankSelectOutOfRange with
  | .mask => r0.extractLsb' 0 2
  | .ignore => old
  | .refuse => old

/-- Service 26 (rule R181). For r[0] > 3 the spec names the candidates for `mem_bank` and no value for
r[0], which is any value (log 10). -/
def serviceBank (s : State) : State :=
  if (s.reg .r0).ule 3 then
    (State.setReg { s with memBank := (s.reg .r0).extractLsb' 0 2 } .r0 0).freeZ
  else
    let d := s.drawWord
    (State.setReg { d.2 with memBank := outOfRangeBank (s.reg .r0) s.memBank } .r0 d.1).freeZ

/-! ## The dispatcher -/

/-- The service of that number (rule R160), the flags N, V and C already cleared. -/
def runService (v : Service) (s : State) : Host.Outcome State Fault Refusal :=
  match v with
  | .putc => .next (servicePutc s)
  | .getc => .next (serviceGetc s)
  | .puts => withString servicePuts s
  | .printSigned => .next (servicePrintSigned s)
  | .readLine => .next (serviceReadLine s)
  | .printHex => .next (servicePrintHex s)
  | .printUnsigned => .next (servicePrintUnsigned s)
  | .println => withString servicePrintln s
  | .readInt => .next (serviceReadInt s)
  | .readHex => .next (serviceReadHex s)
  | .openFile => withString serviceOpen s
  | .readFile => .next (serviceReadFile s)
  | .writeFile => .next (serviceWriteFile s)
  | .closeFile => .next (serviceClose s)
  | .seekFile => .next (serviceSeek s)
  | .tellFile => .next (serviceTell s)
  | .bank => .next (serviceBank s)

/-- `TRAP` (rules R154, R160, R162): a vector that names no service changes nothing. -/
def execTrap (vec : BitVec 8) (s : State) : Host.Outcome State Fault Refusal :=
  match serviceOf vec with
  | none => .next s
  | some v => runService v (s.setFlags (serviceFlags s.flags))

end Sys2Proof.Machine
end

