-- ==== Sys2Proof/Machine/Single.lean ====
section
/-! DEFINITION. The single-operand instructions (spec `42_single_operand.md`). None of them raises an
exception, and the operand is resolved once (rule R120). -/

namespace Sys2Proof.Machine

/-- `CLR` (rule R121): the destination is not read (decision D22). -/
def execClr (dd : Spec) (s : State) : Host.Outcome State Fault Refusal :=
  let t := resolve dd .word s
  .next ((writeTargetWord t.1 0 t.2).setFlags clrFlags)

/-- `INC` (rule R122). -/
def execInc (dd : Spec) (s : State) : Host.Outcome State Fault Refusal :=
  .next (modifyWord1 dd incResult (fun d => incFlags d s.flags) s)

/-- `DEC` (rule R123). -/
def execDec (dd : Spec) (s : State) : Host.Outcome State Fault Refusal :=
  .next (modifyWord1 dd decResult (fun d => decFlags d s.flags) s)

/-- `TST` (rule R124): nothing is written but the flags. -/
def execTst (dd : Spec) (s : State) : Host.Outcome State Fault Refusal :=
  let b := operandWord dd s
  .next (b.2.2.setFlags (logicFlags b.2.1))

/-- `ROR` (rule R125): the new C is the old bit 0. -/
def execRor (dd : Spec) (s : State) : Host.Outcome State Fault Refusal :=
  .next (modifyWord1 dd (rorResult s.flags.c) (fun d => shiftFlags (rorResult s.flags.c d) (d.getLsbD 0)) s)

/-- `ROL` (rule R126): the new C is the old bit 15. -/
def execRol (dd : Spec) (s : State) : Host.Outcome State Fault Refusal :=
  .next (modifyWord1 dd (rolResult s.flags.c) (fun d => shiftFlags (rolResult s.flags.c d) (d.getLsbD 15)) s)

/-- `ASR` (rule R127): the new C is the old bit 0; the old C is not used. -/
def execAsr (dd : Spec) (s : State) : Host.Outcome State Fault Refusal :=
  .next (modifyWord1 dd asrResult (fun d => shiftFlags (asrResult d) (d.getLsbD 0)) s)

/-- `ASL` (rule R128): the new C is the old bit 15; the old C is not used. -/
def execAsl (dd : Spec) (s : State) : Host.Outcome State Fault Refusal :=
  .next (modifyWord1 dd aslResult (fun d => shiftFlags (aslResult d) (d.getLsbD 15)) s)

/-- `CLRB` (rule R129): a register keeps its high byte. -/
def execClrb (dd : Spec) (s : State) : Host.Outcome State Fault Refusal :=
  let t := resolve dd .byte s
  .next ((writeTargetByte t.1 0 t.2).setFlags clrFlags)

/-- `INCB` (rule R130). -/
def execIncb (dd : Spec) (s : State) : Host.Outcome State Fault Refusal :=
  .next (modifyByte1 dd incResult (fun d => incFlags d s.flags) s)

/-- `DECB` (rule R131). -/
def execDecb (dd : Spec) (s : State) : Host.Outcome State Fault Refusal :=
  .next (modifyByte1 dd decResult (fun d => decFlags d s.flags) s)

/-- `TSTB` (rule R132): nothing is written but the flags. -/
def execTstb (dd : Spec) (s : State) : Host.Outcome State Fault Refusal :=
  let b := operandByte dd s
  .next (b.2.2.setFlags (logicFlags b.2.1))

end Sys2Proof.Machine
end

