-- ==== Sys2Proof/Machine/Dispatch.lean ====
section
/-! DEFINITION. The dispatcher: one arm per instruction of spec `30_encoding.md` rule R60. -/

namespace Sys2Proof.Machine

/-- What an instruction does, after the fetch of its word (rule R94 step 1). -/
def exec (i : Instr) (s : State) : Host.Outcome State Fault Refusal :=
  match i with
  | .mov a d => Sys2Proof.Machine.execMov a d s
  | .cmp a d => Sys2Proof.Machine.execCmp a d s
  | .bit a d => Sys2Proof.Machine.execBit a d s
  | .bic a d => Sys2Proof.Machine.execBic a d s
  | .bis a d => Sys2Proof.Machine.execBis a d s
  | .add a d => Sys2Proof.Machine.execAdd a d s
  | .sub a d => Sys2Proof.Machine.execSub a d s
  | .movb a d => Sys2Proof.Machine.execMovb a d s
  | .cmpb a d => Sys2Proof.Machine.execCmpb a d s
  | .bitb a d => Sys2Proof.Machine.execBitb a d s
  | .bicb a d => Sys2Proof.Machine.execBicb a d s
  | .bisb a d => Sys2Proof.Machine.execBisb a d s
  | .clr d => Sys2Proof.Machine.execClr d s
  | .inc d => Sys2Proof.Machine.execInc d s
  | .dec d => Sys2Proof.Machine.execDec d s
  | .tst d => Sys2Proof.Machine.execTst d s
  | .ror d => Sys2Proof.Machine.execRor d s
  | .rol d => Sys2Proof.Machine.execRol d s
  | .asr d => Sys2Proof.Machine.execAsr d s
  | .asl d => Sys2Proof.Machine.execAsl d s
  | .clrb d => Sys2Proof.Machine.execClrb d s
  | .incb d => Sys2Proof.Machine.execIncb d s
  | .decb d => Sys2Proof.Machine.execDecb d s
  | .tstb d => Sys2Proof.Machine.execTstb d s
  | .br o => Sys2Proof.Machine.execBr o s
  | .bne o => Sys2Proof.Machine.execBne o s
  | .beq o => Sys2Proof.Machine.execBeq o s
  | .jmp d => Sys2Proof.Machine.execJmp d s
  | .jsr r d => Sys2Proof.Machine.execJsr r d s
  | .rts r => Sys2Proof.Machine.execRts r s
  | .halt => Sys2Proof.Machine.execHalt s
  | .trap v => Sys2Proof.Machine.execTrap v s

end Sys2Proof.Machine
end

