-- ==== Sys2Proof/Machine/Step.lean ====
section
/-! DEFINITION. One step of the machine (spec `00_scope.md` rules R6, R7, `60_exceptions.md` rules R203,
R207), and the placing of an instruction where the next step fetches it. -/

namespace Sys2Proof.Machine

/-- One step: nothing on a halted CPU ("a direct request for a step on a halted CPU changes nothing",
rule R207; log 15); else the fetch, the decoding and the instruction (rule R203). A word that is no
instruction raises the fatal error with the address it was fetched from (rule R200). -/
def step (s : State) : Host.Outcome State Fault Refusal :=
  if s.halted then .next s
  else
    let f := s.fetchInstr
    match decodeWord f.1 with
    | .ok i => exec i f.2
    | .error _ => raiseUnimplemented s.pc f.1

/-- The instruction with the bits `w`, its extension words zero, placed at `pc` in bank 0, and the CPU
not halted, so that the next step fetches and runs it (log 18). -/
def State.withFetchWord (s : State) (nbits w : Nat) : State :=
  { s with halted := false, mem := s.mem.placeCode s.pc (tableBytes nbits w) }

end Sys2Proof.Machine
end

