-- ==== Sys2Proof/Machine/Run.lean ====
section
/-! DEFINITION. The control interface of the block (spec `00_scope.md` rule R8.3): reset, load,
breakpoint and watch set-up, and the run loop (`60_exceptions.md` rules R210 to R214,
`70_reset_and_hazards.md` rules R230 to R232). -/

namespace Sys2Proof.Machine

/-- `reset` (rules R230, R231): the CPU's state goes to its reset values and the file table is cleared;
the host's streams, its answers and the records of what it was sent are host state and stay (log 27). -/
def State.resetCpu (s : State) : State :=
  { State.reset with
    hostIn := s.hostIn, hostOut := s.hostOut, hostAnswers := s.hostAnswers,
    hostCalls := s.hostCalls, watchLog := s.watchLog, freeCount := s.freeCount }

/-- The words of an image written with `WriteCode` from an address on, modulo 2^16 (rule R232). -/
def State.loadWords (s : State) (a : Word) (words : List Word) : State :=
  match words with
  | [] => s
  | w :: t => State.loadWords (s.writeWord .code a w) (a + 2) t

/-- `load(start, words)` (rule R232): the image in bank 0, and execution begins at its start. -/
def State.load (s : State) (start : Word) (words : List Word) : State :=
  (s.loadWords start words).setReg .r7 start

/-- A breakpoint set with one more address (rules R8, R22), strictly rising. -/
def insertBreakpoint (l : List Word) (a : Word) : List Word :=
  match l with
  | [] => [a]
  | b :: t => if a = b then b :: t else if a.ult b then a :: b :: t else b :: insertBreakpoint t a

/-- Set a breakpoint through the control interface (rules R8, R22). -/
def State.addBreakpoint (s : State) (a : Word) : State :=
  { s with breakpoints := insertBreakpoint s.breakpoints a }

/-- Remove a breakpoint through the control interface (rules R8, R22; decision D28). -/
def State.removeBreakpoint (s : State) (a : Word) : State :=
  { s with breakpoints := s.breakpoints.filter (fun b => !(b == a)) }

/-- Write the memory-watch descriptor through the control interface (rule R23). -/
def State.setWatch (s : State) (w : Watch) : State := { s with watch := w }

/-- How `run` ends (rule R210), with the state it leaves; the fatal error leaves none (rule R200), and
`refused` is the model's own. -/
inductive RunResult where
  | halted (s : State)
  | stepsExhausted (s : State)
  | breakpoint (s : State)
  | fatal (pc0 w : Word)
  | refused (r : Refusal)
  deriving DecidableEq, Repr

/-- The state on a breakpoint stop: `break_hit <- 1; break_addr <- r[7]` (rules R210, R212). -/
def State.hitBreakpoint (s : State) : State := { s with breakHit := true, breakAddr := s.pc }

/-- The loop of rule R210 with `n` steps of the budget left: `halted`, then the budget, then the
breakpoint, then the step (rule R211). `skip` leaves the first breakpoint test out. -/
def runLoop (skip : Bool) (n : Nat) (s : State) : RunResult :=
  match n with
  | 0 => if s.halted then .halted s else .stepsExhausted s
  | k + 1 =>
    if s.halted then .halted s
    else if !skip && s.breakpoints.contains s.pc then .breakpoint s.hitBreakpoint
    else
      match step s with
      | .next t => runLoop false k t
      | .fault (.unimplementedInstruction pc0 w) => .fatal pc0 w
      | .refused r => .refused r

/-- `run` under one value of `BREAK_RESUME` (decision D28). -/
def runWith (p : BreakResume) (maxSteps : Nat) (s : State) : RunResult :=
  match p with
  | .callerSteps => runLoop false maxSteps s
  | .runSkipsOnce => runLoop true maxSteps s

/-- `run(max_steps)` (rule R210) of this machine. -/
def run (maxSteps : Nat) (s : State) : RunResult := runWith Config.breakResume maxSteps s

end Sys2Proof.Machine
end

