-- ==== Sys2Proof/Safety.lean ====
section
/-! DEFINITION. The terms claims are made in: the invariant of the state, what an operand spec may
change, and the frame predicates "unchanged outside ...". -/

namespace Sys2Proof

open Machine

/-! ## The operand spec's side effects (`40_operand_addressing.md` section 5) -/

/-- The registers that resolving a spec may change: r[n] in modes 2 to 5, the program counter in modes
6 and 7. -/
def Spec.updates (sp : Spec) : List Reg :=
  match sp.mode with
  | .register | .deferred => []
  | .autoInc | .autoIncDeferred | .autoDec | .autoDecDeferred => [sp.reg]
  | .index | .indexDeferred => [.r7]

/-- How far resolving a spec moves the program counter: over an extension word (rule R51: modes 6 and
7, and modes 2 and 3 with register 7), or back by 2 (modes 4 and 5 with register 7, rule R87). -/
def Spec.pcShift (sp : Spec) : Word :=
  match sp.mode, sp.reg with
  | .index, _ | .indexDeferred, _ => 2
  | .autoInc, .r7 | .autoIncDeferred, .r7 => 2
  | .autoDec, .r7 | .autoDecDeferred, .r7 => -2
  | _, _ => 0

/-- The spec names a target in the code bank: modes 2 and 6 with register 7 (rules R85, R89). -/
def Spec.codeTarget (sp : Spec) : Bool :=
  match sp.mode, sp.reg with
  | .autoInc, .r7 | .index, .r7 => true
  | _, _ => false

namespace Machine

/-! ## Targets -/

/-- The register a target is, if it is one. -/
def Target.registers (t : Target) : List Reg :=
  match t with
  | .reg n => [n]
  | .mem _ _ => []

/-- The bytes a store through a target goes to, as bank and logical address (rules R33, R92). -/
def Target.bytes (t : Target) (z : Size) (s : State) : List (BitVec 2 × Word) :=
  match t, z with
  | .reg _, _ => []
  | .mem v a, .word => [(s.bank v, a), (s.bank v, a + 1)]
  | .mem v a, .byte => [(s.bank v, a)]

/-! ## Frames -/

/-- Every register outside a list is unchanged. -/
def RegsSameOutside (l : List Reg) (s t : State) : Prop := ∀ n, n ∉ l → t.reg n = s.reg n

/-- Every byte of memory outside a list of places is unchanged. -/
def MemSameOutside (l : List (BitVec 2 × Word)) (s t : State) : Prop :=
  ∀ b a, (b, a) ∉ l → t.mem.readByte b a = s.mem.readByte b a

/-- Nothing but registers, flags, memory and the watch log differs. -/
def OnlyCpuChanged (s t : State) : Prop :=
  t = { s with regs := t.regs, flags := t.flags, mem := t.mem, watchLog := t.watchLog }

/-- The places `a`, `a + 1`, ... of a bank, `n` of them, modulo 2^16 (rule R163). -/
def bytesFrom (b : BitVec 2) (a : Word) (n : Nat) : List (BitVec 2 × Word) :=
  (List.range n).map fun k => (b, a + BitVec.ofNat 16 k)

/-- The target of the destination of a double-operand instruction: resolved after the source was
resolved and read (rule R94). -/
def destination2 (z : Size) (ss dd : Spec) (s : State) : Target :=
  match z with
  | .word => (resolve dd .word (operandWord ss s).2.2).1
  | .byte => (resolve dd .byte (operandByte ss s).2.2).1

/-- The state in which the operands of a double-operand instruction are resolved; reading them changes no
register after that. -/
def resolved2 (z : Size) (ss dd : Spec) (s : State) : State :=
  match z with
  | .word => (resolve dd .word (operandWord ss s).2.2).2
  | .byte => (resolve dd .byte (operandByte ss s).2.2).2

/-- The frame of an instruction with operand specs `specs` that stores through the target `d`, whose
bytes are those of the state before it, `r` the state with the operands resolved: every register but the
target has the value resolving left, and the old one where no spec steps it; memory changes only in the
target's bytes, and nothing else but the flags does. -/
def StoreFrame (specs : List Spec) (d : Target) (z : Size) (r s t : State) : Prop :=
  RegsSameOutside d.registers r t ∧ RegsSameOutside (specs.flatMap Spec.updates ++ d.registers) s t ∧
    MemSameOutside (d.bytes z s) s t ∧ OnlyCpuChanged s t

/-- The frame of an instruction with operand specs `specs` that stores nothing. -/
def NoStoreFrame (specs : List Spec) (s t : State) : Prop :=
  RegsSameOutside (specs.flatMap Spec.updates) s t ∧ MemSameOutside [] s t ∧ OnlyCpuChanged s t

/-! ## The invariant -/

/-- The breakpoint set is in its canonical form, strictly rising (rule R22). -/
abbrev BreakpointsRise (l : List Word) : Prop := l.Pairwise (fun a b => a.toNat < b.toNat)

/-- The state is in canonical form: memory, file table and breakpoint set. -/
abbrev State.wf (s : State) : Prop :=
  Memory.wf s.mem ∧ FileTable.wf s.files ∧ BreakpointsRise s.breakpoints

/-- The states a machine can reach by steps from a state. -/
inductive Reaches (s : State) : State → Prop where
  | start : Reaches s s
  | next {t u : State} : Reaches s t → step t = .next u → Reaches s u

/-! ## Instructions by what they write -/

/-- The instructions that write no flag (rule R18): branches, `JMP`, `JSR`, `RTS`, `HALT`, and `TRAP` with
a vector that names no service. -/
def leavesFlags (i : Instr) : Bool :=
  match i with
  | .br _ | .bne _ | .beq _ | .jmp _ | .jsr _ _ | .rts _ | .halt => true
  | .trap v => (serviceOf v).isNone
  | _ => false

/-- The instructions that leave C and clear or compute the others (rule R18). -/
def leavesCarry (i : Instr) : Bool :=
  match i with
  | .mov _ _ | .movb _ _ | .inc _ | .incb _ | .dec _ | .decb _ => true
  | _ => false

/-- The operand specs of an instruction of `41_double_operand.md` or `42_single_operand.md`, in the order
they are resolved; none for the others. -/
def aluSpecs (i : Instr) : List Spec :=
  match i with
  | .mov a d | .cmp a d | .bit a d | .bic a d | .bis a d | .add a d | .sub a d => [a, d]
  | .movb a d | .cmpb a d | .bitb a d | .bicb a d | .bisb a d => [a, d]
  | .clr d | .inc d | .dec d | .tst d | .ror d | .rol d | .asr d | .asl d => [d]
  | .clrb d | .incb d | .decb d | .tstb d => [d]
  | _ => []

/-- The spec such an instruction writes its result to, if it writes one. -/
def writtenSpec (i : Instr) : Option Spec :=
  match i with
  | .mov _ d | .bic _ d | .bis _ d | .add _ d | .sub _ d | .movb _ d | .bicb _ d | .bisb _ d => some d
  | .clr d | .inc d | .dec d | .ror d | .rol d | .asr d | .asl d => some d
  | .clrb d | .incb d | .decb d => some d
  | _ => none

/-- The word is in one of the thirteen illegal ranges of rule R66. -/
def illegalWord (w : Word) : Bool :=
  [(0x0001, 0x000F), (0x0018, 0x003F), (0x0080, 0x00FF), (0x0400, 0x07FF), (0x0A40, 0x0A7F),
   (0x0B00, 0x0BBF), (0x0D00, 0x0FFF), (0x7000, 0x87FF), (0x8900, 0x89FF), (0x8A40, 0x8A7F),
   (0x8B00, 0x8BBF), (0x8C00, 0x8FFF), (0xF000, 0xFFFF)].any
    fun r => decide (r.1 ≤ w.toNat) && decide (w.toNat ≤ r.2)

/-- The word is a `JMP` or `JSR` whose destination is mode 0: octal 000100 .. 000107, 004r0n (rule
R201). -/
def jumpToRegister (w : Word) : Bool := w &&& 0xFFF8 == 0x0040 || w &&& 0xFE38 == 0x0800

/-! ## Text -/

/-- The number a sequence of digits stands for, most significant first. -/
def digitsValue (base : Nat) (ds : List Nat) : Nat := ds.foldl (fun acc d => acc * base + d) 0

/-- The number's digits are not padded: at least one digit, all below the base, and a leading 0 only in
"0". -/
def plainDigits (base : Nat) (ds : List Nat) : Prop :=
  ds ≠ [] ∧ (∀ d ∈ ds, d < base) ∧ (ds.head? = some 0 → ds = [0])

/-- The ASCII characters of digits, the letters in lower case. -/
def digitsText (ds : List Nat) : List Byte :=
  ds.map fun d => if d < 10 then BitVec.ofNat 8 (0x30 + d) else BitVec.ofNat 8 (0x61 + (d - 10))

/-- The ASCII characters of digits, the letters in upper case. -/
def digitsTextUpper (ds : List Nat) : List Byte :=
  ds.map fun d => if d < 10 then BitVec.ofNat 8 (0x30 + d) else BitVec.ofNat 8 (0x41 + (d - 10))

/-- The character is an ASCII letter. -/
def letter (c : Byte) : Prop := (0x41 ≤ c.toNat ∧ c.toNat ≤ 0x5A) ∨ (0x61 ≤ c.toNat ∧ c.toNat ≤ 0x7A)

/-- The character is no hexadecimal digit in either letter case. -/
def noHexDigit (c : Byte) : Prop :=
  c.toNat < 0x30 ∨ (0x39 < c.toNat ∧ c.toNat < 0x41) ∨ (0x46 < c.toNat ∧ c.toNat < 0x61) ∨ 0x66 < c.toNat

/-- The bytes at `a`, `a + 1`, ... of the data bank are those of a list, modulo 2^16. -/
def BytesAt (s : State) (a : Word) (l : List Byte) : Prop :=
  ∀ k (h : k < l.length), s.mem.readByte s.memBank (a + BitVec.ofNat 16 k) = l[k]

/-- The data bank holds a NUL-terminated string at `a` (rule R164). -/
def StringAt (s : State) (a : Word) (l : List Byte) : Prop :=
  l.length < 0x10000 ∧ (∀ b ∈ l, b ≠ 0) ∧ BytesAt s a l ∧
    s.mem.readByte s.memBank (a + BitVec.ofNat 16 l.length) = 0

/-! ## The memory-watch -/

/-- The memory-watch matches an access at the logical address `a` (rule R214): enabled, and the address in
the inclusive range or every access traced. -/
abbrev watchMatches (s : State) (a : Word) : Prop :=
  s.watch.enabled = true ∧
    (s.watch.traceAll = true ∨ s.watch.start.toNat ≤ a.toNat ∧ a.toNat ≤ s.watch.stop.toNat)

/-- The access added its one line to the log if the memory-watch matches it, and no line otherwise (rules
R214, R215). The "current PC" of the line is pc0 or r[7] (log 13). -/
def Logged (s t : State) (d : Direction) (a : Word) (z : Size) (v : Word) : Prop :=
  ∃ pc, (pc = s.pc0 ∨ pc = s.reg .r7) ∧
    t.watchLog = s.watchLog ++ if watchMatches s a then [⟨d, pc, a, z, v⟩] else []

/-! ## Erasing what the program cannot observe -/

/-- The state without the debug state of the block: breakpoints, the sticky fields, the memory-watch and
its log (rules R22, R23, R213, R214). -/
def State.withoutDebug (s : State) : State :=
  { s with
    breakpoints := [], breakHit := false, breakAddr := 0,
    watch := { enabled := false, traceAll := false, start := 0, stop := 0 }, watchLog := [] }

/-- The state with other N and V flags (rule R19). -/
def State.withNV (s : State) (n v : Bool) : State := { s with flags := { s.flags with n := n, v := v } }

end Machine

end Sys2Proof
end

