-- ==== Sys2Proof/Certificates/Slice0/Obligations.lean ====
section
/-! DEFINITION. The statements about the machine, each a proposition to be proved. They hold for every
state, also one no run reaches, unless a premise says otherwise. -/

open Sys2Proof Sys2Proof.Machine

/-! ## Encoding (`30_encoding.md`) -/

/-- Section 3 (R53 to R59): no bit of an instruction word is dropped. -/
def Obligations.DecodeOfEncodeIsTheInstruction : Prop :=
  ∀ (i : Instr) (rest : List Byte), decode (encode i ++ rest) = .ok (i, rest)

/-- Section 4 (R60): a word that is an instruction is that instruction's only word. -/
def Obligations.EncodeOfDecodeIsTheWord : Prop :=
  ∀ (w : Word) (i : Instr), decodeWord w = .ok i → encodeWord i = w

/-- R66: the illegal words are exactly the thirteen ranges, and each is rejected by name. -/
def Obligations.IllegalWordsAreTheThirteenRanges : Prop :=
  ∀ w : Word,
    (illegalWord w = true ↔ decodeWord w = .error (.unimplementedEncoding w)) ∧
    (illegalWord w = false ↔ ∃ i, decodeWord w = .ok i)

/-- `95_test_vectors.md` section 2.1: words written out from the encodings. -/
def Obligations.SpecWordsDecodeToTheirInstructions : Prop :=
  decodeWord 0x1042 = .ok (.mov ⟨.register, .r1⟩ ⟨.register, .r2⟩) ∧
  decodeWord 0xE5C0 = .ok (.sub ⟨.autoInc, .r7⟩ ⟨.register, .r0⟩) ∧
  decodeWord 0x95C0 = .ok (.movb ⟨.autoInc, .r7⟩ ⟨.register, .r0⟩) ∧
  decodeWord 0x0A80 = .ok (.inc ⟨.register, .r0⟩) ∧
  decodeWord 0x8BC0 = .ok (.tstb ⟨.register, .r0⟩) ∧
  decodeWord 0x02FE = .ok (.bne 0xFE) ∧
  decodeWord 0x0977 = .ok (.jsr .r5 ⟨.index, .r7⟩) ∧
  decodeWord 0x0015 = .ok (.rts .r5) ∧
  decodeWord 0x881A = .ok (.trap 26)

/-! ## Memory (`20_memory.md`) -/

/-- R32, R214, R215: `MemRead`, and that the only side effect of a read is its log line: an operand access
that the memory-watch matches gives exactly one, another none, and whether a fetch is logged so is open
(D27). The wrap at 0xFFFF is decision D1 (log 23), what counts as a fetch log 13. -/
def Obligations.ReadsAreLittleEndianAndChangeNothing : Prop :=
  ∀ (s : State) (v : View) (a : Word) (k : Access),
    (s.readByte v a k).1 = s.mem.read ((s.bank v).toNat * 0x10000 + a.toNat) ∧
    (s.readWord v a k).1 =
      (s.mem.read ((s.bank v).toNat * 0x10000 + a.toNat)).setWidth 16 |||
        ((s.mem.read ((s.bank v).toNat * 0x10000 + (a.toNat + 1) % 0x10000)).setWidth 16 <<< 8) ∧
    (s.readByte v a k).2 = { s with watchLog := (s.readByte v a k).2.watchLog } ∧
    (s.readWord v a k).2 = { s with watchLog := (s.readWord v a k).2.watchLog } ∧
    (s.watch.enabled = false → (s.readByte v a k).2 = s ∧ (s.readWord v a k).2 = s) ∧
    (k = .operand →
      Logged s (s.readByte v a k).2 .read a .byte ((s.readByte v a k).1.setWidth 16) ∧
      Logged s (s.readWord v a k).2 .read a .word (s.readWord v a k).1) ∧
    (k = .fetch →
      ((s.readByte v a k).2.watchLog = s.watchLog ∨
        Logged s (s.readByte v a k).2 .read a .byte ((s.readByte v a k).1.setWidth 16)) ∧
      ((s.readWord v a k).2.watchLog = s.watchLog ∨
        Logged s (s.readWord v a k).2 .read a .word (s.readWord v a k).1))

/-- R33: "Byte writes to memory affect exactly one byte"; a word write stores v[7:0] at a and v[15:8] at
`(a + 1) mod 0x10000` of the same bank (decision D1, log 23) and changes nothing else but the watch log:
one line when the memory-watch matches, none otherwise (R214, R215; log 13). -/
def Obligations.WritesChangeExactlyTheirBytes : Prop :=
  ∀ (s : State) (v : View) (a w : Word) (b : Byte) (pa : Nat),
    (s.writeByte v a b).mem.read pa =
      (if pa = (s.bank v).toNat * 0x10000 + a.toNat then b else s.mem.read pa) ∧
    (s.writeWord v a w).mem.read pa =
      (if pa = (s.bank v).toNat * 0x10000 + a.toNat then w.extractLsb' 0 8
       else if pa = (s.bank v).toNat * 0x10000 + (a.toNat + 1) % 0x10000 then w.extractLsb' 8 8
       else s.mem.read pa) ∧
    s.writeByte v a b =
      { s with mem := (s.writeByte v a b).mem, watchLog := (s.writeByte v a b).watchLog } ∧
    s.writeWord v a w =
      { s with mem := (s.writeWord v a w).mem, watchLog := (s.writeWord v a w).watchLog } ∧
    Logged s (s.writeByte v a b) .write a .byte (b.setWidth 16) ∧
    Logged s (s.writeWord v a w) .write a .word w

/-- R43, R47: an instruction writes no bank but bank 0 and the data bank, and while the data bank is
not bank 0 only a code-bank destination (an immediate or PC-relative one) changes bank 0. The clauses
rest on the spec's decisions D1 (a word at 0xFFFF wraps in its bank), D5 (`JSR` pushes in the data bank)
and D7 (the buffers of services 5 and 21 are in the data bank), log 23. -/
def Obligations.InstructionsKeepTheOtherBanks : Prop :=
  ∀ (i : Instr) (s t : State), exec i s = .next t →
    (∀ b a, b ≠ 0 → b ≠ s.memBank → t.mem.readByte b a = s.mem.readByte b a) ∧
    (s.memBank ≠ 0 → (∀ d, writtenSpec i = some d → d.codeTarget = false) →
      ∀ a, t.mem.readByte 0 a = s.mem.readByte 0 a)

/-! ## Reset, the invariant, and the step -/

/-- The reset state meets the invariant. -/
def Obligations.ResetStateIsWellFormed : Prop := State.reset.wf

/-- Every step keeps memory, the file table and the breakpoint set canonical. -/
def Obligations.StepsKeepTheStateWellFormed : Prop :=
  ∀ s t : State, s.wf → step s = .next t → t.wf

/-- R27, R230, R231: the values after reset, of the reset state and of `reset` from any state. r[6] and the
empty file table are the source's; the others are the spec's decision D12 (logs 1, 6). `reset` keeps the
host's streams (R26, R231; log 27). -/
def Obligations.ResetLeavesTheStatedValues : Prop :=
  (∀ s : State, s.resetCpu.reg .r6 = 0xFFFE ∧ s.resetCpu.files = [] ∧
    (∀ n, n ≠ .r6 → s.resetCpu.reg n = 0) ∧ s.resetCpu.flags = ⟨false, false, false, false⟩ ∧
    s.resetCpu.halted = false ∧ s.resetCpu.memBank = 0 ∧ (∀ b a, s.resetCpu.mem.readByte b a = 0) ∧
    s.resetCpu.breakpoints = [] ∧ s.resetCpu.breakHit = false ∧ s.resetCpu.watch.enabled = false ∧
    s.resetCpu.watch.traceAll = false ∧ s.resetCpu.hostIn = s.hostIn ∧ s.resetCpu.hostOut = s.hostOut ∧
    s.resetCpu.hostAnswers = s.hostAnswers ∧ s.resetCpu.hostCalls = s.hostCalls ∧
    s.resetCpu.watchLog = s.watchLog) ∧
  State.reset.reg .r6 = 0xFFFE ∧ State.reset.files = [] ∧
  (∀ n, n ≠ .r6 → State.reset.reg n = 0) ∧
  State.reset.flags = ⟨false, false, false, false⟩ ∧ State.reset.halted = false ∧
  State.reset.memBank = 0 ∧ (∀ b a, State.reset.mem.readByte b a = 0) ∧
  State.reset.breakpoints = [] ∧ State.reset.breakHit = false ∧
  State.reset.watch.enabled = false ∧ State.reset.watch.traceAll = false

/-- R36, R61: when the word at the program counter in bank 0 decodes to `i`, a step of a CPU that is
not halted is `exec i` after the fetch: pc0 is the word's address, r[7] is 2 greater, and a log line may
have been added. -/
def Obligations.StepRunsTheDecodedInstruction : Prop :=
  ∀ (s : State) (i : Instr) (rest : List Byte), s.halted = false →
    decode (s.mem.readByte 0 s.pc :: s.mem.readByte 0 (s.pc + 1) :: rest) = .ok (i, rest) →
    ∃ f : State, step s = exec i f ∧ f.reg .r7 = s.reg .r7 + 2 ∧ (∀ n, n ≠ .r7 → f.reg n = s.reg n) ∧
      f = { s with pc0 := s.pc, regs := f.regs, watchLog := f.watchLog } ∧
      (s.watch.enabled = false → f.watchLog = s.watchLog)

/-- R200, R201 with decision D4: a step faults exactly when it is not halted and the word at the
program counter is illegal or a `JMP` or `JSR` to a register; the fault names that address and word. -/
def Obligations.StepFaultsExactlyOnUnimplementedWords : Prop :=
  ∀ (s : State) (f : Fault),
    step s = .fault f ↔
      s.halted = false ∧ f = .unimplementedInstruction s.pc (s.mem.readWord 0 s.pc) ∧
        (illegalWord (s.mem.readWord 0 s.pc) = true ∨ jumpToRegister (s.mem.readWord 0 s.pc) = true)

/-- R164, R201: the only refusals are of the string services 3, 8 and 20, on a string at r[0] with no
NUL in the data bank (D26, log 17; the data bank is D7, log 23), and there they do refuse. That `TRAP` 26 with
r[0] > 3 is not refused, where R181 and D9 say that a model refuses such a call, is the model's choice of log
10, and that `JSR R6, dst` is not, where D6 allows it, that of log 9. -/
def Obligations.OnlyUnterminatedStringsAreRefused : Prop :=
  ∀ (i : Instr) (s : State) (r : Refusal),
    exec i s = .refused r ↔
      r = .unterminatedString (s.reg .r0) ∧ (i = .trap 3 ∨ i = .trap 8 ∨ i = .trap 20) ∧
        ∀ a : Word, s.mem.readByte s.memBank a ≠ 0

/-- R153: only the all-zero word is `HALT`; it sets `halted` and nothing else (R207, D11): after it every
step changes nothing. -/
def Obligations.HaltStopsTheMachine : Prop :=
  (∀ w, decodeWord w = .ok .halt ↔ w = 0) ∧
  ∀ s : State, ∃ t, exec .halt s = .next t ∧ t = { s with halted := true } ∧
    ∀ u, Reaches t u → u = t

/-! ## Operands (`40_operand_addressing.md`) -/

/-- R81, R83 to R90: the target of each mode and the registers it leaves, for n = 7 too; resolving changes
nothing else. -/
def Obligations.EachModeGivesItsTarget : Prop :=
  ∀ (n : Reg) (z : Size) (s : State),
    let dl : Word := if z = .byte ∧ n ≠ .r6 ∧ n ≠ .r7 then 1 else 2
    let own : BitVec 2 := if n = .r7 then 0 else s.memBank
    let ext := s.mem.readWord 0 (s.reg .r7)
    let base := if n = .r7 then s.reg .r7 + 2 else s.reg n
    resolve ⟨.register, n⟩ z s = (.reg n, s) ∧
    resolve ⟨.deferred, n⟩ z s = (.mem .data (s.reg n), s) ∧
    resolve ⟨.autoInc, n⟩ z s =
      (.mem (if n = .r7 then .code else .data) (s.reg n), s.setReg n (s.reg n + dl)) ∧
    ((resolve ⟨.autoIncDeferred, n⟩ z s).1 = .mem .data (s.mem.readWord own (s.reg n)) ∧
      (resolve ⟨.autoIncDeferred, n⟩ z s).2.regs = s.regs.set n (s.reg n + dl)) ∧
    resolve ⟨.autoDec, n⟩ z s = (.mem .data (s.reg n - dl), s.setReg n (s.reg n - dl)) ∧
    ((resolve ⟨.autoDecDeferred, n⟩ z s).1 = .mem .data (s.mem.readWord s.memBank (s.reg n - dl)) ∧
      (resolve ⟨.autoDecDeferred, n⟩ z s).2.regs = s.regs.set n (s.reg n - dl)) ∧
    ((resolve ⟨.index, n⟩ z s).1 = .mem (if n = .r7 then .code else .data) (base + ext) ∧
      (resolve ⟨.index, n⟩ z s).2.regs = s.regs.set .r7 (s.reg .r7 + 2)) ∧
    ((resolve ⟨.indexDeferred, n⟩ z s).1 = .mem .data (s.mem.readWord own (base + ext)) ∧
      (resolve ⟨.indexDeferred, n⟩ z s).2.regs = s.regs.set .r7 (s.reg .r7 + 2)) ∧
    ∀ m, (resolve ⟨m, n⟩ z s).2 =
      { s with regs := (resolve ⟨m, n⟩ z s).2.regs, watchLog := (resolve ⟨m, n⟩ z s).2.watchLog }

/-- R51, R95, R100, R120: an instruction of files 41 and 42 whose destination is not r[7] itself leaves
the program counter after the words it consumed (modes 4 and 5 on r[7] move it back, R87). -/
def Obligations.ProgramCounterEndsAfterTheWordsConsumed : Prop :=
  ∀ (i : Instr) (s : State), aluSpecs i ≠ [] → writtenSpec i ≠ some ⟨.register, .r7⟩ →
    ∃ t, exec i s = .next t ∧
      t.reg .r7 = s.reg .r7 + ((aluSpecs i).map Spec.pcShift).foldl (· + ·) 0

/-- R94's table of one register used twice, for r[0] to r[5]. -/
def Obligations.OneRegisterUsedTwice : Prop :=
  ∀ (n : Reg) (s : State), n ≠ .r6 → n ≠ .r7 →
    let r := s.reg n
    (∃ t, exec (.mov ⟨.register, n⟩ ⟨.autoInc, n⟩) s = .next t ∧
      t.mem.readWord s.memBank r = r ∧ t.reg n = r + 2) ∧
    (∃ t, exec (.mov ⟨.register, n⟩ ⟨.autoDec, n⟩) s = .next t ∧
      t.mem.readWord s.memBank (r - 2) = r ∧ t.reg n = r - 2) ∧
    (∃ t, exec (.mov ⟨.autoInc, n⟩ ⟨.register, n⟩) s = .next t ∧
      t.reg n = s.mem.readWord s.memBank r) ∧
    (∃ t, exec (.add ⟨.autoInc, n⟩ ⟨.register, n⟩) s = .next t ∧
      t.reg n = s.mem.readWord s.memBank r + (r + 2)) ∧
    (∃ t, exec (.mov ⟨.autoInc, n⟩ ⟨.autoInc, n⟩) s = .next t ∧
      t.mem.readWord s.memBank (r + 2) = s.mem.readWord s.memBank r ∧ t.reg n = r + 4) ∧
    (∃ t, exec (.add ⟨.register, n⟩ ⟨.register, n⟩) s = .next t ∧ t.reg n = r + r)

/-! ## Double-operand instructions (`41_double_operand.md`)

In each, `a` is the source as resolved and read, `b` the destination as resolved and read after it, and
reading the destination's target in the next state gives the result. -/

/-- R101: `MOV`. -/
def Obligations.MovMovesTheSourceWord : Prop :=
  ∀ (ss dd : Spec) (st : State),
    let s := (operandWord ss st).2.1
    decodeWord (0x1000 ||| (ss.bits <<< 6) ||| dd.bits) = .ok (.mov ss dd) ∧
    ∃ t, exec (.mov ss dd) st = .next t ∧
      (readTargetWord (destination2 .word ss dd st) t).1 = s ∧
      t.flags = ⟨s.getLsbD 15, s == 0, false, st.flags.c⟩

/-- R102, R107: `CMP` and `SUB` compute destination minus source; `CMP` writes nothing but the flags. -/
def Obligations.CompareAndSubtractAreDestinationMinusSource : Prop :=
  ∀ (ss dd : Spec) (st : State),
    let a := operandWord ss st
    let b := operandWord dd a.2.2
    let s := a.2.1
    let d := b.2.1
    let fl : Flags := ⟨(d - s).getLsbD 15, d - s == 0, ((d ^^^ s) &&& (d ^^^ (d - s))).getLsbD 15,
      decide (d.toNat < s.toNat)⟩
    decodeWord (0x2000 ||| (ss.bits <<< 6) ||| dd.bits) = .ok (.cmp ss dd) ∧
    decodeWord (0xE000 ||| (ss.bits <<< 6) ||| dd.bits) = .ok (.sub ss dd) ∧
    (∃ t, exec (.cmp ss dd) st = .next t ∧ t.flags = fl ∧ t.regs = b.2.2.regs ∧ t.mem = st.mem) ∧
    ∃ t, exec (.sub ss dd) st = .next t ∧ t.flags = fl ∧ (readTargetWord b.1 t).1 = d - s

/-- R103, R104, R105: `BIT`, `BIC`, `BIS`; V and C are cleared. -/
def Obligations.WordLogicClearsOverflowAndCarry : Prop :=
  ∀ (ss dd : Spec) (st : State),
    let a := operandWord ss st
    let b := operandWord dd a.2.2
    let s := a.2.1
    let d := b.2.1
    decodeWord (0x3000 ||| (ss.bits <<< 6) ||| dd.bits) = .ok (.bit ss dd) ∧
    decodeWord (0x4000 ||| (ss.bits <<< 6) ||| dd.bits) = .ok (.bic ss dd) ∧
    decodeWord (0x5000 ||| (ss.bits <<< 6) ||| dd.bits) = .ok (.bis ss dd) ∧
    (∃ t, exec (.bit ss dd) st = .next t ∧ t.regs = b.2.2.regs ∧ t.mem = st.mem ∧
      t.flags = ⟨(s &&& d).getLsbD 15, s &&& d == 0, false, false⟩) ∧
    (∃ t, exec (.bic ss dd) st = .next t ∧ (readTargetWord b.1 t).1 = d &&& ~~~s ∧
      t.flags = ⟨(d &&& ~~~s).getLsbD 15, d &&& ~~~s == 0, false, false⟩) ∧
    ∃ t, exec (.bis ss dd) st = .next t ∧ (readTargetWord b.1 t).1 = d ||| s ∧
      t.flags = ⟨(d ||| s).getLsbD 15, d ||| s == 0, false, false⟩

/-- R106: `ADD`; the sum is taken in the integers and reduced modulo 2^16. -/
def Obligations.AddAddsAndReportsCarryAndOverflow : Prop :=
  ∀ (ss dd : Spec) (st : State),
    let a := operandWord ss st
    let b := operandWord dd a.2.2
    let s := a.2.1
    let d := b.2.1
    decodeWord (0x6000 ||| (ss.bits <<< 6) ||| dd.bits) = .ok (.add ss dd) ∧
    ∃ t, exec (.add ss dd) st = .next t ∧
      (readTargetWord b.1 t).1.toNat = (s.toNat + d.toNat) % 0x10000 ∧
      (t.flags.n = true ↔ 0x8000 ≤ (s.toNat + d.toNat) % 0x10000) ∧
      (t.flags.z = true ↔ (s.toNat + d.toNat) % 0x10000 = 0) ∧
      (t.flags.v = true ↔ s.toInt + d.toInt < -32768 ∨ 32767 < s.toInt + d.toInt) ∧
      (t.flags.c = true ↔ 0xFFFF < s.toNat + d.toNat)

/-- R108: `MOVB` sign-extends into a register and stores one byte in memory; decision D2 for a register
source. -/
def Obligations.MovbSignExtendsIntoARegister : Prop :=
  ∀ (ss dd : Spec) (st : State),
    let s := (operandByte ss st).2.1
    decodeWord (0x9000 ||| (ss.bits <<< 6) ||| dd.bits) = .ok (.movb ss dd) ∧
    ∃ t, exec (.movb ss dd) st = .next t ∧
      t.flags = ⟨s.getLsbD 7, s == 0, false, st.flags.c⟩ ∧
      match destination2 .byte ss dd st with
      | .reg n => t.reg n = if s.getLsbD 7 then 0xFF00 ||| s.setWidth 16 else s.setWidth 16
      | .mem v a => t.mem.readByte (st.bank v) a = s

/-- R109 to R112: `CMPB`, `BITB`, `BICB`, `BISB`; a register destination keeps its high byte. A register's
byte is its low one by decision D2 (log 23). -/
def Obligations.ByteCompareAndLogicUseOneByte : Prop :=
  ∀ (ss dd : Spec) (st : State),
    let a := operandByte ss st
    let b := operandByte dd a.2.2
    let s := a.2.1
    let d := b.2.1
    decodeWord (0xA000 ||| (ss.bits <<< 6) ||| dd.bits) = .ok (.cmpb ss dd) ∧
    decodeWord (0xB000 ||| (ss.bits <<< 6) ||| dd.bits) = .ok (.bitb ss dd) ∧
    decodeWord (0xC000 ||| (ss.bits <<< 6) ||| dd.bits) = .ok (.bicb ss dd) ∧
    decodeWord (0xD000 ||| (ss.bits <<< 6) ||| dd.bits) = .ok (.bisb ss dd) ∧
    (∀ n, b.1 = .reg n → d = (b.2.2.reg n).extractLsb' 0 8) ∧
    (∃ t, exec (.cmpb ss dd) st = .next t ∧ t.regs = b.2.2.regs ∧ t.mem = st.mem ∧
      t.flags = ⟨(d - s).getLsbD 7, d - s == 0, ((d ^^^ s) &&& (d ^^^ (d - s))).getLsbD 7,
        decide (d.toNat < s.toNat)⟩) ∧
    (∃ t, exec (.bitb ss dd) st = .next t ∧ t.regs = b.2.2.regs ∧ t.mem = st.mem ∧
      t.flags = ⟨(s &&& d).getLsbD 7, s &&& d == 0, false, false⟩) ∧
    (∃ t, exec (.bicb ss dd) st = .next t ∧ (readTargetByte b.1 t).1 = d &&& ~~~s ∧
      t.flags = ⟨(d &&& ~~~s).getLsbD 7, d &&& ~~~s == 0, false, false⟩ ∧
      ∀ n, b.1 = .reg n → t.reg n &&& 0xFF00 = b.2.2.reg n &&& 0xFF00) ∧
    ∃ t, exec (.bisb ss dd) st = .next t ∧ (readTargetByte b.1 t).1 = d ||| s ∧
      t.flags = ⟨(d ||| s).getLsbD 7, d ||| s == 0, false, false⟩ ∧
      ∀ n, b.1 = .reg n → t.reg n &&& 0xFF00 = b.2.2.reg n &&& 0xFF00

/-- R113: what V and C of the arithmetic mean, at both widths: C is the carry or the borrow, V says the
integer result does not fit. -/
def Obligations.OverflowMeansTheIntegerResultDoesNotFit : Prop :=
  (∀ s d : Word,
    ((subFlags s d).v = true ↔ d.toInt - s.toInt < -32768 ∨ 32767 < d.toInt - s.toInt) ∧
    ((subFlags s d).c = true ↔ d.toNat < s.toNat) ∧
    ((subResult s d).toNat : Int) = (d.toNat - s.toNat : Int) % 65536) ∧
  (∀ s d : Byte,
    ((subFlags s d).v = true ↔ d.toInt - s.toInt < -128 ∨ 127 < d.toInt - s.toInt) ∧
    ((subFlags s d).c = true ↔ d.toNat < s.toNat) ∧
    ((subResult s d).toNat : Int) = (d.toNat - s.toNat : Int) % 256) ∧
  (∀ (d : Word) (f : Flags),
    ((incFlags d f).v = true ↔ 32767 < d.toInt + 1) ∧ ((decFlags d f).v = true ↔ d.toInt - 1 < -32768) ∧
    (incFlags d f).c = f.c ∧ (decFlags d f).c = f.c) ∧
  ∀ (d : Byte) (f : Flags),
    ((incFlags d f).v = true ↔ 127 < d.toInt + 1) ∧ ((decFlags d f).v = true ↔ d.toInt - 1 < -128) ∧
    (incFlags d f).c = f.c ∧ (decFlags d f).c = f.c

/-- The frame of the double-operand instructions that store (R18, R92, R100): every register but the
destination is as resolving the specs left it, and as before where no spec steps it; memory changes only
in the destination's bytes. -/
def Obligations.DoubleOperandStoresAreFramed : Prop :=
  ∀ (ss dd : Spec) (s : State),
    (∀ i ∈ [Instr.mov ss dd, .bic ss dd, .bis ss dd, .add ss dd, .sub ss dd],
      ∃ t, exec i s = .next t ∧ StoreFrame [ss, dd] (destination2 .word ss dd s) .word (resolved2 .word ss dd s) s t) ∧
    ∀ i ∈ [Instr.movb ss dd, .bicb ss dd, .bisb ss dd],
      ∃ t, exec i s = .next t ∧ StoreFrame [ss, dd] (destination2 .byte ss dd s) .byte (resolved2 .byte ss dd s) s t

/-! ## Single-operand instructions (`42_single_operand.md`) -/

/-- R121, R129: `CLR` and `CLRB`; `CLRB` on a register keeps the high byte. -/
def Obligations.ClearWritesZero : Prop :=
  ∀ (dd : Spec) (s : State),
    decodeWord (0x0A00 ||| dd.bits) = .ok (.clr dd) ∧ decodeWord (0x8A00 ||| dd.bits) = .ok (.clrb dd) ∧
    (∃ t, exec (.clr dd) s = .next t ∧ (readTargetWord (resolve dd .word s).1 t).1 = 0 ∧
      t.flags = ⟨false, true, false, false⟩) ∧
    ∃ t, exec (.clrb dd) s = .next t ∧ (readTargetByte (resolve dd .byte s).1 t).1 = 0 ∧
      t.flags = ⟨false, true, false, false⟩ ∧ (dd.mode = .register → t.reg dd.reg = s.reg dd.reg &&& 0xFF00)

/-- R122: `INC`; C is unchanged. -/
def Obligations.IncrementLeavesCarry : Prop :=
  ∀ (dd : Spec) (s : State),
    let b := operandWord dd s
    decodeWord (0x0A80 ||| dd.bits) = .ok (.inc dd) ∧
    ∃ t, exec (.inc dd) s = .next t ∧
      (readTargetWord b.1 t).1.toNat = (b.2.1.toNat + 1) % 0x10000 ∧
      t.flags = ⟨decide (0x7FFF ≤ b.2.1.toNat ∧ b.2.1.toNat < 0xFFFF), b.2.1 == 0xFFFF, b.2.1 == 0x7FFF,
        s.flags.c⟩

/-- R123: `DEC`. That C is unchanged is the spec's decision D3 (log 23). -/
def Obligations.DecrementLeavesCarry : Prop :=
  ∀ (dd : Spec) (s : State),
    let b := operandWord dd s
    decodeWord (0x0AC0 ||| dd.bits) = .ok (.dec dd) ∧
    ∃ t, exec (.dec dd) s = .next t ∧
      (readTargetWord b.1 t).1.toNat = (b.2.1.toNat + 0xFFFF) % 0x10000 ∧
      t.flags = ⟨decide (b.2.1.toNat = 0 ∨ 0x8000 < b.2.1.toNat), b.2.1 == 1, b.2.1 == 0x8000,
        s.flags.c⟩

/-- R124: `TST` writes nothing but the flags, and the side effects of resolution still happen. -/
def Obligations.TestWritesOnlyFlags : Prop :=
  ∀ (dd : Spec) (s : State),
    let b := operandWord dd s
    decodeWord (0x0BC0 ||| dd.bits) = .ok (.tst dd) ∧
    ∃ t, exec (.tst dd) s = .next t ∧ t.regs = b.2.2.regs ∧ t.mem = s.mem ∧
      t.flags = ⟨decide (0x8000 ≤ b.2.1.toNat), b.2.1 == 0, false, false⟩

/-- R130 to R132: `INCB`, `DECB`, `TSTB`; a register keeps its high byte. The byte read of a register is
decision D2, the C of `DECB` decision D3 (log 23). -/
def Obligations.ByteCountsAndTestKeepTheHighByte : Prop :=
  ∀ (dd : Spec) (s : State),
    let b := operandByte dd s
    decodeWord (0x8A80 ||| dd.bits) = .ok (.incb dd) ∧
    decodeWord (0x8AC0 ||| dd.bits) = .ok (.decb dd) ∧
    decodeWord (0x8BC0 ||| dd.bits) = .ok (.tstb dd) ∧
    (∀ n, b.1 = .reg n → b.2.1 = (b.2.2.reg n).extractLsb' 0 8) ∧
    (∃ t, exec (.incb dd) s = .next t ∧
      (readTargetByte b.1 t).1.toNat = (b.2.1.toNat + 1) % 0x100 ∧
      (∀ n, b.1 = .reg n → t.reg n &&& 0xFF00 = b.2.2.reg n &&& 0xFF00) ∧
      t.flags = ⟨decide (0x7F ≤ b.2.1.toNat ∧ b.2.1.toNat < 0xFF), b.2.1 == 0xFF, b.2.1 == 0x7F,
        s.flags.c⟩) ∧
    (∃ t, exec (.decb dd) s = .next t ∧
      (readTargetByte b.1 t).1.toNat = (b.2.1.toNat + 0xFF) % 0x100 ∧
      (∀ n, b.1 = .reg n → t.reg n &&& 0xFF00 = b.2.2.reg n &&& 0xFF00) ∧
      t.flags = ⟨decide (b.2.1.toNat = 0 ∨ 0x80 < b.2.1.toNat), b.2.1 == 1, b.2.1 == 0x80, s.flags.c⟩) ∧
    ∃ t, exec (.tstb dd) s = .next t ∧ t.regs = b.2.2.regs ∧ t.mem = s.mem ∧
      t.flags = ⟨decide (0x80 ≤ b.2.1.toNat), b.2.1 == 0, false, false⟩

/-- R125, R126: `ROR` and `ROL` rotate the 17-bit quantity C:d by one place; V is the new N xor the new
C. -/
def Obligations.RotatesMoveTheCarryThrough : Prop :=
  ∀ (dd : Spec) (s : State),
    let b := operandWord dd s
    let d := b.2.1
    let c := s.flags.c
    decodeWord (0x0C00 ||| dd.bits) = .ok (.ror dd) ∧ decodeWord (0x0C40 ||| dd.bits) = .ok (.rol dd) ∧
    (∃ t, exec (.ror dd) s = .next t ∧
      (let r := (readTargetWord b.1 t).1
       (∀ k, k < 15 → r.getLsbD k = d.getLsbD (k + 1)) ∧ r.getLsbD 15 = c ∧
       t.flags = ⟨c, r == 0, c ^^ d.getLsbD 0, d.getLsbD 0⟩)) ∧
    ∃ t, exec (.rol dd) s = .next t ∧
      (let r := (readTargetWord b.1 t).1
       (∀ k, k < 15 → r.getLsbD (k + 1) = d.getLsbD k) ∧ r.getLsbD 0 = c ∧
       t.flags = ⟨d.getLsbD 14, r == 0, d.getLsbD 14 ^^ d.getLsbD 15, d.getLsbD 15⟩)

/-- R127, R128: `ASR` halves the signed number rounding down, `ASL` doubles modulo 2^16 and sets V
exactly when doubling overflows, which is the spec's own inference (R128 marks it derived). -/
def Obligations.ShiftsHalveAndDouble : Prop :=
  ∀ (dd : Spec) (s : State),
    let b := operandWord dd s
    let d := b.2.1
    decodeWord (0x0C80 ||| dd.bits) = .ok (.asr dd) ∧ decodeWord (0x0CC0 ||| dd.bits) = .ok (.asl dd) ∧
    (∃ t, exec (.asr dd) s = .next t ∧
      (readTargetWord b.1 t).1.toInt = d.toInt / 2 ∧ t.flags.c = d.getLsbD 0 ∧
      t.flags.n = d.getLsbD 15 ∧ t.flags.z = decide (d.toNat < 2) ∧
      t.flags.v = (t.flags.n ^^ t.flags.c)) ∧
    ∃ t, exec (.asl dd) s = .next t ∧
      (readTargetWord b.1 t).1.toNat = 2 * d.toNat % 0x10000 ∧ t.flags.c = d.getLsbD 15 ∧
      t.flags.n = d.getLsbD 14 ∧ t.flags.z = decide (2 * d.toNat % 0x10000 = 0) ∧
      t.flags.v = (t.flags.n ^^ t.flags.c) ∧
      (t.flags.v = true ↔ 2 * d.toInt < -32768 ∨ 32767 < 2 * d.toInt)

/-- The frame of the single-operand instructions that store (R92, R120): as for two operands. -/
def Obligations.SingleOperandStoresAreFramed : Prop :=
  ∀ (dd : Spec) (s : State),
    (∀ i ∈ [Instr.clr dd, .inc dd, .dec dd, .ror dd, .rol dd, .asr dd, .asl dd],
      ∃ t, exec i s = .next t ∧ StoreFrame [dd] (resolve dd .word s).1 .word (resolve dd .word s).2 s t) ∧
    ∀ i ∈ [Instr.clrb dd, .incb dd, .decb dd],
      ∃ t, exec i s = .next t ∧ StoreFrame [dd] (resolve dd .byte s).1 .byte (resolve dd .byte s).2 s t

/-- The frame of the instructions that only compare or test (R102, R103, R109, R110, R124, R132):
nothing is stored. -/
def Obligations.TestsStoreNothing : Prop :=
  ∀ (ss dd : Spec) (s : State),
    (∀ i ∈ [Instr.cmp ss dd, .bit ss dd, .cmpb ss dd, .bitb ss dd],
      ∃ t, exec i s = .next t ∧ NoStoreFrame [ss, dd] s t) ∧
    ∀ i ∈ [Instr.tst dd, .tstb dd], ∃ t, exec i s = .next t ∧ NoStoreFrame [dd] s t

/-! ## Branches and control (`43_branch.md`, `44_control.md`) -/

/-- R140 to R143: the target is `(pc + 2 * signed8(off)) mod 2^16`, and a branch changes r[7] and nothing
else. -/
def Obligations.BranchesGoTwiceTheSignedOffset : Prop :=
  ∀ (off : BitVec 8) (s : State),
    decodeWord (0x0100 ||| off.setWidth 16) = .ok (.br off) ∧
    decodeWord (0x0200 ||| off.setWidth 16) = .ok (.bne off) ∧
    decodeWord (0x0300 ||| off.setWidth 16) = .ok (.beq off) ∧
    ∃ a : Word, (a.toNat : Int) = ((s.reg .r7).toNat + 2 * off.toInt) % 65536 ∧
      exec (.br off) s = .next (s.setReg .r7 a) ∧
      exec (.bne off) s = .next (if s.flags.z = false then s.setReg .r7 a else s) ∧
      exec (.beq off) s = .next (if s.flags.z = true then s.setReg .r7 a else s)

/-- R150: `JMP` resolves its destination like a word operand (decision D25) and goes to its address without
accessing it (decision D22): resolving, and then r[7], is all that changes, the watch log included. To a
register it raises the fatal error (decision D4). -/
def Obligations.JmpGoesToTheAddress : Prop :=
  ∀ (dd : Spec) (s : State),
    decodeWord (0x0040 ||| dd.bits) = .ok (.jmp dd) ∧
    (dd.mode = .register →
      exec (.jmp dd) s = .fault (.unimplementedInstruction s.pc0 (0x0040 ||| dd.bits))) ∧
    (dd.mode ≠ .register → ∃ v a t, (resolve dd .word s).1 = .mem v a ∧ exec (.jmp dd) s = .next t ∧
      t = (resolve dd .word s).2.setReg .r7 a ∧ t.reg .r7 = a ∧ RegsSameOutside [.r7] (resolve dd .word s).2 t ∧
      RegsSameOutside (.r7 :: dd.updates) s t ∧ MemSameOutside [] s t ∧ OnlyCpuChanged s t ∧
      t.flags = s.flags)

/-- R151: `JSR` resolves first, pushes the link register's old value in the data bank, leaves the return
address in the link register and goes to the destination. For R = 6 the pushed value is the stack pointer
before or after the decrement (D6, log 9); the data bank is D5. -/
def Obligations.JsrPushesLinksAndJumps : Prop :=
  ∀ (link : Reg) (dd : Spec) (s : State),
    decodeWord (0x0800 ||| (link.bits.setWidth 16 <<< 6) ||| dd.bits) = .ok (.jsr link dd) ∧
    (dd.mode = .register → exec (.jsr link dd) s =
      .fault (.unimplementedInstruction s.pc0 (0x0800 ||| (link.bits.setWidth 16 <<< 6) ||| dd.bits))) ∧
    (dd.mode ≠ .register → ∃ v a t, (resolve dd .word s).1 = .mem v a ∧ exec (.jsr link dd) s = .next t ∧
      (let r := (resolve dd .word s).2
       let top := r.reg .r6 - 2
       t.reg .r7 = a ∧ (link ≠ .r7 → t.reg link = r.reg .r7) ∧ (link ≠ .r6 → t.reg .r6 = top) ∧
       RegsSameOutside [link, .r6, .r7] r t ∧
       (link ≠ .r6 → t.mem.readWord s.memBank top = r.reg link) ∧
       (link = .r6 → t.mem.readWord s.memBank top = r.reg .r6 ∨ t.mem.readWord s.memBank top = top) ∧
       MemSameOutside [(s.memBank, top), (s.memBank, top + 1)] s t ∧
       OnlyCpuChanged s t ∧ t.flags = s.flags))

/-- R152: `RTS`, the four assignments in order, for R = 6 and R = 7 too; the data bank is D5. -/
def Obligations.RtsPopsAndReturns : Prop :=
  ∀ (link : Reg) (s : State),
    decodeWord (0x0010 ||| link.bits.setWidth 16) = .ok (.rts link) ∧
    ∃ t, exec (.rts link) s = .next t ∧
      (let popped := s.mem.readWord s.memBank (s.reg .r6)
       t.reg .r7 = s.reg link ∧
       (link = .r6 → t.reg .r6 = popped + 2) ∧ (link ≠ .r6 → t.reg .r6 = s.reg .r6 + 2) ∧
       (link ≠ .r6 → link ≠ .r7 → t.reg link = popped) ∧
       RegsSameOutside [link, .r6, .r7] s t ∧ MemSameOutside [] s t ∧ OnlyCpuChanged s t ∧
       t.flags = s.flags)

/-- R155: "`JSR` followed by matching `RTS` with the same link register restores PC to the instruction
after the `JSR` and leaves SP unchanged", and the link register too, as they were when the destination
had been resolved. "This holds when the subroutine leaves r[6], the link register and the stack word as
it found them", and `mem_bank`; what else it did is open. -/
def Obligations.RtsUndoesJsr : Prop :=
  ∀ (link : Reg) (dd : Spec) (s : State), link ≠ .r6 → link ≠ .r7 → dd.mode ≠ .register →
    ∃ t, exec (.jsr link dd) s = .next t ∧ t.reg link = s.reg .r7 + dd.pcShift ∧
      ∀ u : State, u.reg .r6 = t.reg .r6 → u.reg link = t.reg link → u.memBank = t.memBank →
        u.mem.readWord u.memBank (u.reg .r6) = t.mem.readWord t.memBank (t.reg .r6) →
        ∃ v, exec (.rts link) u = .next v ∧ v.reg .r7 = s.reg .r7 + dd.pcShift ∧
          v.reg .r6 = (resolve dd .word s).2.reg .r6 ∧ v.reg link = (resolve dd .word s).2.reg link

/-! ## Traps (`45_trap_services.md`) -/

/-- R154, R160, R162: seventeen vectors name services; the other 239 change nothing, flags included
(decision D19). -/
def Obligations.UndefinedVectorsDoNothing : Prop :=
  ∀ (v : BitVec 8) (s : State),
    decodeWord (0x8800 ||| v.setWidth 16) = .ok (.trap v) ∧
    ((serviceOf v).isSome = true ↔ (1 ≤ v.toNat ∧ v.toNat ≤ 10) ∨ (20 ≤ v.toNat ∧ v.toNat ≤ 26)) ∧
    (v.toNat = 0 ∨ (11 ≤ v.toNat ∧ v.toNat ≤ 19) ∨ 27 ≤ v.toNat → exec (.trap v) s = .next s)

/-- R160, R161: a `TRAP` completes with a next state, for services 3, 8 and 20 when the data bank holds a
zero byte; a defined service clears N, V and C, writes no register but r[0], no memory but the buffers of
services 5 and 21 (in the data bank, decision D7), `mem_bank` only as service 26, the file table and the
host's files only as services 20 to 25, and the host's streams only as its rule says. What r[0] and Z
become, and which log lines and free values there are, is left to the services' own statements. Of these,
the model's own: service 26 completes for r[0] > 3 too, where R181 and D9 say that a model refuses such a call
(log 10), service 5 with max = 0 changes no byte of memory, where D23 leaves it open (log 11), and service 21
stores no more than max bytes of the host's answer (log 26). -/
def Obligations.DefinedServicesCompleteInTheirFrame : Prop :=
  ∀ (v : BitVec 8) (s : State), (serviceOf v).isSome = true →
    (v = 3 ∨ v = 8 ∨ v = 20 → ∃ a, s.mem.readByte s.memBank a = 0) →
    ∃ t, exec (.trap v) s = .next t ∧
      t.flags.n = false ∧ t.flags.v = false ∧ t.flags.c = false ∧
      RegsSameOutside [.r0] s t ∧ (v ≠ 5 → v ≠ 21 → t.mem = s.mem) ∧
      (v = 5 → MemSameOutside (bytesFrom s.memBank (s.reg .r0) (s.reg .r1).toNat) s t) ∧
      (v = 21 → MemSameOutside (bytesFrom s.memBank (s.reg .r1) (s.reg .r2).toNat) s t) ∧
      (v ≠ 26 → t.memBank = s.memBank) ∧ (v.toNat ∉ [2, 5, 9, 10] → t.hostIn = s.hostIn) ∧
      (v.toNat ∉ [1, 3, 4, 6, 7, 8] → t.hostOut = s.hostOut) ∧
      (v.toNat ∉ [20, 21, 22, 23, 24, 25] →
        t.hostCalls = s.hostCalls ∧ t.files = s.files ∧ t.hostAnswers = s.hostAnswers) ∧
      (v ≠ 20 → v ≠ 23 → ∀ h, (t.files.file h).isSome = (s.files.file h).isSome) ∧
      t.halted = s.halted ∧ t.pc0 = s.pc0 ∧ t.watch = s.watch ∧ t.breakpoints = s.breakpoints ∧
      t.breakHit = s.breakHit ∧ t.breakAddr = s.breakAddr

/-- R165, R167, R172: what services 1, 3 and 8 send to the host, and r[0] is unchanged. The single byte
0x0A of println is decision D18, the data bank D7. -/
def Obligations.CharacterOutputReachesTheHost : Prop :=
  ∀ (s : State) (l : List Byte),
    (∃ t, exec (.trap 1) s = .next t ∧ t.hostOut = s.hostOut ++ [(s.reg .r0).extractLsb' 0 8] ∧
      t.reg .r0 = s.reg .r0) ∧
    (StringAt s (s.reg .r0) l →
      (∃ t, exec (.trap 3) s = .next t ∧ t.hostOut = s.hostOut ++ l ∧ t.reg .r0 = s.reg .r0) ∧
      ∃ t, exec (.trap 8) s = .next t ∧ t.hostOut = s.hostOut ++ l ++ [0x0A] ∧ t.reg .r0 = s.reg .r0)

/-- R168, R170, R171: the text of services 4, 6 and 7 denotes r[0], with no padding (decision D18). -/
def Obligations.PrintedNumbersDenoteTheRegister : Prop :=
  ∀ s : State,
    (∃ t ds, exec (.trap 4) s = .next t ∧ plainDigits 10 ds ∧
      digitsValue 10 ds = (s.reg .r0).toInt.natAbs ∧ t.reg .r0 = s.reg .r0 ∧
      t.hostOut = s.hostOut ++ (if (s.reg .r0).toInt < 0 then [0x2D] else []) ++ digitsText ds) ∧
    (∃ t ds, exec (.trap 6) s = .next t ∧ plainDigits 16 ds ∧ digitsValue 16 ds = (s.reg .r0).toNat ∧
      t.reg .r0 = s.reg .r0 ∧ t.hostOut = s.hostOut ++ [0x30, 0x78] ++ digitsText ds) ∧
    ∃ t ds, exec (.trap 7) s = .next t ∧ plainDigits 10 ds ∧ digitsValue 10 ds = (s.reg .r0).toNat ∧
      t.reg .r0 = s.reg .r0 ∧ t.hostOut = s.hostOut ++ digitsText ds

/-- R166 with decision D29: service 2 takes one byte, or reports the end of input, and then for good. -/
def Obligations.GetcTakesOneByteOrReportsTheEnd : Prop :=
  ∀ s : State, ∃ t, exec (.trap 2) s = .next t ∧
    (∀ c rest, s.hostIn = c :: rest →
      t.reg .r0 = c.setWidth 16 ∧ t.flags.z = false ∧ t.hostIn = rest) ∧
    (s.hostIn = [] → t.reg .r0 = 0 ∧ t.flags.z = true ∧ t.hostIn = [])

/-- R169: service 5 on a line ended by a newline (consumed, not stored) or by the end of input. For max >
0 it stores the line, or the first max - 1 bytes of a line of max or more (decision D23, derived in R169;
logs 11, 23), and a NUL; what is then left of a longer line is the OPEN `READLINE_OVERFLOW` (log 11). With
max = 0 it stores nothing (that r[0] is 0 is log 11). At the end of input nothing is left (D29, log 3);
the data bank is D7, and Z = 0 once a character was seen D8 (log 23). -/
def Obligations.ReadLineStoresALineThatFits : Prop :=
  ∀ (s : State) (line rest : List Byte) (newline : Bool),
    (∀ b ∈ line, b ≠ 0x0A) → s.hostIn = line ++ (if newline then 0x0A :: rest else []) →
    let max := (s.reg .r1).toNat
    let stored := line.take (max - 1)
    let after := if newline then rest else []
    ∃ t, exec (.trap 5) s = .next t ∧ t.reg .r0 = BitVec.ofNat 16 stored.length ∧
      (max = 0 → t.mem = s.mem ∧ t.reg .r0 = 0) ∧
      (0 < max → (t.flags.z = true ↔ line = [] ∧ newline = false) ∧
        BytesAt t (s.reg .r0) (stored ++ [0]) ∧
        MemSameOutside (bytesFrom s.memBank (s.reg .r0) (stored.length + 1)) s t) ∧
      (line.length < max → t.hostIn = after) ∧
      (0 < max → max ≤ line.length → t.hostIn = after ∨
        t.hostIn = line.drop (max - 1) ++ (if newline then 0x0A :: rest else []))

/-- R173: service 9 skips spaces, takes an optional sign and decimal digits, ended by the end of input or
by a character that is no digit. With no digit Z is set: after a sign, at the end of input, or before a
letter. What was read is consumed, but perhaps for the ending character. The outline of the parse is the
model's (log 8), Z = 0 on a number the spec's decision D8 and the permanent end of input D29 (log 23). -/
def Obligations.ReadIntParsesASignedDecimal : Prop :=
  ∀ (s : State) (spaces : Nat) (sign : List Byte) (ds : List Nat) (rest : List Byte),
    sign = [] ∨ sign = [0x2B] ∨ sign = [0x2D] → (∀ d ∈ ds, d < 10) →
    (∀ c, rest.head? = some c → c.toNat < 0x30 ∨ 0x39 < c.toNat) →
    s.hostIn = List.replicate spaces 0x20 ++ sign ++ digitsText ds ++ rest →
    let value : Int := if sign = [0x2D] then -(digitsValue 10 ds : Int) else digitsValue 10 ds
    let noNumber : Prop := ds = [] ∧ (sign ≠ [] ∨ rest = [] ∨ ∃ c, rest.head? = some c ∧ letter c)
    ∃ t, exec (.trap 9) s = .next t ∧
      (ds ≠ [] → t.flags.z = false ∧
        (-32768 ≤ value → value ≤ 65535 → ((t.reg .r0).toNat : Int) = value % 65536)) ∧
      (noNumber → t.flags.z = true) ∧
      (ds ≠ [] ∨ noNumber → t.hostIn = rest ∨ t.hostIn = rest.tail)

/-- R174: service 10 takes an optional "0x" or "0X" and hexadecimal digits, here in upper case, ended by
what is a digit in neither case. What was read is consumed, but perhaps for the ending character. A prefix
with no digit after it is no number, or the digit 0 before an "x" (log 8). At the end of input, and before
a sign or a letter that is no digit, Z is set, with any spaces before it. The outline of the parse is the
model's (log 8), Z = 0 on a number the spec's decision D8 and the permanent end of input D29 (log 23). -/
def Obligations.ReadHexParsesAnUnsignedNumber : Prop :=
  ∀ (s : State) (rest : List Byte),
    (∀ (pre : List Byte) (ds : List Nat), pre = [] ∨ pre = [0x30, 0x78] ∨ pre = [0x30, 0x58] →
      (∀ d ∈ ds, d < 16) → (∀ c, rest.head? = some c → noHexDigit c) →
      s.hostIn = pre ++ digitsTextUpper ds ++ rest →
      (ds ≠ [] → (pre ≠ [] ∨ ds ≠ [0] ∨ ∀ c, rest.head? = some c → c ≠ 0x78 ∧ c ≠ 0x58) →
        ∃ t, exec (.trap 10) s = .next t ∧ t.flags.z = false ∧
          (t.hostIn = rest ∨ t.hostIn = rest.tail) ∧
          (digitsValue 16 ds < 0x10000 → (t.reg .r0).toNat = digitsValue 16 ds)) ∧
      (ds = [] → pre ≠ [] → ∃ t, exec (.trap 10) s = .next t ∧
        (t.flags.z = true ∨ t.flags.z = false ∧ t.reg .r0 = 0))) ∧
    ∀ spaces : Nat, (∀ c, rest.head? = some c → (c = 0x2B ∨ c = 0x2D ∨ letter c) ∧ noHexDigit c) →
      s.hostIn = List.replicate spaces 0x20 ++ rest →
      ∃ t, exec (.trap 10) s = .next t ∧ t.flags.z = true ∧
        (spaces = 0 → t.hostIn = rest ∨ t.hostIn = rest.tail)

/-- R187: the slot that open takes is the first vacant one of the table, and open finds none only when
every slot is taken. That no slot is kept for the host's standard streams is the model's choice (log 12). -/
def Obligations.OpenTakesTheFirstVacantSlot : Prop :=
  ∀ t : FileTable,
    let first := Config.firstHandle.val
    (∀ h, t.firstVacant = some h → first ≤ h ∧ h < first + Config.fileTableCapacity ∧ h < 0xFFFF ∧
      t.file h = none ∧ ∀ k, first ≤ k → k < h → (t.file k).isSome = true) ∧
    (t.firstVacant = none → ∀ k, first ≤ k → k < first + Config.fileTableCapacity →
      (t.file k).isSome = true)

/-- R175 (with D24 for the failures, D7 for the path's bank, log 23): service 20 asks the host with the path
and the mode, and on success the first vacant slot holds the file and r[0] is its number; every failure
gives 0xFFFF. That the answer is the next scripted one is the model's (log 4), the position after open
being the host's too (log 5), and so that the host is not asked on the other failures (log 29). -/
def Obligations.OpenReturnsAHandleOrFailure : Prop :=
  ∀ (s : State) (path : List Byte) (a : HostAnswer) (rest : List HostAnswer),
    StringAt s (s.reg .r0) path → s.hostAnswers = a :: rest →
    ∃ t, exec (.trap 20) s = .next t ∧ t.reg .r1 = s.reg .r1 ∧
      (∀ h, s.files.firstVacant = some h → path.length ≤ 1024 → (s.reg .r1).toNat ≤ 3 →
        t.hostCalls = s.hostCalls ++ [.openFile path (s.reg .r1)] ∧ t.hostAnswers = rest ∧
        (a.ok = true → (t.reg .r0).toNat = h ∧
          ∀ k, t.files.file k = if k = h then some ⟨a.file, a.position⟩ else s.files.file k) ∧
        (a.ok = false → t.reg .r0 = 0xFFFF ∧ t.files = s.files)) ∧
      (s.files.firstVacant = none ∨ 1024 < path.length ∨ 3 < (s.reg .r1).toNat →
        t.reg .r0 = 0xFFFF ∧ t.files = s.files ∧ t.hostCalls = s.hostCalls)

/-- R176, R177: services 21 and 22. A bad handle and a host failure both give r[0] = 0 with Z = 1, which
both rules mark as derived; Z = 0 otherwise is decision D8 and the data bank D7 (log 23). The scripted
answer is the model's (log 4), the position after a read or a write, kept when it fails, log 5, that no
more than max bytes are taken log 26, and that a bad handle does not reach the host log 29. -/
def Obligations.FileReadAndWriteMoveBytes : Prop :=
  ∀ (s : State) (a : HostAnswer) (rest : List HostAnswer), s.hostAnswers = a :: rest →
    let h := (s.reg .r0).toNat
    (∃ t, exec (.trap 21) s = .next t ∧ (t.flags.z = true ↔ t.reg .r0 = 0) ∧
      (∀ f, s.files.file h = some f →
        t.hostCalls = s.hostCalls ++ [.readFile f.file (s.reg .r2).toNat]) ∧
      (∀ f, s.files.file h = some f → a.ok = true →
        (let bytes := a.data.take (s.reg .r2).toNat
         t.reg .r0 = BitVec.ofNat 16 bytes.length ∧ BytesAt t (s.reg .r1) bytes ∧
         MemSameOutside (bytesFrom s.memBank (s.reg .r1) bytes.length) s t ∧
         ∀ k, t.files.file k =
           if k = h then some { f with position := f.position + bytes.length } else s.files.file k)) ∧
      (s.files.file h = none ∨ a.ok = false → t.reg .r0 = 0 ∧ t.mem = s.mem ∧ t.files = s.files) ∧
      (s.files.file h = none → t.hostCalls = s.hostCalls)) ∧
    ∃ t, exec (.trap 22) s = .next t ∧ (t.flags.z = true ↔ t.reg .r0 = 0) ∧ t.mem = s.mem ∧
      (∀ f, s.files.file h = some f →
        ∃ bytes, bytes.length = (s.reg .r2).toNat ∧ BytesAt s (s.reg .r1) bytes ∧
          t.hostCalls = s.hostCalls ++ [.writeFile f.file bytes]) ∧
      (∀ f, s.files.file h = some f → a.ok = true → t.reg .r0 = s.reg .r2 ∧
        ∀ k, t.files.file k =
          if k = h then some { f with position := a.position } else s.files.file k) ∧
      (s.files.file h = none ∨ a.ok = false → t.reg .r0 = 0 ∧ t.files = s.files) ∧
      (s.files.file h = none → t.hostCalls = s.hostCalls)

/-- R178, R179, R180: services 23, 24 and 25. That a close that fails leaves the slot taken is the spec's own
choice ("is not stated; this spec vacates it only on success"). The scripted answer is the model's (log
4), and so are the position after a seek, the whence's base plus the signed offset, and that a seek that
fails leaves it (log 5), and that only a valid handle, for seek with a whence of 0 to 2, reaches the host
(log 29). -/
def Obligations.CloseSeekAndTellAnswerInBand : Prop :=
  ∀ (s : State) (a : HostAnswer) (rest : List HostAnswer), s.hostAnswers = a :: rest →
    (let f? := s.files.file (s.reg .r0).toNat
     (∃ t, exec (.trap 23) s = .next t ∧
       (f?.isSome = true → a.ok = true → t.reg .r0 = 0 ∧
         ∀ k, t.files.file k = if k = (s.reg .r0).toNat then none else s.files.file k) ∧
       (∀ f, f? = some f → t.hostCalls = s.hostCalls ++ [.closeFile f.file]) ∧
       (f? = none → t.hostCalls = s.hostCalls) ∧
       (f? = none ∨ a.ok = false → t.reg .r0 = 0xFFFF ∧ t.files = s.files)) ∧
     (∃ t, exec (.trap 24) s = .next t ∧
       (∀ k, k ≠ (s.reg .r0).toNat → t.files.file k = s.files.file k) ∧
       (∀ f, f? = some f → (s.reg .r2).toNat ≤ 2 →
         t.hostCalls = s.hostCalls ++ [.seekFile f.file (s.reg .r1).toInt (s.reg .r2)]) ∧
       (f? = none ∨ 2 < (s.reg .r2).toNat → t.hostCalls = s.hostCalls) ∧
       (∀ f, f? = some f → a.ok = true → (s.reg .r2).toNat ≤ 2 → t.reg .r0 = 0 ∧
         (∃ p, t.files.file (s.reg .r0).toNat = some { f with position := p }) ∧
         ∀ base : Nat, (s.reg .r2 = 0 → base = 0) → (s.reg .r2 = 1 → base = f.position) →
           (s.reg .r2 = 2 → base = a.size) → ∀ p : Nat, (p : Int) = base + (s.reg .r1).toInt →
           t.files.file (s.reg .r0).toNat = some { f with position := p }) ∧
       (f? = none ∨ a.ok = false ∨ 2 < (s.reg .r2).toNat → t.reg .r0 = 0xFFFF ∧ t.files = s.files)) ∧
     ∃ t, exec (.trap 25) s = .next t ∧ t.files = s.files ∧
       (∀ f, f? = some f → t.hostCalls = s.hostCalls ++ [.tellFile f.file]) ∧
       (f? = none → t.hostCalls = s.hostCalls) ∧
       (∀ f, f? = some f → a.ok = true → (t.reg .r0).toNat = f.position % 0x10000) ∧
       (f? = none ∨ a.ok = false → t.reg .r0 = 0xFFFF))

/-- R181: service 26 for r[0] in 0..3; above, it still completes, and `mem_bank` is r[0][1:0] or
unchanged (D9, log 10). -/
def Obligations.BankServiceSelectsTheDataBank : Prop :=
  ∀ s : State, ∃ t, exec (.trap 26) s = .next t ∧
    ((s.reg .r0).toNat ≤ 3 → t.memBank.toNat = (s.reg .r0).toNat ∧ t.reg .r0 = 0) ∧
    (3 < (s.reg .r0).toNat → t.memBank = s.memBank ∨ t.memBank.toNat = (s.reg .r0).toNat % 4)

/-! ## Rules over all instructions -/

/-- R18: which instructions write no flag, and which leave C; every other instruction writes N and V, so
the next state does not depend on what they were. -/
def Obligations.OnlyTheListedInstructionsWriteFlags : Prop :=
  ∀ (i : Instr) (s t : State), exec i s = .next t →
    (leavesFlags i = true → t.flags = s.flags) ∧ (leavesCarry i = true → t.flags.c = s.flags.c) ∧
    (leavesFlags i = false → ∀ n v, exec i (s.withNV n v) = .next t)

/-- R20, R21, R22, R23, R25: only `HALT` halts and nothing un-halts, only service 26 changes `mem_bank`,
only open and close change which handles are valid, only they and the services that move a file's position
(21, 22 and 24) change the file table, and no step touches the debug set-up. -/
def Obligations.ControlStateHasItsOnlyWriters : Prop :=
  ∀ (i : Instr) (s t : State), exec i s = .next t →
    (t.halted ≠ s.halted → i = .halt ∧ t.halted = true) ∧
    (t.memBank ≠ s.memBank → i = .trap 26) ∧
    ((∃ h, (t.files.file h).isSome ≠ (s.files.file h).isSome) → i = .trap 20 ∨ i = .trap 23) ∧
    (t.files ≠ s.files → ∃ v : BitVec 8, i = .trap v ∧ 20 ≤ v.toNat ∧ v.toNat ≤ 24) ∧
    t.breakpoints = s.breakpoints ∧ t.breakHit = s.breakHit ∧ t.breakAddr = s.breakAddr ∧
    t.watch = s.watch ∧ t.pc0 = s.pc0

/-- R19: "N and V are read by no instruction": two states that differ only in N and V step to states that
differ at most in N and V, or stop alike. -/
def Obligations.NoStepReadsNOrV : Prop :=
  ∀ (s : State) (n v : Bool),
    match step s with
    | .next t => ∃ m u, step (s.withNV n v) = .next (t.withNV m u)
    | .fault f => step (s.withNV n v) = .fault f
    | .refused r => step (s.withNV n v) = .refused r

/-- R22, R23, R213, R214: the program cannot observe breakpoints or the memory-watch: with the debug state
erased a step does the same and differs at most in the debug state. -/
def Obligations.NoStepObservesTheDebugState : Prop :=
  ∀ s : State,
    match step s with
    | .next t => ∃ u, step s.withoutDebug = .next u ∧ u.withoutDebug = t.withoutDebug
    | .fault f => step s.withoutDebug = .fault f
    | .refused r => step s.withoutDebug = .refused r

/-! ## The control interface (`60_exceptions.md`, `70_reset_and_hazards.md`) -/

/-- R232 (entry at the start: D13): the image's words lie little-endian in bank 0 from the start address
on, wrapping, execution begins there, and nothing else changes. -/
def Obligations.LoadLaysDownTheImage : Prop :=
  ∀ (s : State) (start : Word) (words : List Word), words.length ≤ 0x8000 →
    let t := s.load start words
    (∀ k (h : k < words.length), t.mem.readWord 0 (start + 2 * BitVec.ofNat 16 k) = words[k]) ∧
    t.reg .r7 = start ∧ RegsSameOutside [.r7] s t ∧ t.flags = s.flags ∧
    MemSameOutside (bytesFrom 0 start (2 * words.length)) s t ∧ OnlyCpuChanged s t

/-- R210, R236: a run that used up its steps may be continued: running on gives what one longer run
gives, and a run that ended otherwise ends the same way with more steps to spare. (With the breakpoint
test made in every iteration, R212.) -/
def Obligations.ARunMayBeContinued : Prop :=
  ∀ (m n : Nat) (s : State),
    runWith .callerSteps (m + n) s =
      match runWith .callerSteps m s with
      | .stepsExhausted t => runWith .callerSteps n t
      | r => r

/-- R207, R210, R211, R212: the tests come in the order halted, budget, breakpoint (D14); a breakpoint
stop executes nothing and sets the two sticky fields; otherwise one step is made. -/
def Obligations.RunTestsHaltedThenBudgetThenBreakpoint : Prop :=
  ∀ (n : Nat) (s : State),
    (s.halted = true → ∀ p, runWith p n s = .halted s) ∧
    (s.halted = false → ∀ p, runWith p 0 s = .stepsExhausted s) ∧
    (s.halted = false → s.pc ∈ s.breakpoints →
      runWith .callerSteps (n + 1) s = .breakpoint { s with breakHit := true, breakAddr := s.pc }) ∧
    (s.halted = false → s.pc ∉ s.breakpoints → ∀ t, step s = .next t →
      runWith .callerSteps (n + 1) s = runWith .callerSteps n t) ∧
    (s.halted = false → s.pc ∉ s.breakpoints → ∀ pc0 w, step s = .fault (.unimplementedInstruction pc0 w) →
      runWith .callerSteps (n + 1) s = .fatal pc0 w)

/-- R8, R22: the breakpoint set is a set: adding and removing do just that and keep its form. -/
def Obligations.BreakpointsAreASet : Prop :=
  ∀ (s : State) (a b : Word),
    (b ∈ (s.addBreakpoint a).breakpoints ↔ b = a ∨ b ∈ s.breakpoints) ∧
    (b ∈ (s.removeBreakpoint a).breakpoints ↔ b ≠ a ∧ b ∈ s.breakpoints) ∧
    (s.wf → (s.addBreakpoint a).wf ∧ (s.removeBreakpoint a).wf)
end

