-- ==== Sys2Proof/Laws/Decode.lean ====
section
/-! SUPPORT. The laws of the decoder: a row that a word selects is the one the decoder finds, and the
fields of a word built by a format are read back as they were. -/

namespace Sys2Proof

/-! ## The opcode map -/

/-- The masks and patterns of any two rows tell them apart. -/
theorem opcodeRows_disjoint :
    opcodeRows.Pairwise (fun r q => r.pattern &&& q.mask ≠ q.pattern &&& r.mask) := by decide

/-- At most one row of the map is selected by a word. -/
theorem selects_unique {w : Word} {r q : OpcodeRow} (hr : r ∈ opcodeRows) (hq : q ∈ opcodeRows)
    (h : r.selects w = true) (h' : q.selects w = true) : r = q := by
  by_contra hne
  have hsym : Std.Symm (fun r q : OpcodeRow => r.pattern &&& q.mask ≠ q.pattern &&& r.mask) :=
    ⟨fun _ _ h => h.symm⟩
  have hd := opcodeRows_disjoint.forall hr hq hne
  simp only [OpcodeRow.selects, beq_iff_eq] at h h'
  apply hd
  rw [← h, ← h', BitVec.and_assoc, BitVec.and_assoc, BitVec.and_comm r.mask]

/-- The decoder gives the instruction of the row a word selects (rule R61). -/
theorem decodeWord_of_selects {w : Word} {r : OpcodeRow} (hr : r ∈ opcodeRows)
    (h : r.selects w = true) : decodeWord w = .ok (r.build w) := by
  unfold decodeWord
  cases hf : opcodeRows.find? (fun r => r.selects w) with
  | none => exact absurd h (by simpa using List.find?_eq_none.mp hf r hr)
  | some q =>
    have hs : q.selects w = true := by simpa using List.find?_some hf
    rw [selects_unique hr (List.mem_of_find?_eq_some hf) h hs]

/-- What the decoder accepts was built by a row the word selects. -/
theorem decodeWord_ok {w : Word} {i : Instr} (h : decodeWord w = .ok i) :
    ∃ r ∈ opcodeRows, r.selects w = true ∧ r.build w = i := by
  unfold decodeWord at h
  cases hf : opcodeRows.find? (fun r => r.selects w) with
  | none => simp [hf] at h
  | some q =>
    rw [hf] at h
    exact ⟨q, List.mem_of_find?_eq_some hf, by simpa using List.find?_some hf, by simpa using h⟩

/-- The decoder rejects a word by its own name, and only when no row is selected (rule R66). -/
theorem decodeWord_error {w : Word} {e : DecodeError} (h : decodeWord w = .error e) :
    e = .unimplementedEncoding w ∧ ∀ r ∈ opcodeRows, r.selects w = false := by
  unfold decodeWord at h
  cases hf : opcodeRows.find? (fun r => r.selects w) with
  | none =>
    rw [hf] at h
    exact ⟨by simpa using h.symm, fun r hr => by simpa using List.find?_eq_none.mp hf r hr⟩
  | some q => simp [hf] at h

/-- A word that selects no row is rejected. -/
theorem decodeWord_of_none {w : Word} (h : ∀ r ∈ opcodeRows, r.selects w = false) :
    decodeWord w = .error (.unimplementedEncoding w) := by
  unfold decodeWord
  have : opcodeRows.find? (fun r => r.selects w) = none := by
    rw [List.find?_eq_none]
    exact fun r hr => by simp [h r hr]
  rw [this]

/-! ## Fields -/

@[simp] theorem Reg.ofBits_bits (r : Reg) : Reg.ofBits r.bits = r := by cases r <;> rfl

@[simp] theorem Mode.ofBits_bits (m : Mode) : Mode.ofBits m.bits = m := by cases m <;> rfl

theorem Reg.bits_ofBits (b : BitVec 3) : (Reg.ofBits b).bits = b := by revert b; decide

theorem Mode.bits_ofBits (b : BitVec 3) : (Mode.ofBits b).bits = b := by revert b; decide

@[simp] theorem Spec.bits_reg (sp : Spec) : sp.bits.extractLsb' 0 3 = sp.reg.bits := by
  obtain ⟨m, r⟩ := sp
  cases m <;> cases r <;> rfl

@[simp] theorem Spec.bits_mode (sp : Spec) : sp.bits.extractLsb' 3 3 = sp.mode.bits := by
  obtain ⟨m, r⟩ := sp
  cases m <;> cases r <;> rfl

@[simp] theorem Spec.bits_high6 (sp : Spec) : sp.bits.extractLsb' 6 3 = 0 := by
  obtain ⟨m, r⟩ := sp
  cases m <;> cases r <;> rfl

@[simp] theorem Spec.bits_high9 (sp : Spec) : sp.bits.extractLsb' 9 3 = 0 := by
  obtain ⟨m, r⟩ := sp
  cases m <;> cases r <;> rfl

@[simp] theorem Spec.shifted_low0 (sp : Spec) : (sp.bits <<< 6).extractLsb' 0 3 = 0 := by
  obtain ⟨m, r⟩ := sp
  cases m <;> cases r <;> rfl

@[simp] theorem Spec.shifted_low3 (sp : Spec) : (sp.bits <<< 6).extractLsb' 3 3 = 0 := by
  obtain ⟨m, r⟩ := sp
  cases m <;> cases r <;> rfl

@[simp] theorem Spec.shifted_reg (sp : Spec) : (sp.bits <<< 6).extractLsb' 6 3 = sp.reg.bits := by
  obtain ⟨m, r⟩ := sp
  cases m <;> cases r <;> rfl

@[simp] theorem Spec.shifted_mode (sp : Spec) : (sp.bits <<< 6).extractLsb' 9 3 = sp.mode.bits := by
  obtain ⟨m, r⟩ := sp
  cases m <;> cases r <;> rfl

theorem Spec.bits_andD (sp : Spec) : sp.bits &&& 0xF000 = 0 := by
  obtain ⟨m, r⟩ := sp
  cases m <;> cases r <;> rfl

theorem Spec.bits_andS (sp : Spec) : sp.bits &&& 0xFFC0 = 0 := by
  obtain ⟨m, r⟩ := sp
  cases m <;> cases r <;> rfl

theorem Spec.bits_andJ (sp : Spec) : sp.bits &&& 0xFE00 = 0 := by
  obtain ⟨m, r⟩ := sp
  cases m <;> cases r <;> rfl

theorem Spec.shifted_andD (sp : Spec) : (sp.bits <<< 6) &&& 0xF000 = 0 := by
  obtain ⟨m, r⟩ := sp
  cases m <;> cases r <;> rfl

theorem Reg.shifted_andJ (r : Reg) : (r.bits.setWidth 16 <<< 6) &&& (0xFE00 : Word) = 0 := by
  cases r <;> rfl

theorem Reg.bits_andR (r : Reg) : r.bits.setWidth 16 &&& (0xFFF8 : Word) = 0 := by cases r <;> rfl

theorem field_andB (f : BitVec 8) : f.setWidth 16 &&& (0xFF00 : Word) = 0 := by revert f; decide

theorem field_low (f : BitVec 8) : (f.setWidth 16 : Word).extractLsb' 0 8 = f := by revert f; decide

theorem Reg.shifted_low0 (r : Reg) : (r.bits.setWidth 16 <<< 6 : Word).extractLsb' 0 3 = 0 := by
  cases r <;> rfl

theorem Reg.shifted_low3 (r : Reg) : (r.bits.setWidth 16 <<< 6 : Word).extractLsb' 3 3 = 0 := by
  cases r <;> rfl

theorem Reg.shifted_reg (r : Reg) : (r.bits.setWidth 16 <<< 6 : Word).extractLsb' 6 3 = r.bits := by
  cases r <;> rfl

theorem Reg.low_reg (r : Reg) : (r.bits.setWidth 16 : Word).extractLsb' 0 3 = r.bits := by
  cases r <;> rfl

theorem or_and (a b m : Word) : (a ||| b) &&& m = (a &&& m) ||| (b &&& m) := by
  rw [BitVec.and_comm, BitVec.and_or_distrib_left, BitVec.and_comm m a, BitVec.and_comm m b]

/-! ## Formats: a word selects its row and gives its fields back -/

/-- Format D (rule R53). -/
theorem formatD_fields (base : Word) (ss dd : Spec) (hm : base &&& 0xF000 = base)
    (hr : base.extractLsb' 0 3 = 0) (hm' : base.extractLsb' 3 3 = 0) (hs : base.extractLsb' 6 3 = 0)
    (hs' : base.extractLsb' 9 3 = 0) :
    formatD base ss dd &&& 0xF000 = base ∧ srcSpec (formatD base ss dd) = ss ∧
      dstSpec (formatD base ss dd) = dd := by
  refine ⟨?_, ?_, ?_⟩
  · rw [formatD, or_and, or_and, hm, Spec.shifted_andD, Spec.bits_andD]
    simp
  · simp [srcSpec, formatD, BitVec.extractLsb'_or, hs, hs']
  · simp [dstSpec, formatD, BitVec.extractLsb'_or, hr, hm']

/-- Format S (rule R54). -/
theorem formatS_fields (base : Word) (dd : Spec) (hm : base &&& 0xFFC0 = base)
    (hr : base.extractLsb' 0 3 = 0) (hm' : base.extractLsb' 3 3 = 0) :
    formatS base dd &&& 0xFFC0 = base ∧ dstSpec (formatS base dd) = dd := by
  refine ⟨?_, ?_⟩
  · rw [formatS, or_and, hm, Spec.bits_andS]
    simp
  · simp [dstSpec, formatS, BitVec.extractLsb'_or, hr, hm']

/-- Formats B and T (rules R55, R56). -/
theorem formatB_fields (base : Word) (f : BitVec 8) (hm : base &&& 0xFF00 = base)
    (hl : base.extractLsb' 0 8 = 0) :
    formatB base f &&& 0xFF00 = base ∧ lowField (formatB base f) = f := by
  refine ⟨?_, ?_⟩
  · rw [formatB, or_and, hm, field_andB]
    simp
  · rw [lowField, formatB, BitVec.extractLsb'_or, hl, field_low]
    simp

/-- Format J (rule R57). -/
theorem formatJ_fields (r : Reg) (dd : Spec) :
    formatJ 0x0800 r dd &&& 0xFE00 = 0x0800 ∧ linkReg (formatJ 0x0800 r dd) = r ∧
      dstSpec (formatJ 0x0800 r dd) = dd := by
  have h0 : (0x0800 : Word).extractLsb' 0 3 = 0 := rfl
  have h3 : (0x0800 : Word).extractLsb' 3 3 = 0 := rfl
  have h6 : (0x0800 : Word).extractLsb' 6 3 = 0 := rfl
  refine ⟨?_, ?_, ?_⟩
  · rw [formatJ, or_and, or_and, Reg.shifted_andJ, Spec.bits_andJ]
    rfl
  · rw [linkReg, formatJ, BitVec.extractLsb'_or, BitVec.extractLsb'_or, h6, Reg.shifted_reg,
      Spec.bits_high6]
    simp
  · rw [dstSpec, formatJ]
    simp only [BitVec.extractLsb'_or, h0, h3, Reg.shifted_low0, Reg.shifted_low3, Spec.bits_reg,
      Spec.bits_mode]
    simp

/-- Format R (rule R58). -/
theorem formatR_fields (r : Reg) :
    formatR 0x0010 r &&& 0xFFF8 = 0x0010 ∧ returnReg (formatR 0x0010 r) = r := by
  cases r <;> exact ⟨rfl, rfl⟩

end Sys2Proof
end

