-- ==== Sys2Proof/Laws/State.lean ====
section
/-! SUPPORT. The fields of a state after each update of Machine/Ops.lean, one lemma per field per update,
true by rfl and tagged simp, so that no later proof unfolds a record update. -/

namespace Sys2Proof.Machine

/-! ## setReg -/

@[simp] theorem setReg_regs (s : State) (n : Reg) (v : Word) :
    (s.setReg n v).regs = s.regs.set n v := rfl

@[simp] theorem setReg_flags (s : State) (n : Reg) (v : Word) :
    (s.setReg n v).flags = s.flags := rfl

@[simp] theorem setReg_halted (s : State) (n : Reg) (v : Word) :
    (s.setReg n v).halted = s.halted := rfl

@[simp] theorem setReg_memBank (s : State) (n : Reg) (v : Word) :
    (s.setReg n v).memBank = s.memBank := rfl

@[simp] theorem setReg_mem (s : State) (n : Reg) (v : Word) :
    (s.setReg n v).mem = s.mem := rfl

@[simp] theorem setReg_pc0 (s : State) (n : Reg) (v : Word) :
    (s.setReg n v).pc0 = s.pc0 := rfl

@[simp] theorem setReg_files (s : State) (n : Reg) (v : Word) :
    (s.setReg n v).files = s.files := rfl

@[simp] theorem setReg_watch (s : State) (n : Reg) (v : Word) :
    (s.setReg n v).watch = s.watch := rfl

@[simp] theorem setReg_breakpoints (s : State) (n : Reg) (v : Word) :
    (s.setReg n v).breakpoints = s.breakpoints := rfl

@[simp] theorem setReg_breakHit (s : State) (n : Reg) (v : Word) :
    (s.setReg n v).breakHit = s.breakHit := rfl

@[simp] theorem setReg_breakAddr (s : State) (n : Reg) (v : Word) :
    (s.setReg n v).breakAddr = s.breakAddr := rfl

@[simp] theorem setReg_hostIn (s : State) (n : Reg) (v : Word) :
    (s.setReg n v).hostIn = s.hostIn := rfl

@[simp] theorem setReg_hostOut (s : State) (n : Reg) (v : Word) :
    (s.setReg n v).hostOut = s.hostOut := rfl

@[simp] theorem setReg_hostAnswers (s : State) (n : Reg) (v : Word) :
    (s.setReg n v).hostAnswers = s.hostAnswers := rfl

@[simp] theorem setReg_hostCalls (s : State) (n : Reg) (v : Word) :
    (s.setReg n v).hostCalls = s.hostCalls := rfl

@[simp] theorem setReg_watchLog (s : State) (n : Reg) (v : Word) :
    (s.setReg n v).watchLog = s.watchLog := rfl

@[simp] theorem setReg_freeCount (s : State) (n : Reg) (v : Word) :
    (s.setReg n v).freeCount = s.freeCount := rfl

@[simp] theorem setReg_bank (s : State) (n : Reg) (v : Word) (x : View) :
    (s.setReg n v).bank x = s.bank x := rfl

/-! ## setFlags -/

@[simp] theorem setFlags_regs (s : State) (f : Flags) :
    (s.setFlags f).regs = s.regs := rfl

@[simp] theorem setFlags_flags (s : State) (f : Flags) :
    (s.setFlags f).flags = f := rfl

@[simp] theorem setFlags_halted (s : State) (f : Flags) :
    (s.setFlags f).halted = s.halted := rfl

@[simp] theorem setFlags_memBank (s : State) (f : Flags) :
    (s.setFlags f).memBank = s.memBank := rfl

@[simp] theorem setFlags_mem (s : State) (f : Flags) :
    (s.setFlags f).mem = s.mem := rfl

@[simp] theorem setFlags_pc0 (s : State) (f : Flags) :
    (s.setFlags f).pc0 = s.pc0 := rfl

@[simp] theorem setFlags_files (s : State) (f : Flags) :
    (s.setFlags f).files = s.files := rfl

@[simp] theorem setFlags_watch (s : State) (f : Flags) :
    (s.setFlags f).watch = s.watch := rfl

@[simp] theorem setFlags_breakpoints (s : State) (f : Flags) :
    (s.setFlags f).breakpoints = s.breakpoints := rfl

@[simp] theorem setFlags_breakHit (s : State) (f : Flags) :
    (s.setFlags f).breakHit = s.breakHit := rfl

@[simp] theorem setFlags_breakAddr (s : State) (f : Flags) :
    (s.setFlags f).breakAddr = s.breakAddr := rfl

@[simp] theorem setFlags_hostIn (s : State) (f : Flags) :
    (s.setFlags f).hostIn = s.hostIn := rfl

@[simp] theorem setFlags_hostOut (s : State) (f : Flags) :
    (s.setFlags f).hostOut = s.hostOut := rfl

@[simp] theorem setFlags_hostAnswers (s : State) (f : Flags) :
    (s.setFlags f).hostAnswers = s.hostAnswers := rfl

@[simp] theorem setFlags_hostCalls (s : State) (f : Flags) :
    (s.setFlags f).hostCalls = s.hostCalls := rfl

@[simp] theorem setFlags_watchLog (s : State) (f : Flags) :
    (s.setFlags f).watchLog = s.watchLog := rfl

@[simp] theorem setFlags_freeCount (s : State) (f : Flags) :
    (s.setFlags f).freeCount = s.freeCount := rfl

@[simp] theorem setFlags_reg (s : State) (f : Flags) (m : Reg) :
    (s.setFlags f).reg m = s.reg m := rfl

@[simp] theorem setFlags_bank (s : State) (f : Flags) (x : View) :
    (s.setFlags f).bank x = s.bank x := rfl

/-! ## logAccess -/

@[simp] theorem logAccess_regs (s : State) (k : Access) (d : Direction) (a : Word) (z : Size) (v : Word) :
    (s.logAccess k d a z v).regs = s.regs := rfl

@[simp] theorem logAccess_flags (s : State) (k : Access) (d : Direction) (a : Word) (z : Size) (v : Word) :
    (s.logAccess k d a z v).flags = s.flags := rfl

@[simp] theorem logAccess_halted (s : State) (k : Access) (d : Direction) (a : Word) (z : Size) (v : Word) :
    (s.logAccess k d a z v).halted = s.halted := rfl

@[simp] theorem logAccess_memBank (s : State) (k : Access) (d : Direction) (a : Word) (z : Size) (v : Word) :
    (s.logAccess k d a z v).memBank = s.memBank := rfl

@[simp] theorem logAccess_mem (s : State) (k : Access) (d : Direction) (a : Word) (z : Size) (v : Word) :
    (s.logAccess k d a z v).mem = s.mem := rfl

@[simp] theorem logAccess_pc0 (s : State) (k : Access) (d : Direction) (a : Word) (z : Size) (v : Word) :
    (s.logAccess k d a z v).pc0 = s.pc0 := rfl

@[simp] theorem logAccess_files (s : State) (k : Access) (d : Direction) (a : Word) (z : Size) (v : Word) :
    (s.logAccess k d a z v).files = s.files := rfl

@[simp] theorem logAccess_watch (s : State) (k : Access) (d : Direction) (a : Word) (z : Size) (v : Word) :
    (s.logAccess k d a z v).watch = s.watch := rfl

@[simp] theorem logAccess_breakpoints (s : State) (k : Access) (d : Direction) (a : Word) (z : Size) (v : Word) :
    (s.logAccess k d a z v).breakpoints = s.breakpoints := rfl

@[simp] theorem logAccess_breakHit (s : State) (k : Access) (d : Direction) (a : Word) (z : Size) (v : Word) :
    (s.logAccess k d a z v).breakHit = s.breakHit := rfl

@[simp] theorem logAccess_breakAddr (s : State) (k : Access) (d : Direction) (a : Word) (z : Size) (v : Word) :
    (s.logAccess k d a z v).breakAddr = s.breakAddr := rfl

@[simp] theorem logAccess_hostIn (s : State) (k : Access) (d : Direction) (a : Word) (z : Size) (v : Word) :
    (s.logAccess k d a z v).hostIn = s.hostIn := rfl

@[simp] theorem logAccess_hostOut (s : State) (k : Access) (d : Direction) (a : Word) (z : Size) (v : Word) :
    (s.logAccess k d a z v).hostOut = s.hostOut := rfl

@[simp] theorem logAccess_hostAnswers (s : State) (k : Access) (d : Direction) (a : Word) (z : Size) (v : Word) :
    (s.logAccess k d a z v).hostAnswers = s.hostAnswers := rfl

@[simp] theorem logAccess_hostCalls (s : State) (k : Access) (d : Direction) (a : Word) (z : Size) (v : Word) :
    (s.logAccess k d a z v).hostCalls = s.hostCalls := rfl

@[simp] theorem logAccess_freeCount (s : State) (k : Access) (d : Direction) (a : Word) (z : Size) (v : Word) :
    (s.logAccess k d a z v).freeCount = s.freeCount := rfl

@[simp] theorem logAccess_reg (s : State) (k : Access) (d : Direction) (a : Word) (z : Size) (v : Word) (m : Reg) :
    (s.logAccess k d a z v).reg m = s.reg m := rfl

@[simp] theorem logAccess_bank (s : State) (k : Access) (d : Direction) (a : Word) (z : Size) (v : Word) (x : View) :
    (s.logAccess k d a z v).bank x = s.bank x := rfl

/-! ## writeWord -/

@[simp] theorem writeWord_regs (s : State) (v : View) (a w : Word) :
    (s.writeWord v a w).regs = s.regs := rfl

@[simp] theorem writeWord_flags (s : State) (v : View) (a w : Word) :
    (s.writeWord v a w).flags = s.flags := rfl

@[simp] theorem writeWord_halted (s : State) (v : View) (a w : Word) :
    (s.writeWord v a w).halted = s.halted := rfl

@[simp] theorem writeWord_memBank (s : State) (v : View) (a w : Word) :
    (s.writeWord v a w).memBank = s.memBank := rfl

@[simp] theorem writeWord_mem (s : State) (v : View) (a w : Word) :
    (s.writeWord v a w).mem = s.mem.writeWord (s.bank v) a w := rfl

@[simp] theorem writeWord_pc0 (s : State) (v : View) (a w : Word) :
    (s.writeWord v a w).pc0 = s.pc0 := rfl

@[simp] theorem writeWord_files (s : State) (v : View) (a w : Word) :
    (s.writeWord v a w).files = s.files := rfl

@[simp] theorem writeWord_watch (s : State) (v : View) (a w : Word) :
    (s.writeWord v a w).watch = s.watch := rfl

@[simp] theorem writeWord_breakpoints (s : State) (v : View) (a w : Word) :
    (s.writeWord v a w).breakpoints = s.breakpoints := rfl

@[simp] theorem writeWord_breakHit (s : State) (v : View) (a w : Word) :
    (s.writeWord v a w).breakHit = s.breakHit := rfl

@[simp] theorem writeWord_breakAddr (s : State) (v : View) (a w : Word) :
    (s.writeWord v a w).breakAddr = s.breakAddr := rfl

@[simp] theorem writeWord_hostIn (s : State) (v : View) (a w : Word) :
    (s.writeWord v a w).hostIn = s.hostIn := rfl

@[simp] theorem writeWord_hostOut (s : State) (v : View) (a w : Word) :
    (s.writeWord v a w).hostOut = s.hostOut := rfl

@[simp] theorem writeWord_hostAnswers (s : State) (v : View) (a w : Word) :
    (s.writeWord v a w).hostAnswers = s.hostAnswers := rfl

@[simp] theorem writeWord_hostCalls (s : State) (v : View) (a w : Word) :
    (s.writeWord v a w).hostCalls = s.hostCalls := rfl

@[simp] theorem writeWord_freeCount (s : State) (v : View) (a w : Word) :
    (s.writeWord v a w).freeCount = s.freeCount := rfl

@[simp] theorem writeWord_reg (s : State) (v : View) (a w : Word) (m : Reg) :
    (s.writeWord v a w).reg m = s.reg m := rfl

@[simp] theorem writeWord_bank (s : State) (v : View) (a w : Word) (x : View) :
    (s.writeWord v a w).bank x = s.bank x := rfl

/-! ## writeByte -/

@[simp] theorem writeByte_regs (s : State) (v : View) (a : Word) (b : Byte) :
    (s.writeByte v a b).regs = s.regs := rfl

@[simp] theorem writeByte_flags (s : State) (v : View) (a : Word) (b : Byte) :
    (s.writeByte v a b).flags = s.flags := rfl

@[simp] theorem writeByte_halted (s : State) (v : View) (a : Word) (b : Byte) :
    (s.writeByte v a b).halted = s.halted := rfl

@[simp] theorem writeByte_memBank (s : State) (v : View) (a : Word) (b : Byte) :
    (s.writeByte v a b).memBank = s.memBank := rfl

@[simp] theorem writeByte_mem (s : State) (v : View) (a : Word) (b : Byte) :
    (s.writeByte v a b).mem = s.mem.writeByte (s.bank v) a b := rfl

@[simp] theorem writeByte_pc0 (s : State) (v : View) (a : Word) (b : Byte) :
    (s.writeByte v a b).pc0 = s.pc0 := rfl

@[simp] theorem writeByte_files (s : State) (v : View) (a : Word) (b : Byte) :
    (s.writeByte v a b).files = s.files := rfl

@[simp] theorem writeByte_watch (s : State) (v : View) (a : Word) (b : Byte) :
    (s.writeByte v a b).watch = s.watch := rfl

@[simp] theorem writeByte_breakpoints (s : State) (v : View) (a : Word) (b : Byte) :
    (s.writeByte v a b).breakpoints = s.breakpoints := rfl

@[simp] theorem writeByte_breakHit (s : State) (v : View) (a : Word) (b : Byte) :
    (s.writeByte v a b).breakHit = s.breakHit := rfl

@[simp] theorem writeByte_breakAddr (s : State) (v : View) (a : Word) (b : Byte) :
    (s.writeByte v a b).breakAddr = s.breakAddr := rfl

@[simp] theorem writeByte_hostIn (s : State) (v : View) (a : Word) (b : Byte) :
    (s.writeByte v a b).hostIn = s.hostIn := rfl

@[simp] theorem writeByte_hostOut (s : State) (v : View) (a : Word) (b : Byte) :
    (s.writeByte v a b).hostOut = s.hostOut := rfl

@[simp] theorem writeByte_hostAnswers (s : State) (v : View) (a : Word) (b : Byte) :
    (s.writeByte v a b).hostAnswers = s.hostAnswers := rfl

@[simp] theorem writeByte_hostCalls (s : State) (v : View) (a : Word) (b : Byte) :
    (s.writeByte v a b).hostCalls = s.hostCalls := rfl

@[simp] theorem writeByte_freeCount (s : State) (v : View) (a : Word) (b : Byte) :
    (s.writeByte v a b).freeCount = s.freeCount := rfl

@[simp] theorem writeByte_reg (s : State) (v : View) (a : Word) (b : Byte) (m : Reg) :
    (s.writeByte v a b).reg m = s.reg m := rfl

@[simp] theorem writeByte_bank (s : State) (v : View) (a : Word) (b : Byte) (x : View) :
    (s.writeByte v a b).bank x = s.bank x := rfl

/-! ## outChars -/

@[simp] theorem outChars_regs (s : State) (l : List Byte) :
    (s.outChars l).regs = s.regs := rfl

@[simp] theorem outChars_flags (s : State) (l : List Byte) :
    (s.outChars l).flags = s.flags := rfl

@[simp] theorem outChars_halted (s : State) (l : List Byte) :
    (s.outChars l).halted = s.halted := rfl

@[simp] theorem outChars_memBank (s : State) (l : List Byte) :
    (s.outChars l).memBank = s.memBank := rfl

@[simp] theorem outChars_mem (s : State) (l : List Byte) :
    (s.outChars l).mem = s.mem := rfl

@[simp] theorem outChars_pc0 (s : State) (l : List Byte) :
    (s.outChars l).pc0 = s.pc0 := rfl

@[simp] theorem outChars_files (s : State) (l : List Byte) :
    (s.outChars l).files = s.files := rfl

@[simp] theorem outChars_watch (s : State) (l : List Byte) :
    (s.outChars l).watch = s.watch := rfl

@[simp] theorem outChars_breakpoints (s : State) (l : List Byte) :
    (s.outChars l).breakpoints = s.breakpoints := rfl

@[simp] theorem outChars_breakHit (s : State) (l : List Byte) :
    (s.outChars l).breakHit = s.breakHit := rfl

@[simp] theorem outChars_breakAddr (s : State) (l : List Byte) :
    (s.outChars l).breakAddr = s.breakAddr := rfl

@[simp] theorem outChars_hostIn (s : State) (l : List Byte) :
    (s.outChars l).hostIn = s.hostIn := rfl

@[simp] theorem outChars_hostOut (s : State) (l : List Byte) :
    (s.outChars l).hostOut = s.hostOut ++ l := rfl

@[simp] theorem outChars_hostAnswers (s : State) (l : List Byte) :
    (s.outChars l).hostAnswers = s.hostAnswers := rfl

@[simp] theorem outChars_hostCalls (s : State) (l : List Byte) :
    (s.outChars l).hostCalls = s.hostCalls := rfl

@[simp] theorem outChars_watchLog (s : State) (l : List Byte) :
    (s.outChars l).watchLog = s.watchLog := rfl

@[simp] theorem outChars_freeCount (s : State) (l : List Byte) :
    (s.outChars l).freeCount = s.freeCount := rfl

@[simp] theorem outChars_reg (s : State) (l : List Byte) (m : Reg) :
    (s.outChars l).reg m = s.reg m := rfl

@[simp] theorem outChars_bank (s : State) (l : List Byte) (x : View) :
    (s.outChars l).bank x = s.bank x := rfl

/-! ## setFile -/

@[simp] theorem setFile_regs (s : State) (f : OpenFile) :
    (s.setFile f).regs = s.regs := rfl

@[simp] theorem setFile_flags (s : State) (f : OpenFile) :
    (s.setFile f).flags = s.flags := rfl

@[simp] theorem setFile_halted (s : State) (f : OpenFile) :
    (s.setFile f).halted = s.halted := rfl

@[simp] theorem setFile_memBank (s : State) (f : OpenFile) :
    (s.setFile f).memBank = s.memBank := rfl

@[simp] theorem setFile_mem (s : State) (f : OpenFile) :
    (s.setFile f).mem = s.mem := rfl

@[simp] theorem setFile_pc0 (s : State) (f : OpenFile) :
    (s.setFile f).pc0 = s.pc0 := rfl

@[simp] theorem setFile_files (s : State) (f : OpenFile) :
    (s.setFile f).files = s.files.set (s.reg .r0).toNat f := rfl

@[simp] theorem setFile_watch (s : State) (f : OpenFile) :
    (s.setFile f).watch = s.watch := rfl

@[simp] theorem setFile_breakpoints (s : State) (f : OpenFile) :
    (s.setFile f).breakpoints = s.breakpoints := rfl

@[simp] theorem setFile_breakHit (s : State) (f : OpenFile) :
    (s.setFile f).breakHit = s.breakHit := rfl

@[simp] theorem setFile_breakAddr (s : State) (f : OpenFile) :
    (s.setFile f).breakAddr = s.breakAddr := rfl

@[simp] theorem setFile_hostIn (s : State) (f : OpenFile) :
    (s.setFile f).hostIn = s.hostIn := rfl

@[simp] theorem setFile_hostOut (s : State) (f : OpenFile) :
    (s.setFile f).hostOut = s.hostOut := rfl

@[simp] theorem setFile_hostAnswers (s : State) (f : OpenFile) :
    (s.setFile f).hostAnswers = s.hostAnswers := rfl

@[simp] theorem setFile_hostCalls (s : State) (f : OpenFile) :
    (s.setFile f).hostCalls = s.hostCalls := rfl

@[simp] theorem setFile_watchLog (s : State) (f : OpenFile) :
    (s.setFile f).watchLog = s.watchLog := rfl

@[simp] theorem setFile_freeCount (s : State) (f : OpenFile) :
    (s.setFile f).freeCount = s.freeCount := rfl

@[simp] theorem setFile_reg (s : State) (f : OpenFile) (m : Reg) :
    (s.setFile f).reg m = s.reg m := rfl

@[simp] theorem setFile_bank (s : State) (f : OpenFile) (x : View) :
    (s.setFile f).bank x = s.bank x := rfl

/-! ## hitBreakpoint -/

@[simp] theorem hitBreakpoint_regs (s : State) :
    (s.hitBreakpoint).regs = s.regs := rfl

@[simp] theorem hitBreakpoint_flags (s : State) :
    (s.hitBreakpoint).flags = s.flags := rfl

@[simp] theorem hitBreakpoint_halted (s : State) :
    (s.hitBreakpoint).halted = s.halted := rfl

@[simp] theorem hitBreakpoint_memBank (s : State) :
    (s.hitBreakpoint).memBank = s.memBank := rfl

@[simp] theorem hitBreakpoint_mem (s : State) :
    (s.hitBreakpoint).mem = s.mem := rfl

@[simp] theorem hitBreakpoint_pc0 (s : State) :
    (s.hitBreakpoint).pc0 = s.pc0 := rfl

@[simp] theorem hitBreakpoint_files (s : State) :
    (s.hitBreakpoint).files = s.files := rfl

@[simp] theorem hitBreakpoint_watch (s : State) :
    (s.hitBreakpoint).watch = s.watch := rfl

@[simp] theorem hitBreakpoint_breakpoints (s : State) :
    (s.hitBreakpoint).breakpoints = s.breakpoints := rfl

@[simp] theorem hitBreakpoint_breakHit (s : State) :
    (s.hitBreakpoint).breakHit = true := rfl

@[simp] theorem hitBreakpoint_breakAddr (s : State) :
    (s.hitBreakpoint).breakAddr = s.pc := rfl

@[simp] theorem hitBreakpoint_hostIn (s : State) :
    (s.hitBreakpoint).hostIn = s.hostIn := rfl

@[simp] theorem hitBreakpoint_hostOut (s : State) :
    (s.hitBreakpoint).hostOut = s.hostOut := rfl

@[simp] theorem hitBreakpoint_hostAnswers (s : State) :
    (s.hitBreakpoint).hostAnswers = s.hostAnswers := rfl

@[simp] theorem hitBreakpoint_hostCalls (s : State) :
    (s.hitBreakpoint).hostCalls = s.hostCalls := rfl

@[simp] theorem hitBreakpoint_watchLog (s : State) :
    (s.hitBreakpoint).watchLog = s.watchLog := rfl

@[simp] theorem hitBreakpoint_freeCount (s : State) :
    (s.hitBreakpoint).freeCount = s.freeCount := rfl

@[simp] theorem hitBreakpoint_reg (s : State) (m : Reg) :
    (s.hitBreakpoint).reg m = s.reg m := rfl

@[simp] theorem hitBreakpoint_bank (s : State) (x : View) :
    (s.hitBreakpoint).bank x = s.bank x := rfl

/-! ## Register reads and writes -/

theorem Regs.get_set_same (g : Regs) (n : Reg) (v : Word) : (g.set n v).get n = v := by cases n <;> rfl

theorem Regs.get_set_ne (g : Regs) {m n : Reg} (v : Word) (h : m ≠ n) : (g.set n v).get m = g.get m := by
  cases n <;> cases m <;> first | rfl | exact absurd rfl h

theorem Regs.get_set (g : Regs) (m n : Reg) (v : Word) :
    (g.set n v).get m = if m = n then v else g.get m := by
  by_cases h : m = n
  · simp [h, Regs.get_set_same]
  · simp [h, Regs.get_set_ne]

theorem Regs.set_set (g : Regs) (n : Reg) (u v : Word) : (g.set n u).set n v = g.set n v := by
  cases n <;> rfl

theorem Regs.set_get (g : Regs) (n : Reg) : g.set n (g.get n) = g := by cases n <;> rfl

theorem Regs.ext_get {g h : Regs} (e : ∀ n, g.get n = h.get n) : g = h := by
  have h0 := e .r0; have h1 := e .r1; have h2 := e .r2; have h3 := e .r3
  have h4 := e .r4; have h5 := e .r5; have h6 := e .r6; have h7 := e .r7
  cases g; cases h
  simp_all [Regs.get]

@[simp] theorem setReg_reg_same (s : State) (n : Reg) (v : Word) : (s.setReg n v).reg n = v :=
  Regs.get_set_same s.regs n v

@[simp] theorem setReg_reg_ne (s : State) {m n : Reg} (v : Word) (h : m ≠ n) :
    (s.setReg n v).reg m = s.reg m :=
  Regs.get_set_ne s.regs v h

theorem setReg_reg (s : State) (m n : Reg) (v : Word) :
    (s.setReg n v).reg m = if m = n then v else s.reg m :=
  Regs.get_set s.regs m n v

theorem setReg_setReg (s : State) (n : Reg) (u v : Word) : (s.setReg n u).setReg n v = s.setReg n v := by
  simp [State.setReg, Regs.set_set]

@[simp] theorem pc_eq_reg (s : State) : s.pc = s.reg .r7 := rfl

@[simp] theorem sp_eq_reg (s : State) : s.sp = s.reg .r6 := rfl

/-! ## Reads, fetches, draws: the value and the state -/

@[simp] theorem readWord_fst (s : State) (v : View) (a : Word) (k : Access) :
    (s.readWord v a k).1 = s.mem.readWord (s.bank v) a := rfl

@[simp] theorem readWord_snd (s : State) (v : View) (a : Word) (k : Access) :
    (s.readWord v a k).2 = s.logAccess k .read a .word (s.mem.readWord (s.bank v) a) := rfl

@[simp] theorem readByte_fst (s : State) (v : View) (a : Word) (k : Access) :
    (s.readByte v a k).1 = s.mem.readByte (s.bank v) a := rfl

@[simp] theorem readByte_snd (s : State) (v : View) (a : Word) (k : Access) :
    (s.readByte v a k).2 =
      s.logAccess k .read a .byte ((s.mem.readByte (s.bank v) a).setWidth 16) := rfl

@[simp] theorem fetchWord_fst (s : State) : s.fetchWord.1 = s.mem.readWord 0 s.pc := rfl

@[simp] theorem fetchWord_snd (s : State) :
    s.fetchWord.2 =
      (s.logAccess .fetch .read s.pc .word (s.mem.readWord 0 s.pc)).setReg .r7 (s.pc + 2) := rfl

@[simp] theorem fetchInstr_fst (s : State) : s.fetchInstr.1 = s.mem.readWord 0 s.pc := rfl

/-! ## fetchInstr -/

@[simp] theorem fetchInstr_regs (s : State) : s.fetchInstr.2.regs = s.regs.set .r7 (s.pc + 2) := rfl

@[simp] theorem fetchInstr_flags (s : State) : s.fetchInstr.2.flags = s.flags := rfl

@[simp] theorem fetchInstr_halted (s : State) : s.fetchInstr.2.halted = s.halted := rfl

@[simp] theorem fetchInstr_memBank (s : State) : s.fetchInstr.2.memBank = s.memBank := rfl

@[simp] theorem fetchInstr_mem (s : State) : s.fetchInstr.2.mem = s.mem := rfl

@[simp] theorem fetchInstr_pc0 (s : State) : s.fetchInstr.2.pc0 = s.pc := rfl

@[simp] theorem fetchInstr_files (s : State) : s.fetchInstr.2.files = s.files := rfl

@[simp] theorem fetchInstr_watch (s : State) : s.fetchInstr.2.watch = s.watch := rfl

@[simp] theorem fetchInstr_breakpoints (s : State) : s.fetchInstr.2.breakpoints = s.breakpoints := rfl

@[simp] theorem fetchInstr_breakHit (s : State) : s.fetchInstr.2.breakHit = s.breakHit := rfl

@[simp] theorem fetchInstr_breakAddr (s : State) : s.fetchInstr.2.breakAddr = s.breakAddr := rfl

@[simp] theorem fetchInstr_hostIn (s : State) : s.fetchInstr.2.hostIn = s.hostIn := rfl

@[simp] theorem fetchInstr_hostOut (s : State) : s.fetchInstr.2.hostOut = s.hostOut := rfl

@[simp] theorem fetchInstr_hostAnswers (s : State) : s.fetchInstr.2.hostAnswers = s.hostAnswers := rfl

@[simp] theorem fetchInstr_hostCalls (s : State) : s.fetchInstr.2.hostCalls = s.hostCalls := rfl

@[simp] theorem fetchInstr_freeCount (s : State) : s.fetchInstr.2.freeCount = s.freeCount := rfl

theorem fetchInstr_reg (s : State) (m : Reg) :
    s.fetchInstr.2.reg m = if m = .r7 then s.pc + 2 else s.reg m :=
  Regs.get_set s.regs m .r7 (s.pc + 2)

/-! ## drawFlag -/

@[simp] theorem drawFlag_regs (s : State) : s.drawFlag.2.regs = s.regs := rfl

@[simp] theorem drawFlag_flags (s : State) : s.drawFlag.2.flags = s.flags := rfl

@[simp] theorem drawFlag_halted (s : State) : s.drawFlag.2.halted = s.halted := rfl

@[simp] theorem drawFlag_memBank (s : State) : s.drawFlag.2.memBank = s.memBank := rfl

@[simp] theorem drawFlag_mem (s : State) : s.drawFlag.2.mem = s.mem := rfl

@[simp] theorem drawFlag_pc0 (s : State) : s.drawFlag.2.pc0 = s.pc0 := rfl

@[simp] theorem drawFlag_files (s : State) : s.drawFlag.2.files = s.files := rfl

@[simp] theorem drawFlag_watch (s : State) : s.drawFlag.2.watch = s.watch := rfl

@[simp] theorem drawFlag_breakpoints (s : State) : s.drawFlag.2.breakpoints = s.breakpoints := rfl

@[simp] theorem drawFlag_breakHit (s : State) : s.drawFlag.2.breakHit = s.breakHit := rfl

@[simp] theorem drawFlag_breakAddr (s : State) : s.drawFlag.2.breakAddr = s.breakAddr := rfl

@[simp] theorem drawFlag_hostIn (s : State) : s.drawFlag.2.hostIn = s.hostIn := rfl

@[simp] theorem drawFlag_hostOut (s : State) : s.drawFlag.2.hostOut = s.hostOut := rfl

@[simp] theorem drawFlag_hostAnswers (s : State) : s.drawFlag.2.hostAnswers = s.hostAnswers := rfl

@[simp] theorem drawFlag_hostCalls (s : State) : s.drawFlag.2.hostCalls = s.hostCalls := rfl

@[simp] theorem drawFlag_watchLog (s : State) : s.drawFlag.2.watchLog = s.watchLog := rfl

@[simp] theorem drawFlag_freeCount (s : State) : s.drawFlag.2.freeCount = s.freeCount + 1 := rfl

@[simp] theorem drawFlag_reg (s : State) (m : Reg) : s.drawFlag.2.reg m = s.reg m := rfl

/-! ## drawWord -/

@[simp] theorem drawWord_regs (s : State) : s.drawWord.2.regs = s.regs := rfl

@[simp] theorem drawWord_flags (s : State) : s.drawWord.2.flags = s.flags := rfl

@[simp] theorem drawWord_halted (s : State) : s.drawWord.2.halted = s.halted := rfl

@[simp] theorem drawWord_memBank (s : State) : s.drawWord.2.memBank = s.memBank := rfl

@[simp] theorem drawWord_mem (s : State) : s.drawWord.2.mem = s.mem := rfl

@[simp] theorem drawWord_pc0 (s : State) : s.drawWord.2.pc0 = s.pc0 := rfl

@[simp] theorem drawWord_files (s : State) : s.drawWord.2.files = s.files := rfl

@[simp] theorem drawWord_watch (s : State) : s.drawWord.2.watch = s.watch := rfl

@[simp] theorem drawWord_breakpoints (s : State) : s.drawWord.2.breakpoints = s.breakpoints := rfl

@[simp] theorem drawWord_breakHit (s : State) : s.drawWord.2.breakHit = s.breakHit := rfl

@[simp] theorem drawWord_breakAddr (s : State) : s.drawWord.2.breakAddr = s.breakAddr := rfl

@[simp] theorem drawWord_hostIn (s : State) : s.drawWord.2.hostIn = s.hostIn := rfl

@[simp] theorem drawWord_hostOut (s : State) : s.drawWord.2.hostOut = s.hostOut := rfl

@[simp] theorem drawWord_hostAnswers (s : State) : s.drawWord.2.hostAnswers = s.hostAnswers := rfl

@[simp] theorem drawWord_hostCalls (s : State) : s.drawWord.2.hostCalls = s.hostCalls := rfl

@[simp] theorem drawWord_watchLog (s : State) : s.drawWord.2.watchLog = s.watchLog := rfl

@[simp] theorem drawWord_freeCount (s : State) : s.drawWord.2.freeCount = s.freeCount + 1 := rfl

@[simp] theorem drawWord_reg (s : State) (m : Reg) : s.drawWord.2.reg m = s.reg m := rfl

/-! ## inChar -/

@[simp] theorem inChar_regs (s : State) : s.inChar.2.regs = s.regs := rfl

@[simp] theorem inChar_flags (s : State) : s.inChar.2.flags = s.flags := rfl

@[simp] theorem inChar_halted (s : State) : s.inChar.2.halted = s.halted := rfl

@[simp] theorem inChar_memBank (s : State) : s.inChar.2.memBank = s.memBank := rfl

@[simp] theorem inChar_mem (s : State) : s.inChar.2.mem = s.mem := rfl

@[simp] theorem inChar_pc0 (s : State) : s.inChar.2.pc0 = s.pc0 := rfl

@[simp] theorem inChar_files (s : State) : s.inChar.2.files = s.files := rfl

@[simp] theorem inChar_watch (s : State) : s.inChar.2.watch = s.watch := rfl

@[simp] theorem inChar_breakpoints (s : State) : s.inChar.2.breakpoints = s.breakpoints := rfl

@[simp] theorem inChar_breakHit (s : State) : s.inChar.2.breakHit = s.breakHit := rfl

@[simp] theorem inChar_breakAddr (s : State) : s.inChar.2.breakAddr = s.breakAddr := rfl

@[simp] theorem inChar_hostIn (s : State) : s.inChar.2.hostIn = s.hostIn.tail := rfl

@[simp] theorem inChar_hostOut (s : State) : s.inChar.2.hostOut = s.hostOut := rfl

@[simp] theorem inChar_hostAnswers (s : State) : s.inChar.2.hostAnswers = s.hostAnswers := rfl

@[simp] theorem inChar_hostCalls (s : State) : s.inChar.2.hostCalls = s.hostCalls := rfl

@[simp] theorem inChar_watchLog (s : State) : s.inChar.2.watchLog = s.watchLog := rfl

@[simp] theorem inChar_freeCount (s : State) : s.inChar.2.freeCount = s.freeCount := rfl

@[simp] theorem inChar_reg (s : State) (m : Reg) : s.inChar.2.reg m = s.reg m := rfl

/-! ## setZ -/

@[simp] theorem setZ_regs (s : State) (b : Bool) : (s.setZ b).regs = s.regs := rfl

@[simp] theorem setZ_flags (s : State) (b : Bool) : (s.setZ b).flags = { s.flags with z := b } := rfl

@[simp] theorem setZ_halted (s : State) (b : Bool) : (s.setZ b).halted = s.halted := rfl

@[simp] theorem setZ_memBank (s : State) (b : Bool) : (s.setZ b).memBank = s.memBank := rfl

@[simp] theorem setZ_mem (s : State) (b : Bool) : (s.setZ b).mem = s.mem := rfl

@[simp] theorem setZ_pc0 (s : State) (b : Bool) : (s.setZ b).pc0 = s.pc0 := rfl

@[simp] theorem setZ_files (s : State) (b : Bool) : (s.setZ b).files = s.files := rfl

@[simp] theorem setZ_watch (s : State) (b : Bool) : (s.setZ b).watch = s.watch := rfl

@[simp] theorem setZ_breakpoints (s : State) (b : Bool) : (s.setZ b).breakpoints = s.breakpoints := rfl

@[simp] theorem setZ_breakHit (s : State) (b : Bool) : (s.setZ b).breakHit = s.breakHit := rfl

@[simp] theorem setZ_breakAddr (s : State) (b : Bool) : (s.setZ b).breakAddr = s.breakAddr := rfl

@[simp] theorem setZ_hostIn (s : State) (b : Bool) : (s.setZ b).hostIn = s.hostIn := rfl

@[simp] theorem setZ_hostOut (s : State) (b : Bool) : (s.setZ b).hostOut = s.hostOut := rfl

@[simp] theorem setZ_hostAnswers (s : State) (b : Bool) : (s.setZ b).hostAnswers = s.hostAnswers := rfl

@[simp] theorem setZ_hostCalls (s : State) (b : Bool) : (s.setZ b).hostCalls = s.hostCalls := rfl

@[simp] theorem setZ_watchLog (s : State) (b : Bool) : (s.setZ b).watchLog = s.watchLog := rfl

@[simp] theorem setZ_freeCount (s : State) (b : Bool) : (s.setZ b).freeCount = s.freeCount := rfl

@[simp] theorem setZ_reg (s : State) (b : Bool) (m : Reg) : (s.setZ b).reg m = s.reg m := rfl

/-! ## freeZ -/

@[simp] theorem freeZ_regs (s : State) : s.freeZ.regs = s.regs := rfl

@[simp] theorem freeZ_flags (s : State) : s.freeZ.flags = { s.flags with z := Config.freeFlag s.freeCount } := rfl

@[simp] theorem freeZ_halted (s : State) : s.freeZ.halted = s.halted := rfl

@[simp] theorem freeZ_memBank (s : State) : s.freeZ.memBank = s.memBank := rfl

@[simp] theorem freeZ_mem (s : State) : s.freeZ.mem = s.mem := rfl

@[simp] theorem freeZ_pc0 (s : State) : s.freeZ.pc0 = s.pc0 := rfl

@[simp] theorem freeZ_files (s : State) : s.freeZ.files = s.files := rfl

@[simp] theorem freeZ_watch (s : State) : s.freeZ.watch = s.watch := rfl

@[simp] theorem freeZ_breakpoints (s : State) : s.freeZ.breakpoints = s.breakpoints := rfl

@[simp] theorem freeZ_breakHit (s : State) : s.freeZ.breakHit = s.breakHit := rfl

@[simp] theorem freeZ_breakAddr (s : State) : s.freeZ.breakAddr = s.breakAddr := rfl

@[simp] theorem freeZ_hostIn (s : State) : s.freeZ.hostIn = s.hostIn := rfl

@[simp] theorem freeZ_hostOut (s : State) : s.freeZ.hostOut = s.hostOut := rfl

@[simp] theorem freeZ_hostAnswers (s : State) : s.freeZ.hostAnswers = s.hostAnswers := rfl

@[simp] theorem freeZ_hostCalls (s : State) : s.freeZ.hostCalls = s.hostCalls := rfl

@[simp] theorem freeZ_watchLog (s : State) : s.freeZ.watchLog = s.watchLog := rfl

@[simp] theorem freeZ_freeCount (s : State) : s.freeZ.freeCount = s.freeCount + 1 := rfl

@[simp] theorem freeZ_reg (s : State) (m : Reg) : s.freeZ.reg m = s.reg m := rfl

/-! ## callHost -/

@[simp] theorem callHost_regs (s : State) (c : FileCall) : (s.callHost c).2.regs = s.regs := by
  unfold State.callHost
  split <;> rfl

@[simp] theorem callHost_flags (s : State) (c : FileCall) : (s.callHost c).2.flags = s.flags := by
  unfold State.callHost
  split <;> rfl

@[simp] theorem callHost_halted (s : State) (c : FileCall) : (s.callHost c).2.halted = s.halted := by
  unfold State.callHost
  split <;> rfl

@[simp] theorem callHost_memBank (s : State) (c : FileCall) : (s.callHost c).2.memBank = s.memBank := by
  unfold State.callHost
  split <;> rfl

@[simp] theorem callHost_mem (s : State) (c : FileCall) : (s.callHost c).2.mem = s.mem := by
  unfold State.callHost
  split <;> rfl

@[simp] theorem callHost_pc0 (s : State) (c : FileCall) : (s.callHost c).2.pc0 = s.pc0 := by
  unfold State.callHost
  split <;> rfl

@[simp] theorem callHost_files (s : State) (c : FileCall) : (s.callHost c).2.files = s.files := by
  unfold State.callHost
  split <;> rfl

@[simp] theorem callHost_watch (s : State) (c : FileCall) : (s.callHost c).2.watch = s.watch := by
  unfold State.callHost
  split <;> rfl

@[simp] theorem callHost_breakpoints (s : State) (c : FileCall) : (s.callHost c).2.breakpoints = s.breakpoints := by
  unfold State.callHost
  split <;> rfl

@[simp] theorem callHost_breakHit (s : State) (c : FileCall) : (s.callHost c).2.breakHit = s.breakHit := by
  unfold State.callHost
  split <;> rfl

@[simp] theorem callHost_breakAddr (s : State) (c : FileCall) : (s.callHost c).2.breakAddr = s.breakAddr := by
  unfold State.callHost
  split <;> rfl

@[simp] theorem callHost_hostIn (s : State) (c : FileCall) : (s.callHost c).2.hostIn = s.hostIn := by
  unfold State.callHost
  split <;> rfl

@[simp] theorem callHost_hostOut (s : State) (c : FileCall) : (s.callHost c).2.hostOut = s.hostOut := by
  unfold State.callHost
  split <;> rfl

@[simp] theorem callHost_hostCalls (s : State) (c : FileCall) : (s.callHost c).2.hostCalls = s.hostCalls ++ [c] := by
  unfold State.callHost
  split <;> rfl

@[simp] theorem callHost_watchLog (s : State) (c : FileCall) : (s.callHost c).2.watchLog = s.watchLog := by
  unfold State.callHost
  split <;> rfl

@[simp] theorem callHost_reg (s : State) (c : FileCall) (m : Reg) : (s.callHost c).2.reg m = s.reg m := by
  unfold State.callHost
  split <;> rfl

/-- A scripted answer is the one the host gives, and it is used up. -/
theorem callHost_scripted (s : State) (c : FileCall) (a : HostAnswer) (rest : List HostAnswer)
    (h : s.hostAnswers = a :: rest) :
    s.callHost c = (a, { s with hostAnswers := rest, hostCalls := s.hostCalls ++ [c] }) := by
  simp [State.callHost, h]

end Sys2Proof.Machine
end

