-- ==== Sys2Proof/Laws/Memory.lean ====
section
/-! SUPPORT. The laws of sorted lists, of memory (read after write, byte order, canonical form) and of the
file table and breakpoint set's canonical forms. -/

namespace Sys2Proof.Machine

/-! ## The watch log -/

theorem watchPc_cases (s : State) : s.watchPc = s.pc0 ∨ s.watchPc = s.reg .r7 := by
  unfold State.watchPc
  cases Config.watchPc
  · exact .inl rfl
  · exact .inr rfl

theorem watches_operand (s : State) (a : Word) : s.watches .operand a = decide (watchMatches s a) := by
  simp [State.watches, watchMatches, BitVec.ule]

/-- An operand access is logged exactly when the memory-watch matches. -/
theorem logAccess_operand (s : State) (d : Direction) (a : Word) (z : Size) (v : Word) :
    Logged s (s.logAccess .operand d a z v) d a z v := by
  refine ⟨s.watchPc, watchPc_cases s, ?_⟩
  simp only [State.logAccess, watches_operand, decide_eq_true_eq]
  split <;> simp

/-- A fetch is logged in the same way, or no fetch is logged. -/
theorem logAccess_fetch (s : State) (d : Direction) (a : Word) (z : Size) (v : Word) :
    (s.logAccess .fetch d a z v).watchLog = s.watchLog ∨ Logged s (s.logAccess .fetch d a z v) d a z v := by
  cases h : Config.watchLogsFetch with
  | false => exact .inl (by simp [State.logAccess, State.watches, h])
  | true =>
    have hw : s.watches .fetch a = s.watches .operand a := by simp [State.watches, h]
    refine .inr ?_
    unfold State.logAccess
    rw [hw]
    exact logAccess_operand s d a z v

/-! ## Sorted lists of key and value -/

section Keys

variable {α : Type}

theorem lookupKey_erase (l : List (Nat × α)) (k j : Nat) :
    lookupKey (eraseKey l k) j = if j = k then none else lookupKey l j := by
  induction l with
  | nil => simp [eraseKey, lookupKey]
  | cons e t ih =>
    by_cases hk : e.1 = k
    · simp only [eraseKey, hk, if_true, ih]
      by_cases hj : j = k
      · simp [hj]
      · have : ¬ k = j := fun h => hj h.symm
        simp [hj, lookupKey, hk, this]
    · simp only [eraseKey, hk, if_false, lookupKey, ih]
      by_cases hj : e.1 = j
      · have : ¬ j = k := fun h => hk (hj.trans h)
        simp [hj, this]
      · simp [hj]

theorem lookupKey_insert (l : List (Nat × α)) (k : Nat) (v : α) (j : Nat)
    (h : lookupKey l k = none) :
    lookupKey (insertKey l k v) j = if j = k then some v else lookupKey l j := by
  induction l with
  | nil =>
    by_cases hj : j = k
    · simp [insertKey, lookupKey, hj]
    · have : ¬ k = j := fun h => hj h.symm
      simp [insertKey, lookupKey, hj, this]
  | cons e t ih =>
    by_cases he : e.1 = k
    · simp [lookupKey, he] at h
    · have ht : lookupKey t k = none := by simpa [lookupKey, he] using h
      by_cases hlt : k < e.1
      · by_cases hj : j = k
        · simp [insertKey, hlt, lookupKey, hj]
        · have : ¬ k = j := fun h => hj h.symm
          simp [insertKey, hlt, lookupKey, hj, this]
      · simp only [insertKey, hlt, if_false, lookupKey, ih ht]
        by_cases hj : e.1 = j
        · have : ¬ j = k := fun h => he (hj.trans h)
          simp [hj, this]
        · simp [hj]

theorem mem_eraseKey {l : List (Nat × α)} {k : Nat} {e : Nat × α} (h : e ∈ eraseKey l k) :
    e ∈ l ∧ e.1 ≠ k := by
  induction l with
  | nil => simp [eraseKey] at h
  | cons x t ih =>
    by_cases hx : x.1 = k
    · simp only [eraseKey, hx, if_true] at h
      exact ⟨List.mem_cons_of_mem _ (ih h).1, (ih h).2⟩
    · simp only [eraseKey, hx, if_false, List.mem_cons] at h
      rcases h with rfl | h
      · exact ⟨List.mem_cons_self, hx⟩
      · exact ⟨List.mem_cons_of_mem _ (ih h).1, (ih h).2⟩

theorem mem_insertKey {l : List (Nat × α)} {k : Nat} {v : α} {e : Nat × α}
    (h : e ∈ insertKey l k v) : e = (k, v) ∨ e ∈ l := by
  induction l with
  | nil => simpa [insertKey] using h
  | cons x t ih =>
    by_cases hx : k < x.1
    · simpa [insertKey, hx] using h
    · simp only [insertKey, hx, if_false, List.mem_cons] at h
      rcases h with rfl | h
      · exact .inr List.mem_cons_self
      · exact (ih h).imp id (List.mem_cons_of_mem _)

theorem eraseKey_rises {l : List (Nat × α)} (k : Nat) (h : l.Pairwise (fun x y => x.1 < y.1)) :
    (eraseKey l k).Pairwise (fun x y => x.1 < y.1) := by
  induction l with
  | nil => simp [eraseKey]
  | cons x t ih =>
    rw [List.pairwise_cons] at h
    by_cases hx : x.1 = k
    · simpa [eraseKey, hx] using ih h.2
    · simp only [eraseKey, hx, if_false, List.pairwise_cons]
      exact ⟨fun e he => h.1 e (mem_eraseKey he).1, ih h.2⟩

theorem insertKey_rises {l : List (Nat × α)} (k : Nat) (v : α)
    (h : l.Pairwise (fun x y => x.1 < y.1)) (hk : ∀ e ∈ l, e.1 ≠ k) :
    (insertKey l k v).Pairwise (fun x y => x.1 < y.1) := by
  induction l with
  | nil => simp [insertKey]
  | cons x t ih =>
    have h' := List.pairwise_cons.mp h
    have hx : x.1 ≠ k := hk x List.mem_cons_self
    by_cases hlt : k < x.1
    · simp only [insertKey, hlt, if_true, List.pairwise_cons]
      refine ⟨fun e he => ?_, h'.1, h'.2⟩
      rcases List.mem_cons.mp he with rfl | he
      · exact hlt
      · exact Nat.lt_trans hlt (h'.1 e he)
    · simp only [insertKey, hlt, if_false, List.pairwise_cons]
      refine ⟨fun e he => ?_, ih h'.2 fun e he => hk e (List.mem_cons_of_mem _ he)⟩
      rcases mem_insertKey he with rfl | he
      · show x.1 < k
        omega
      · exact h'.1 e he

theorem lookupKey_some_mem {l : List (Nat × α)} {k : Nat} {v : α} (h : lookupKey l k = some v) :
    (k, v) ∈ l := by
  induction l with
  | nil => simp [lookupKey] at h
  | cons e t ih =>
    by_cases he : e.1 = k
    · simp only [lookupKey, he, if_true, Option.some.injEq] at h
      exact List.mem_cons.mpr (.inl (by rw [← he, ← h]))
    · simp only [lookupKey, he, if_false] at h
      exact List.mem_cons_of_mem _ (ih h)

end Keys

/-! ## Memory: read after write -/

theorem Memory.read_write (m : Memory) (pa : Nat) (b : Byte) (qa : Nat) :
    (m.write pa b).read qa = if qa = pa then b else m.read qa := by
  unfold Memory.write Memory.read
  by_cases hb : b = Memory.unlisted
  · by_cases hq : qa = pa
    · simp [hb, lookupKey_erase, hq]
    · simp [hb, lookupKey_erase, hq]
  · have hn : lookupKey (eraseKey m pa) pa = none := by simp [lookupKey_erase]
    by_cases hq : qa = pa
    · simp [hb, lookupKey_insert _ _ _ _ hn, hq]
    · simp [hb, lookupKey_insert _ _ _ _ hn, lookupKey_erase, hq]

theorem physAddr_inj {b c : BitVec 2} {x y : Word} (h : physAddr b x = physAddr c y) :
    b = c ∧ x = y := by
  unfold physAddr at h
  have hx := x.isLt
  have hy := y.isLt
  constructor
  · apply BitVec.eq_of_toNat_eq
    omega
  · apply BitVec.eq_of_toNat_eq
    omega

theorem physAddr_lt (b : BitVec 2) (x : Word) : physAddr b x < Memory.size := by
  unfold physAddr Memory.size
  have hb := b.isLt
  have hx := x.isLt
  omega

theorem Memory.readByte_writeByte (m : Memory) (b c : BitVec 2) (x y : Word) (v : Byte) :
    (m.writeByte b x v).readByte c y = if c = b ∧ y = x then v else m.readByte c y := by
  unfold Memory.writeByte Memory.readByte
  rw [Memory.read_write]
  by_cases h : physAddr c y = physAddr b x
  · rw [if_pos h, if_pos (physAddr_inj h)]
  · have : ¬ (c = b ∧ y = x) := by
      rintro ⟨rfl, rfl⟩
      exact h rfl
    rw [if_neg h, if_neg this]

/-- A byte and the one after it are two places, also at 0xFFFF (rule R35). -/
theorem word_add_one_ne (a : Word) : a + 1 ≠ a := by
  intro h
  have := congrArg BitVec.toNat h
  rw [BitVec.toNat_add] at this
  have := a.isLt
  simp at *

theorem Memory.readByte_writeWord (m : Memory) (b c : BitVec 2) (x y : Word) (v : Word) :
    (m.writeWord b x v).readByte c y =
      if c = b ∧ y = x + 1 then highByte v else if c = b ∧ y = x then lowByte v else m.readByte c y := by
  unfold Memory.writeWord
  rw [Memory.readByte_writeByte, Memory.readByte_writeByte]

theorem joinBytes_low_high (v : Word) : joinBytes (lowByte v) (highByte v) = v := by
  unfold joinBytes lowByte highByte
  apply BitVec.eq_of_getLsbD_eq
  intro i hi
  simp only [BitVec.getLsbD_append, BitVec.getLsbD_extractLsb']
  by_cases h : i < 8
  · simp [h]
  · have h8 : i - 8 < 8 := by omega
    have : 8 + (i - 8) = i := by omega
    simp [h, h8, this]

@[simp] theorem lowByte_join (lo hi : Byte) : lowByte (joinBytes lo hi) = lo := by
  unfold joinBytes lowByte
  apply BitVec.eq_of_getLsbD_eq
  intro i hi'
  simp only [BitVec.getLsbD_append, BitVec.getLsbD_extractLsb']
  simp [hi']

@[simp] theorem highByte_join (lo hi : Byte) : highByte (joinBytes lo hi) = hi := by
  unfold joinBytes highByte
  apply BitVec.eq_of_getLsbD_eq
  intro i hi'
  simp only [BitVec.getLsbD_append, BitVec.getLsbD_extractLsb']
  simp [hi']

/-- Rule R32's formula: `lo | (hi << 8)`. -/
theorem joinBytes_eq_or (lo hi : Byte) : joinBytes lo hi = lo.setWidth 16 ||| (hi.setWidth 16 <<< 8) := by
  unfold joinBytes
  apply BitVec.eq_of_getLsbD_eq
  intro i hi'
  simp only [BitVec.getLsbD_append, BitVec.getLsbD_or, BitVec.getLsbD_setWidth, BitVec.getLsbD_shiftLeft]
  by_cases h : i < 8
  · simp [h, hi']
  · have hl : lo.getLsbD i = false := BitVec.getLsbD_of_ge _ _ (by omega)
    have h1 : i - 8 < 16 := by omega
    simp [h, hi', hl, h1]

theorem Memory.readWord_writeWord_same (m : Memory) (b : BitVec 2) (x : Word) (v : Word) :
    (m.writeWord b x v).readWord b x = v := by
  unfold Memory.readWord
  rw [Memory.readByte_writeWord, Memory.readByte_writeWord]
  have h : ¬ x = x + 1 := fun h => word_add_one_ne x h.symm
  have h' : x + 1 ≠ x := word_add_one_ne x
  simp only [h, and_false, if_false, and_self, if_true]
  exact joinBytes_low_high v

/-! ## Memory: the canonical form -/

theorem Memory.wf_empty : Memory.wf [] := ⟨List.Pairwise.nil, by simp⟩

theorem Memory.write_wf {m : Memory} (h : Memory.wf m) (pa : Nat) (b : Byte) (hp : pa < Memory.size) :
    Memory.wf (m.write pa b) := by
  obtain ⟨h1, h2⟩ := h
  have he : Memory.wf (eraseKey m pa) :=
    ⟨eraseKey_rises pa h1, fun e he => h2 e (mem_eraseKey he).1⟩
  unfold Memory.write
  by_cases hb : b = Memory.unlisted
  · rw [if_pos hb]
    exact he
  · rw [if_neg hb]
    refine ⟨insertKey_rises pa b he.1 fun e hm => (mem_eraseKey hm).2, fun e hm => ?_⟩
    rcases mem_insertKey hm with rfl | hm
    · exact ⟨hp, hb⟩
    · exact he.2 e hm

theorem Memory.writeByte_wf {m : Memory} (h : Memory.wf m) (b : BitVec 2) (a : Word) (v : Byte) :
    Memory.wf (m.writeByte b a v) :=
  Memory.write_wf h _ _ (physAddr_lt b a)

theorem Memory.writeWord_wf {m : Memory} (h : Memory.wf m) (b : BitVec 2) (a v : Word) :
    Memory.wf (m.writeWord b a v) :=
  Memory.writeByte_wf (Memory.writeByte_wf h _ _ _) _ _ _

theorem Memory.placeCode_wf {m : Memory} (h : Memory.wf m) (a : Word) (l : List Byte) :
    Memory.wf (m.placeCode a l) := by
  induction l generalizing m a with
  | nil => exact h
  | cons b t ih => exact ih (Memory.writeByte_wf h _ _ _) _

/-! ## The file table -/

theorem FileTable.file_set (t : FileTable) (h : Nat) (f : OpenFile) (j : Nat) :
    (t.set h f).file j = if j = h then some f else t.file j := by
  unfold FileTable.set FileTable.file
  rw [lookupKey_insert _ _ _ _ (by simp [lookupKey_erase]), lookupKey_erase]
  by_cases hj : j = h <;> simp [hj]

theorem FileTable.file_vacate (t : FileTable) (h j : Nat) :
    (t.vacate h).file j = if j = h then none else t.file j :=
  lookupKey_erase t h j

theorem FileTable.set_wf {t : FileTable} (w : FileTable.wf t) (h : Nat) (f : OpenFile) (hh : h < 0xFFFF) :
    FileTable.wf (t.set h f) := by
  refine ⟨insertKey_rises h f (eraseKey_rises h w.1) fun e he => (mem_eraseKey he).2, fun e he => ?_⟩
  rcases mem_insertKey he with rfl | he
  · exact hh
  · exact w.2 e (mem_eraseKey he).1

theorem FileTable.vacate_wf {t : FileTable} (w : FileTable.wf t) (h : Nat) : FileTable.wf (t.vacate h) :=
  ⟨eraseKey_rises h w.1, fun e he => w.2 e (mem_eraseKey he).1⟩

theorem FileTable.file_lt {t : FileTable} (w : FileTable.wf t) {h : Nat} {f : OpenFile}
    (hf : t.file h = some f) : h < 0xFFFF :=
  w.2 _ (lookupKey_some_mem hf)

/-- A slot the scan finds is vacant, inside the slots looked at, and the first such. -/
theorem FileTable.scan_spec (t : FileTable) (n h cap j : Nat) (hj : t.scan h cap n = some j) :
    h ≤ j ∧ j < h + cap ∧ j < h + n ∧ t.file j = none ∧ ∀ k, h ≤ k → k < j → t.file k ≠ none := by
  induction n generalizing h cap with
  | zero => simp [FileTable.scan] at hj
  | succ n ih =>
    cases cap with
    | zero => simp [FileTable.scan] at hj
    | succ c =>
      unfold FileTable.scan at hj
      by_cases hv : t.file h = none
      · simp only [hv, Option.isNone_none, if_true, Option.some.injEq] at hj
        subst hj
        exact ⟨Nat.le_refl _, by omega, by omega, hv, fun k h1 h2 => by omega⟩
      · have hn : (t.file h).isNone = false := by
          cases hf : t.file h with
          | none => exact absurd hf hv
          | some f => rfl
        simp only [hn, Bool.false_eq_true, if_false] at hj
        obtain ⟨a1, a2, a3, a4, a5⟩ := ih (h + 1) c hj
        refine ⟨by omega, by omega, by omega, a4, fun k h1 h2 => ?_⟩
        by_cases hk : k = h
        · rw [hk]
          exact hv
        · exact a5 k (by omega) h2

/-- A slot that open takes is below 0xFFFF (rule R187). -/
theorem FileTable.firstVacant_lt (t : FileTable) (j : Nat) (hj : t.firstVacant = some j) : j < 0xFFFF := by
  obtain ⟨-, h2, -⟩ := FileTable.scan_spec t _ _ _ _ hj
  have h3 := Config.firstHandle.isLt
  have h4 := Config.fileTableCapacityPred.isLt
  unfold Config.fileTableCapacity at h2
  omega

/-! ## The breakpoint set -/

theorem mem_insertBreakpoint (l : List Word) (a b : Word) :
    b ∈ insertBreakpoint l a ↔ b = a ∨ b ∈ l := by
  induction l with
  | nil => simp [insertBreakpoint]
  | cons x t ih =>
    unfold insertBreakpoint
    by_cases h1 : a = x
    · subst h1
      simp
    · by_cases h2 : a.ult x
      · simp [h1, h2]
      · simp only [h1, h2, if_false, List.mem_cons, ih, Bool.false_eq_true]
        tauto

theorem insertBreakpoint_rises {l : List Word} (a : Word) (h : BreakpointsRise l) :
    BreakpointsRise (insertBreakpoint l a) := by
  induction l with
  | nil => simp [insertBreakpoint]
  | cons x t ih =>
    have h' := List.pairwise_cons.mp h
    unfold insertBreakpoint
    by_cases h1 : a = x
    · simpa [h1] using h
    · by_cases h2 : a.ult x
      · simp only [h1, h2, if_true, if_false]
        refine List.pairwise_cons.mpr ⟨fun y hy => ?_, h⟩
        have hax : a.toNat < x.toNat := by simpa [BitVec.ult] using h2
        rcases List.mem_cons.mp hy with rfl | hy
        · exact hax
        · exact Nat.lt_trans hax (h'.1 y hy)
      · simp only [h1, h2, if_false, Bool.false_eq_true]
        refine List.pairwise_cons.mpr ⟨fun y hy => ?_, ih h'.2⟩
        rcases (mem_insertBreakpoint t a y).mp hy with rfl | hy
        · have hne : x.toNat ≠ y.toNat := fun e => h1 (BitVec.eq_of_toNat_eq e.symm)
          have hle : ¬ y.toNat < x.toNat := by simpa [BitVec.ult] using h2
          omega
        · exact h'.1 y hy

end Sys2Proof.Machine
end

