-- ==== Sys2Proof/Laws/Operands.lean ====
section
/-! SUPPORT. What resolving, reading and writing an operand can do, said once: the frame of `resolve`,
`readTarget…`, `writeTarget…` and `operand…`, and reading back what was written. -/

namespace Sys2Proof.Machine

/-! ## The frame predicates compose -/

section Frames

variable {s t u : State}

theorem OnlyCpuChanged.refl (s : State) : OnlyCpuChanged s s := rfl

theorem OnlyCpuChanged.trans (h : OnlyCpuChanged s t) (k : OnlyCpuChanged t u) : OnlyCpuChanged s u := by
  unfold OnlyCpuChanged at *
  rw [k, h]

theorem OnlyCpuChanged.memBank (h : OnlyCpuChanged s t) : t.memBank = s.memBank := by rw [h]

theorem OnlyCpuChanged.halted (h : OnlyCpuChanged s t) : t.halted = s.halted := by rw [h]

theorem OnlyCpuChanged.pc0 (h : OnlyCpuChanged s t) : t.pc0 = s.pc0 := by rw [h]

theorem OnlyCpuChanged.files (h : OnlyCpuChanged s t) : t.files = s.files := by rw [h]

theorem OnlyCpuChanged.watch (h : OnlyCpuChanged s t) : t.watch = s.watch := by rw [h]

theorem OnlyCpuChanged.breakpoints (h : OnlyCpuChanged s t) : t.breakpoints = s.breakpoints := by rw [h]

theorem OnlyCpuChanged.bank (h : OnlyCpuChanged s t) (v : View) : t.bank v = s.bank v := by
  cases v
  · rfl
  · exact h.memBank

theorem RegsSameOutside.refl (l : List Reg) (s : State) : RegsSameOutside l s s := fun _ _ => rfl

theorem RegsSameOutside.trans {k l : List Reg} (h : RegsSameOutside k s t) (h' : RegsSameOutside l t u) :
    RegsSameOutside (k ++ l) s u := fun n hn => by
  rw [List.mem_append, not_or] at hn
  rw [h' n hn.2, h n hn.1]

theorem RegsSameOutside.mono {k l : List Reg} (h : RegsSameOutside k s t) (hl : ∀ n ∈ k, n ∈ l) :
    RegsSameOutside l s t := fun n hn => h n fun hk => hn (hl n hk)

theorem MemSameOutside.trans {k l : List (BitVec 2 × Word)} (h : MemSameOutside k s t)
    (h' : MemSameOutside l t u) : MemSameOutside (k ++ l) s u := fun b a hn => by
  rw [List.mem_append, not_or] at hn
  rw [h' b a hn.2, h b a hn.1]

theorem memSameOutside_of_eq {l : List (BitVec 2 × Word)} (h : t.mem = s.mem) : MemSameOutside l s t :=
  fun b a _ => by rw [h]

end Frames

/-! ## Resolve -/

theorem resolve_onlyCpu (sp : Spec) (z : Size) (s : State) : OnlyCpuChanged s (resolve sp z s).2 := by
  obtain ⟨m, n⟩ := sp
  cases m <;> rfl

@[simp] theorem resolve_mem (sp : Spec) (z : Size) (s : State) : (resolve sp z s).2.mem = s.mem := by
  obtain ⟨m, n⟩ := sp
  cases m <;> rfl

@[simp] theorem resolve_flags (sp : Spec) (z : Size) (s : State) : (resolve sp z s).2.flags = s.flags := by
  obtain ⟨m, n⟩ := sp
  cases m <;> rfl

@[simp] theorem resolve_memBank (sp : Spec) (z : Size) (s : State) :
    (resolve sp z s).2.memBank = s.memBank := (resolve_onlyCpu sp z s).memBank

@[simp] theorem resolve_pc0 (sp : Spec) (z : Size) (s : State) : (resolve sp z s).2.pc0 = s.pc0 :=
  (resolve_onlyCpu sp z s).pc0

@[simp] theorem resolve_bank (sp : Spec) (z : Size) (s : State) (v : View) :
    (resolve sp z s).2.bank v = s.bank v := (resolve_onlyCpu sp z s).bank v

theorem resolve_regs (sp : Spec) (z : Size) (s : State) :
    RegsSameOutside sp.updates s (resolve sp z s).2 := by
  obtain ⟨m, n⟩ := sp
  intro k hk
  cases m <;> simp [Spec.updates] at hk <;>
    simp [resolve, resolveAutoInc, resolveAutoIncDeferred, resolveAutoDec, resolveAutoDecDeferred,
      resolveIndex, resolveIndexDeferred, hk]

theorem resolve_pc (sp : Spec) (z : Size) (s : State) :
    (resolve sp z s).2.reg .r7 = s.reg .r7 + sp.pcShift := by
  obtain ⟨m, n⟩ := sp
  cases m <;> cases n <;> cases z <;>
    simp [resolve, resolveAutoInc, resolveAutoIncDeferred, resolveAutoDec, resolveAutoDecDeferred,
      resolveIndex, resolveIndexDeferred, Spec.pcShift, delta] <;> bv_omega

/-- Mode 0 gives a register, every other mode a memory location (rule R97). -/
theorem resolve_register (n : Reg) (z : Size) (s : State) : resolve ⟨.register, n⟩ z s = (.reg n, s) := rfl

theorem resolve_hasAddress {sp : Spec} (h : sp.hasAddress = true) (z : Size) (s : State) :
    ∃ v a, (resolve sp z s).1 = .mem v a := by
  obtain ⟨m, n⟩ := sp
  cases m
  · simp [Spec.hasAddress] at h
  all_goals exact ⟨_, _, rfl⟩

theorem resolve_noAddress {sp : Spec} (h : sp.hasAddress = false) (z : Size) (s : State) :
    resolve sp z s = (.reg sp.reg, s) := by
  obtain ⟨m, n⟩ := sp
  cases m
  · rfl
  all_goals simp [Spec.hasAddress] at h

/-! ## Reading a target -/

theorem readTargetWord_onlyCpu (t : Target) (s : State) (k : Access) : OnlyCpuChanged s (readTargetWord t s k).2 := by
  cases t <;> rfl

theorem readTargetByte_onlyCpu (t : Target) (s : State) (k : Access) : OnlyCpuChanged s (readTargetByte t s k).2 := by
  cases t <;> rfl

@[simp] theorem readTargetWord_mem (t : Target) (s : State) (k : Access) : (readTargetWord t s k).2.mem = s.mem := by
  cases t <;> rfl

@[simp] theorem readTargetByte_mem (t : Target) (s : State) (k : Access) : (readTargetByte t s k).2.mem = s.mem := by
  cases t <;> rfl

@[simp] theorem readTargetWord_flags (t : Target) (s : State) (k : Access) : (readTargetWord t s k).2.flags = s.flags := by
  cases t <;> rfl

@[simp] theorem readTargetByte_flags (t : Target) (s : State) (k : Access) : (readTargetByte t s k).2.flags = s.flags := by
  cases t <;> rfl

@[simp] theorem readTargetWord_regs (t : Target) (s : State) (k : Access) : (readTargetWord t s k).2.regs = s.regs := by
  cases t <;> rfl

@[simp] theorem readTargetByte_regs (t : Target) (s : State) (k : Access) : (readTargetByte t s k).2.regs = s.regs := by
  cases t <;> rfl

@[simp] theorem readTargetWord_reg (t : Target) (s : State) (k : Access) (n : Reg) :
    (readTargetWord t s k).2.reg n = s.reg n := by
  cases t <;> rfl

@[simp] theorem readTargetByte_reg (t : Target) (s : State) (k : Access) (n : Reg) :
    (readTargetByte t s k).2.reg n = s.reg n := by
  cases t <;> rfl

/-! ## Resolving and reading -/

theorem operandWord_onlyCpu (sp : Spec) (s : State) : OnlyCpuChanged s (operandWord sp s).2.2 :=
  (resolve_onlyCpu sp .word s).trans (readTargetWord_onlyCpu _ _ _)

theorem operandByte_onlyCpu (sp : Spec) (s : State) : OnlyCpuChanged s (operandByte sp s).2.2 :=
  (resolve_onlyCpu sp .byte s).trans (readTargetByte_onlyCpu _ _ _)

@[simp] theorem operandWord_target (sp : Spec) (s : State) : (operandWord sp s).1 = (resolve sp .word s).1 :=
  rfl

@[simp] theorem operandByte_target (sp : Spec) (s : State) : (operandByte sp s).1 = (resolve sp .byte s).1 :=
  rfl

@[simp] theorem operandWord_mem (sp : Spec) (s : State) : (operandWord sp s).2.2.mem = s.mem := by
  simp [operandWord]

@[simp] theorem operandByte_mem (sp : Spec) (s : State) : (operandByte sp s).2.2.mem = s.mem := by
  simp [operandByte]

@[simp] theorem operandWord_flags (sp : Spec) (s : State) : (operandWord sp s).2.2.flags = s.flags := by
  simp [operandWord]

@[simp] theorem operandByte_flags (sp : Spec) (s : State) : (operandByte sp s).2.2.flags = s.flags := by
  simp [operandByte]

@[simp] theorem operandWord_bank (sp : Spec) (s : State) (v : View) :
    (operandWord sp s).2.2.bank v = s.bank v := (operandWord_onlyCpu sp s).bank v

@[simp] theorem operandByte_bank (sp : Spec) (s : State) (v : View) :
    (operandByte sp s).2.2.bank v = s.bank v := (operandByte_onlyCpu sp s).bank v

theorem operandWord_regs (sp : Spec) (s : State) : RegsSameOutside sp.updates s (operandWord sp s).2.2 :=
  fun n hn => by simpa [operandWord] using resolve_regs sp .word s n hn

theorem operandByte_regs (sp : Spec) (s : State) : RegsSameOutside sp.updates s (operandByte sp s).2.2 :=
  fun n hn => by simpa [operandByte] using resolve_regs sp .byte s n hn

theorem operandWord_pc (sp : Spec) (s : State) :
    (operandWord sp s).2.2.reg .r7 = s.reg .r7 + sp.pcShift := by
  simpa [operandWord] using resolve_pc sp .word s

theorem operandByte_pc (sp : Spec) (s : State) :
    (operandByte sp s).2.2.reg .r7 = s.reg .r7 + sp.pcShift := by
  simpa [operandByte] using resolve_pc sp .byte s

/-- Reading an operand leaves the registers as resolving it did. -/
@[simp] theorem operandWord_reg (sp : Spec) (s : State) (n : Reg) :
    (operandWord sp s).2.2.reg n = (resolve sp .word s).2.reg n := readTargetWord_reg _ _ _ n

@[simp] theorem operandByte_reg (sp : Spec) (s : State) (n : Reg) :
    (operandByte sp s).2.2.reg n = (resolve sp .byte s).2.reg n := readTargetByte_reg _ _ _ n

/-! ## Writing a target -/

theorem writeTargetWord_onlyCpu (t : Target) (v : Word) (s : State) :
    OnlyCpuChanged s (writeTargetWord t v s) := by cases t <;> rfl

theorem writeTargetByte_onlyCpu (t : Target) (b : Byte) (s : State) :
    OnlyCpuChanged s (writeTargetByte t b s) := by cases t <;> rfl

theorem writeTargetSext_onlyCpu (t : Target) (b : Byte) (s : State) :
    OnlyCpuChanged s (writeTargetSext t b s) := by cases t <;> rfl

@[simp] theorem writeTargetWord_flags (t : Target) (v : Word) (s : State) :
    (writeTargetWord t v s).flags = s.flags := by cases t <;> rfl

@[simp] theorem writeTargetByte_flags (t : Target) (b : Byte) (s : State) :
    (writeTargetByte t b s).flags = s.flags := by cases t <;> rfl

@[simp] theorem writeTargetSext_flags (t : Target) (b : Byte) (s : State) :
    (writeTargetSext t b s).flags = s.flags := by cases t <;> rfl

theorem writeTargetWord_regs (t : Target) (v : Word) (s : State) :
    RegsSameOutside t.registers s (writeTargetWord t v s) := by
  cases t with
  | reg n => exact fun m hm => setReg_reg_ne s v (by simpa [Target.registers] using hm)
  | mem w a => exact fun m _ => rfl

theorem writeTargetByte_regs (t : Target) (b : Byte) (s : State) :
    RegsSameOutside t.registers s (writeTargetByte t b s) := by
  cases t with
  | reg n => exact fun m hm => setReg_reg_ne s _ (by simpa [Target.registers] using hm)
  | mem w a => exact fun m _ => rfl

theorem writeTargetSext_regs (t : Target) (b : Byte) (s : State) :
    RegsSameOutside t.registers s (writeTargetSext t b s) := by
  cases t with
  | reg n => exact fun m hm => setReg_reg_ne s _ (by simpa [Target.registers] using hm)
  | mem w a => exact fun m _ => rfl

theorem writeTargetWord_memSame (t : Target) (v : Word) (s : State) :
    MemSameOutside (t.bytes .word s) s (writeTargetWord t v s) := by
  cases t with
  | reg n => exact memSameOutside_of_eq rfl
  | mem w a =>
    intro b x hx
    simp only [Target.bytes, List.mem_cons, Prod.mk.injEq, List.not_mem_nil, or_false, not_or] at hx
    simp only [writeTargetWord, writeWord_mem, Memory.readByte_writeWord, if_neg hx.1, if_neg hx.2]

theorem writeTargetByte_memSame (t : Target) (v : Byte) (s : State) :
    MemSameOutside (t.bytes .byte s) s (writeTargetByte t v s) := by
  cases t with
  | reg n => exact memSameOutside_of_eq rfl
  | mem w a =>
    intro b x hx
    simp only [Target.bytes, List.mem_cons, Prod.mk.injEq, List.not_mem_nil, or_false] at hx
    simp only [writeTargetByte, writeByte_mem, Memory.readByte_writeByte, if_neg hx]

theorem writeTargetSext_memSame (t : Target) (v : Byte) (s : State) :
    MemSameOutside (t.bytes .byte s) s (writeTargetSext t v s) := by
  cases t with
  | reg n => exact memSameOutside_of_eq rfl
  | mem w a =>
    intro b x hx
    simp only [Target.bytes, List.mem_cons, Prod.mk.injEq, List.not_mem_nil, or_false] at hx
    simp only [writeTargetSext, writeByte_mem, Memory.readByte_writeByte, if_neg hx]

/-- A word written through a target is read back through it. -/
theorem readTargetWord_write (t : Target) (v : Word) (s : State) :
    (readTargetWord t (writeTargetWord t v s)).1 = v := by
  cases t with
  | reg n => exact setReg_reg_same s n v
  | mem w a => simp [readTargetWord, writeTargetWord, Memory.readWord_writeWord_same]

/-- A byte written through a target is read back through it. -/
theorem readTargetByte_write (t : Target) (b : Byte) (s : State) :
    (readTargetByte t (writeTargetByte t b s)).1 = b := by
  cases t with
  | reg n => simp [readTargetByte, writeTargetByte]
  | mem w a => simp [readTargetByte, writeTargetByte, Memory.readByte_writeByte]

/-- Reading a target does not look at the flags. -/
theorem readTargetWord_setFlags (t : Target) (f : Flags) (s : State) :
    (readTargetWord t (s.setFlags f)).1 = (readTargetWord t s).1 := by cases t <;> rfl

theorem readTargetByte_setFlags (t : Target) (f : Flags) (s : State) :
    (readTargetByte t (s.setFlags f)).1 = (readTargetByte t s).1 := by cases t <;> rfl

/-- A write through a target keeps memory canonical. -/
theorem writeTargetWord_wf (t : Target) (v : Word) {s : State} (h : Memory.wf s.mem) :
    Memory.wf (writeTargetWord t v s).mem := by
  cases t with
  | reg n => exact h
  | mem w a => exact Memory.writeWord_wf h _ _ _

theorem writeTargetByte_wf (t : Target) (b : Byte) {s : State} (h : Memory.wf s.mem) :
    Memory.wf (writeTargetByte t b s).mem := by
  cases t with
  | reg n => exact h
  | mem w a => exact Memory.writeByte_wf h _ _ _

theorem writeTargetSext_wf (t : Target) (b : Byte) {s : State} (h : Memory.wf s.mem) :
    Memory.wf (writeTargetSext t b s).mem := by
  cases t with
  | reg n => exact h
  | mem w a => exact Memory.writeByte_wf h _ _ _

end Sys2Proof.Machine
end

