-- ==== Sys2Proof/Laws/Services.lean ====
section
/-! SUPPORT. The laws of the trap services: buffers and strings in the data bank, and what each service
can change, said once. -/

namespace Sys2Proof.Machine

/-! ## Addresses in a buffer -/

theorem word_add_succ (a : Word) (k : Nat) :
    a + BitVec.ofNat 16 (k + 1) = a + 1 + BitVec.ofNat 16 k := by
  have h1 : (1 : Word).toNat = 1 := rfl
  apply BitVec.eq_of_toNat_eq
  simp only [BitVec.toNat_add, BitVec.toNat_ofNat, h1]
  omega

theorem word_add_zero (a : Word) : a + BitVec.ofNat 16 0 = a := by simp

/-- Two places of a buffer of at most 65,536 bytes are the same only when their numbers are. -/
theorem word_add_inj {a : Word} {j k : Nat} (hj : j < 0x10000) (hk : k < 0x10000)
    (h : a + BitVec.ofNat 16 j = a + BitVec.ofNat 16 k) : j = k := by
  have := congrArg BitVec.toNat h
  simp only [BitVec.toNat_add, BitVec.toNat_ofNat] at this
  have := a.isLt
  omega

theorem mem_bytesFrom {b c : BitVec 2} {a x : Word} {n : Nat} :
    (c, x) ∈ bytesFrom b a n ↔ c = b ∧ ∃ k, k < n ∧ x = a + BitVec.ofNat 16 k := by
  simp only [bytesFrom, List.mem_map, List.mem_range, Prod.mk.injEq]
  constructor
  · rintro ⟨k, hk, rfl, rfl⟩
    exact ⟨rfl, k, hk, rfl⟩
  · rintro ⟨rfl, k, hk, rfl⟩
    exact ⟨k, hk, rfl, rfl⟩

@[simp] theorem bank_data (s : State) : s.bank .data = s.memBank := rfl

@[simp] theorem bank_code (s : State) : s.bank .code = 0 := rfl

/-! ## Reading a buffer -/

/-- Reading a buffer changes nothing but the watch log. -/
theorem readBytes_snd (s : State) (a : Word) (n : Nat) :
    (s.readBytes a n).2 = { s with watchLog := (s.readBytes a n).2.watchLog } := by
  induction n generalizing s a with
  | zero => rfl
  | succ k ih =>
    show (State.readBytes (s.readByte .data a).2 (a + 1) k).2 = _
    rw [ih]
    rfl

@[simp] theorem readBytes_reg (s : State) (a : Word) (n : Nat) (r : Reg) :
    (s.readBytes a n).2.reg r = s.reg r := by rw [readBytes_snd]; rfl

@[simp] theorem readBytes_flags (s : State) (a : Word) (n : Nat) :
    (s.readBytes a n).2.flags = s.flags := by rw [readBytes_snd]

@[simp] theorem readBytes_mem (s : State) (a : Word) (n : Nat) :
    (s.readBytes a n).2.mem = s.mem := by rw [readBytes_snd]

@[simp] theorem readBytes_files (s : State) (a : Word) (n : Nat) :
    (s.readBytes a n).2.files = s.files := by rw [readBytes_snd]

@[simp] theorem readBytes_hostAnswers (s : State) (a : Word) (n : Nat) :
    (s.readBytes a n).2.hostAnswers = s.hostAnswers := by rw [readBytes_snd]

@[simp] theorem readBytes_hostCalls (s : State) (a : Word) (n : Nat) :
    (s.readBytes a n).2.hostCalls = s.hostCalls := by rw [readBytes_snd]

theorem readBytes_length (s : State) (a : Word) (n : Nat) : (s.readBytes a n).1.length = n := by
  induction n generalizing s a with
  | zero => rfl
  | succ k ih =>
    show (State.readBytes (s.readByte .data a).2 (a + 1) k).1.length + 1 = k + 1
    rw [ih]

theorem readBytes_bytesAt (s : State) (a : Word) (n : Nat) : BytesAt s a (s.readBytes a n).1 := by
  induction n generalizing s a with
  | zero => exact fun k h => absurd h (by simp [State.readBytes])
  | succ m ih =>
    intro k h
    cases k with
    | zero => simp [State.readBytes]
    | succ k =>
      have := ih (s.readByte .data a).2 (a + 1) k (by simpa [State.readBytes] using h)
      rw [word_add_succ]
      simpa [State.readBytes] using this

/-! ## Storing a buffer -/

/-- Storing a buffer changes nothing but memory and the watch log. -/
theorem writeBytes_eq (s : State) (a : Word) (l : List Byte) :
    s.writeBytes a l =
      { s with mem := (s.writeBytes a l).mem, watchLog := (s.writeBytes a l).watchLog } := by
  induction l generalizing s a with
  | nil => rfl
  | cons b t ih =>
    show State.writeBytes (s.writeByte .data a b) (a + 1) t = _
    rw [ih]
    rfl

@[simp] theorem writeBytes_regs (s : State) (a : Word) (l : List Byte) :
    (s.writeBytes a l).regs = s.regs := by rw [writeBytes_eq]

@[simp] theorem writeBytes_reg (s : State) (a : Word) (l : List Byte) (n : Reg) :
    (s.writeBytes a l).reg n = s.reg n := by rw [writeBytes_eq]; rfl

@[simp] theorem writeBytes_flags (s : State) (a : Word) (l : List Byte) :
    (s.writeBytes a l).flags = s.flags := by rw [writeBytes_eq]

@[simp] theorem writeBytes_memBank (s : State) (a : Word) (l : List Byte) :
    (s.writeBytes a l).memBank = s.memBank := by rw [writeBytes_eq]

@[simp] theorem writeBytes_files (s : State) (a : Word) (l : List Byte) :
    (s.writeBytes a l).files = s.files := by rw [writeBytes_eq]

@[simp] theorem writeBytes_hostIn (s : State) (a : Word) (l : List Byte) :
    (s.writeBytes a l).hostIn = s.hostIn := by rw [writeBytes_eq]

@[simp] theorem writeBytes_hostCalls (s : State) (a : Word) (l : List Byte) :
    (s.writeBytes a l).hostCalls = s.hostCalls := by rw [writeBytes_eq]

/-- A buffer's bytes lie at its places, and no other byte of memory changes. -/
theorem writeBytes_read (s : State) (a : Word) (l : List Byte) (hl : l.length ≤ 0x10000)
    (c : BitVec 2) (x : Word) :
    ((s.writeBytes a l).mem.readByte c x = s.mem.readByte c x ∨ (c, x) ∈ bytesFrom s.memBank a l.length) ∧
      ∀ k (h : k < l.length), c = s.memBank → x = a + BitVec.ofNat 16 k →
        (s.writeBytes a l).mem.readByte c x = l[k] := by
  induction l generalizing s a with
  | nil => exact ⟨.inl rfl, fun k h => absurd h (by simp)⟩
  | cons b t ih =>
    have hl' : t.length + 1 ≤ 0x10000 := by simpa using hl
    obtain ⟨h1, h2⟩ := ih (s.writeByte .data a b) (a + 1) (by omega)
    have hm : (s.writeByte .data a b).memBank = s.memBank := rfl
    rw [hm] at h1 h2
    have hw : s.writeBytes a (b :: t) = (s.writeByte .data a b).writeBytes (a + 1) t := rfl
    rw [hw]
    constructor
    · rcases h1 with h1 | h1
      · rw [h1, writeByte_mem, Memory.readByte_writeByte]
        by_cases hc : c = s.bank .data ∧ x = a
        · refine .inr (mem_bytesFrom.mpr ⟨hc.1, 0, by simp, by simp [hc.2]⟩)
        · exact .inl (if_neg hc)
      · obtain ⟨hc, k, hk, hx⟩ := mem_bytesFrom.mp h1
        exact .inr (mem_bytesFrom.mpr ⟨hc, k + 1, by simpa using hk, by rw [hx, word_add_succ]⟩)
    · intro k h hc hx
      cases k with
      | succ k => exact h2 k (by simpa using h) hc (by rw [hx, word_add_succ])
      | zero =>
        rcases h1 with h1 | h1
        · rw [h1, writeByte_mem, Memory.readByte_writeByte, if_pos ⟨hc, by simpa using hx⟩]
          rfl
        · obtain ⟨-, k, hk, hx'⟩ := mem_bytesFrom.mp h1
          rw [hx, ← word_add_succ] at hx'
          have := word_add_inj (by omega) (by omega) hx'
          omega

theorem writeBytes_bytesAt (s : State) (a : Word) (l : List Byte) (hl : l.length ≤ 0x10000) :
    BytesAt (s.writeBytes a l) a l := fun k h => by
  rw [writeBytes_memBank]
  exact (writeBytes_read s a l hl _ _).2 k h rfl rfl

theorem writeBytes_memSame (s : State) (a : Word) (l : List Byte) (hl : l.length ≤ 0x10000) :
    MemSameOutside (bytesFrom s.memBank a l.length) s (s.writeBytes a l) := fun c x h =>
  (writeBytes_read s a l hl c x).1.resolve_right h

theorem writeBytes_wf (s : State) (a : Word) (l : List Byte) (h : Memory.wf s.mem) :
    Memory.wf (s.writeBytes a l).mem := by
  induction l generalizing s a with
  | nil => exact h
  | cons b t ih => exact ih _ _ (Memory.writeByte_wf h _ _ _)

/-! ## Strings (rule R164) -/

theorem cstring_zero {k : Nat} {a : Word} {s : State} (h : s.mem.readByte s.memBank a = 0) :
    cstring (k + 1) a s = some ([], (s.readByte .data a).2) := if_pos h

theorem cstring_succ {k : Nat} {a : Word} {s : State} (h : s.mem.readByte s.memBank a ≠ 0) :
    cstring (k + 1) a s = (cstring k (a + 1) (s.readByte .data a).2).map
      fun r => (s.mem.readByte s.memBank a :: r.1, r.2) := by
  refine (if_neg h).trans ?_
  cases cstring k (a + 1) (s.readByte .data a).2 <;> rfl

/-- Looking for a string changes nothing but the watch log. -/
theorem cstring_state {n : Nat} {a : Word} {s : State} {r : List Byte × State}
    (h : cstring n a s = some r) : r.2 = { s with watchLog := r.2.watchLog } := by
  induction n generalizing a s r with
  | zero => simp [cstring] at h
  | succ k ih =>
    by_cases hb : s.mem.readByte s.memBank a = 0
    · rw [cstring_zero hb, Option.some.injEq] at h
      rw [← h]
      rfl
    · rw [cstring_succ hb, Option.map_eq_some_iff] at h
      obtain ⟨q, hq, rfl⟩ := h
      have := ih hq
      show q.2 = _
      rw [this]
      rfl

/-- A string the data bank holds is found. -/
theorem cstring_of_stringAt {n : Nat} {a : Word} {s : State} {l : List Byte} (h : StringAt s a l)
    (hn : l.length < n) : ∃ t, cstring n a s = some (l, t) := by
  induction l generalizing n a s with
  | nil =>
    obtain ⟨-, -, -, h0⟩ := h
    cases n with
    | zero => simp at hn
    | succ k => exact ⟨_, cstring_zero (by simpa using h0)⟩
  | cons b t ih =>
    cases n with
    | zero => simp at hn
    | succ k =>
      obtain ⟨h1, h2, h3, h4⟩ := h
      have hb : s.mem.readByte s.memBank a = b := by
        have := h3 0 (by simp)
        rwa [word_add_zero] at this
      have hb0 : b ≠ 0 := h2 b (by simp)
      have hs : StringAt (s.readByte .data a).2 (a + 1) t := by
        refine ⟨by simp at h1; omega, fun x hx => h2 x (by simp [hx]), fun j hj => ?_, ?_⟩
        · have := h3 (j + 1) (by simpa using hj)
          rw [word_add_succ] at this
          simpa using this
        · have : a + 1 + BitVec.ofNat 16 t.length = a + BitVec.ofNat 16 (b :: t).length := by
            rw [List.length_cons, word_add_succ]
          rw [this]
          exact h4
      obtain ⟨u, hu⟩ := ih hs (by simpa using hn)
      exact ⟨u, by rw [cstring_succ (by rw [hb]; exact hb0), hu, hb]; rfl⟩

/-- No string is found only when the bytes looked at hold no zero. -/
theorem cstring_none {n : Nat} {a : Word} {s : State} :
    cstring n a s = none ↔ ∀ k, k < n → s.mem.readByte s.memBank (a + BitVec.ofNat 16 k) ≠ 0 := by
  induction n generalizing a s with
  | zero => simp [cstring]
  | succ m ih =>
    by_cases hb : s.mem.readByte s.memBank a = 0
    · rw [cstring_zero hb]
      simp only [reduceCtorEq, false_iff]
      exact fun h => h 0 (by omega) (by simpa using hb)
    · rw [cstring_succ hb, Option.map_eq_none_iff]
      have hi := ih (a := a + 1) (s := (s.readByte .data a).2)
      have hiff : (∀ k, k < m + 1 → s.mem.readByte s.memBank (a + BitVec.ofNat 16 k) ≠ 0) ↔
          ∀ k, k < m → s.mem.readByte s.memBank (a + 1 + BitVec.ofNat 16 k) ≠ 0 := by
        constructor
        · intro h k hk
          rw [← word_add_succ]
          exact h (k + 1) (by omega)
        · intro h k hk
          cases k with
          | zero => simpa using hb
          | succ k =>
            rw [word_add_succ]
            exact h k (by omega)
      rw [hiff]
      exact hi

/-- A whole bank without a zero byte: the case the spec refuses (rule R164). -/
theorem cstring_bank_none (a : Word) (s : State) :
    cstring 0x10000 a s = none ↔ ∀ x : Word, s.mem.readByte s.memBank x ≠ 0 := by
  rw [cstring_none]
  constructor
  · intro h x
    have := h (x - a).toNat (x - a).isLt
    rwa [BitVec.ofNat_toNat, BitVec.setWidth_eq, show a + (x - a) = x by bv_omega] at this
  · exact fun h k _ => h _

/-- The answer of a string service: a next state from the string's bytes, or the refusal. -/
theorem withString_cases (f : List Byte → State → State) (s : State) :
    (∃ l w, withString f s = .next (f l { s with watchLog := w })) ∨
      withString f s = .refused (.unterminatedString (s.reg .r0)) ∧
        ∀ x : Word, s.mem.readByte s.memBank x ≠ 0 := by
  unfold withString
  cases h : cstring 0x10000 (s.reg .r0) s with
  | none => exact .inr ⟨rfl, (cstring_bank_none _ _).mp h⟩
  | some r =>
    have := cstring_state h
    exact .inl ⟨r.1, r.2.watchLog, by rw [← this]⟩

/-- The answer of a string service on a string the data bank holds. -/
theorem withString_of_stringAt (f : List Byte → State → State) {s : State} {l : List Byte}
    (h : StringAt s (s.reg .r0) l) : ∃ w, withString f s = .next (f l { s with watchLog := w }) := by
  obtain ⟨t, ht⟩ := cstring_of_stringAt h h.1
  refine ⟨t.watchLog, ?_⟩
  unfold withString
  rw [ht]
  have := cstring_state ht
  simp only at this
  rw [← this]

/-! ## What every service leaves alone -/

/-- What no service changes: registers other than r[0] (rule R160), N, V and C once the dispatcher has
cleared them (rule R161), the halted flag, and the debug set-up. -/
structure ServiceFrame (s t : State) : Prop where
  regs : RegsSameOutside [.r0] s t
  n : t.flags.n = s.flags.n
  v : t.flags.v = s.flags.v
  c : t.flags.c = s.flags.c
  halted : t.halted = s.halted
  pc0 : t.pc0 = s.pc0
  watch : t.watch = s.watch
  breakpoints : t.breakpoints = s.breakpoints
  breakHit : t.breakHit = s.breakHit
  breakAddr : t.breakAddr = s.breakAddr

/-- A service that writes no memory, no file slot and not the bank. -/
structure QuietFrame (s t : State) : Prop extends ServiceFrame s t where
  mem : t.mem = s.mem
  memBank : t.memBank = s.memBank
  files : t.files = s.files

theorem ServiceFrame.refl (s : State) : ServiceFrame s s :=
  ⟨fun _ _ => rfl, rfl, rfl, rfl, rfl, rfl, rfl, rfl, rfl, rfl⟩

theorem ServiceFrame.trans {s t u : State} (h : ServiceFrame s t) (k : ServiceFrame t u) :
    ServiceFrame s u :=
  ⟨fun n hn => (k.regs n hn).trans (h.regs n hn), k.n.trans h.n, k.v.trans h.v, k.c.trans h.c,
    k.halted.trans h.halted, k.pc0.trans h.pc0, k.watch.trans h.watch,
    k.breakpoints.trans h.breakpoints, k.breakHit.trans h.breakHit, k.breakAddr.trans h.breakAddr⟩

theorem QuietFrame.trans {s t u : State} (h : QuietFrame s t) (k : QuietFrame t u) : QuietFrame s u :=
  ⟨h.toServiceFrame.trans k.toServiceFrame, k.mem.trans h.mem, k.memBank.trans h.memBank,
    k.files.trans h.files⟩

theorem quiet_setR0 (s : State) (v : Word) : QuietFrame s (s.setReg .r0 v) :=
  ⟨⟨fun n hn => setReg_reg_ne s v (by simpa using hn), rfl, rfl, rfl, rfl, rfl, rfl, rfl, rfl, rfl⟩,
    rfl, rfl, rfl⟩

theorem quiet_setZ (s : State) (b : Bool) : QuietFrame s (s.setZ b) :=
  ⟨⟨fun _ _ => rfl, rfl, rfl, rfl, rfl, rfl, rfl, rfl, rfl, rfl⟩, rfl, rfl, rfl⟩

theorem quiet_freeZ (s : State) : QuietFrame s s.freeZ :=
  ⟨⟨fun _ _ => rfl, rfl, rfl, rfl, rfl, rfl, rfl, rfl, rfl, rfl⟩, rfl, rfl, rfl⟩

theorem quiet_outChars (s : State) (l : List Byte) : QuietFrame s (s.outChars l) :=
  ⟨⟨fun _ _ => rfl, rfl, rfl, rfl, rfl, rfl, rfl, rfl, rfl, rfl⟩, rfl, rfl, rfl⟩

theorem quiet_hostIn (s : State) (l : List Byte) : QuietFrame s { s with hostIn := l } :=
  ⟨⟨fun _ _ => rfl, rfl, rfl, rfl, rfl, rfl, rfl, rfl, rfl, rfl⟩, rfl, rfl, rfl⟩

theorem quiet_watchLog (s : State) (l : List WatchLine) : QuietFrame s { s with watchLog := l } :=
  ⟨⟨fun _ _ => rfl, rfl, rfl, rfl, rfl, rfl, rfl, rfl, rfl, rfl⟩, rfl, rfl, rfl⟩

theorem quiet_drawWord (s : State) : QuietFrame s s.drawWord.2 :=
  ⟨⟨fun _ _ => rfl, rfl, rfl, rfl, rfl, rfl, rfl, rfl, rfl, rfl⟩, rfl, rfl, rfl⟩

theorem quiet_callHost (s : State) (c : FileCall) : QuietFrame s (s.callHost c).2 :=
  ⟨⟨fun n _ => callHost_reg s c n, by simp, by simp, by simp, by simp, by simp, by simp, by simp, by simp,
    by simp⟩, by simp, by simp, by simp⟩

theorem quiet_readBytes (s : State) (a : Word) (n : Nat) : QuietFrame s (s.readBytes a n).2 := by
  rw [readBytes_snd]
  exact quiet_watchLog s _

theorem quiet_result (s : State) (v : Word) : QuietFrame s (s.result v) :=
  (quiet_setR0 s v).trans (quiet_setZ _ _)

theorem quiet_failed (s : State) : QuietFrame s s.failed := (quiet_setR0 s _).trans (quiet_freeZ _)

theorem frame_files (s : State) (f : FileTable) : ServiceFrame s { s with files := f } :=
  ⟨fun _ _ => rfl, rfl, rfl, rfl, rfl, rfl, rfl, rfl, rfl, rfl⟩

theorem frame_memBank (s : State) (b : BitVec 2) : ServiceFrame s { s with memBank := b } :=
  ⟨fun _ _ => rfl, rfl, rfl, rfl, rfl, rfl, rfl, rfl, rfl, rfl⟩

theorem frame_writeBytes (s : State) (a : Word) (l : List Byte) : ServiceFrame s (s.writeBytes a l) := by
  rw [writeBytes_eq]
  exact ⟨fun _ _ => rfl, rfl, rfl, rfl, rfl, rfl, rfl, rfl, rfl, rfl⟩

/-! ## The frame of each service -/

theorem servicePutc_frame (s : State) : QuietFrame s (servicePutc s) :=
  (quiet_outChars s _).trans (quiet_freeZ _)

theorem serviceGetc_frame (s : State) : QuietFrame s (serviceGetc s) := by
  unfold serviceGetc
  dsimp only
  split
  · exact ((quiet_hostIn s _).trans (quiet_setR0 _ _)).trans (quiet_setZ _ _)
  · exact ((quiet_hostIn s _).trans (quiet_setR0 _ _)).trans (quiet_setZ _ _)

theorem servicePuts_frame (l : List Byte) (s : State) : QuietFrame s (servicePuts l s) :=
  (quiet_outChars s _).trans (quiet_freeZ _)

theorem servicePrintSigned_frame (s : State) : QuietFrame s (servicePrintSigned s) :=
  (quiet_outChars s _).trans (quiet_freeZ _)

theorem servicePrintHex_frame (s : State) : QuietFrame s (servicePrintHex s) :=
  (quiet_outChars s _).trans (quiet_freeZ _)

theorem servicePrintUnsigned_frame (s : State) : QuietFrame s (servicePrintUnsigned s) :=
  (quiet_outChars s _).trans (quiet_freeZ _)

theorem servicePrintln_frame (l : List Byte) (s : State) : QuietFrame s (servicePrintln l s) :=
  ((quiet_outChars s _).trans (quiet_outChars _ _)).trans (quiet_freeZ _)

theorem numberResult_frame (v : Option Word) (s : State) : QuietFrame s (numberResult v s) := by
  cases v with
  | none => exact ((quiet_drawWord s).trans (quiet_setR0 _ _)).trans (quiet_setZ _ _)
  | some w => exact (quiet_setR0 s _).trans (quiet_setZ _ _)

theorem serviceReadInt_frame (s : State) : QuietFrame s (serviceReadInt s) :=
  (quiet_hostIn s _).trans (numberResult_frame _ _)

theorem serviceReadHex_frame (s : State) : QuietFrame s (serviceReadHex s) :=
  (quiet_hostIn s _).trans (numberResult_frame _ _)

/-- The bytes service 5 stores: the line, and the NUL when max > 0, are at most max. -/
theorem takeLine_length (p : ReadlineOverflow) (cap : Nat) (l : List Byte) :
    (takeLine p cap l).1.length ≤ cap := by
  induction l generalizing cap with
  | nil => simp [takeLine]
  | cons c t ih =>
    unfold takeLine
    by_cases hc : c = 0x0A
    · simp [hc]
    · rw [if_neg hc]
      cases cap with
      | zero => cases p <;> simp
      | succ k => simpa using ih k

theorem lineRead_length (max : Word) (l : List Byte) : (lineRead max l).1.length ≤ max.toNat - 1 := by
  unfold lineRead
  split
  · simp
  · exact takeLine_length _ _ _

/-- Service 5 writes memory, and nothing else that `QuietFrame` names. -/
theorem serviceReadLine_frame (s : State) :
    ServiceFrame s (serviceReadLine s) ∧ (serviceReadLine s).memBank = s.memBank ∧
      (serviceReadLine s).files = s.files := by
  unfold serviceReadLine
  have h := (quiet_hostIn s (lineRead (s.reg .r1) s.hostIn).2.1).toServiceFrame.trans
    (frame_writeBytes { s with hostIn := (lineRead (s.reg .r1) s.hostIn).2.1 } (s.reg .r0)
      (lineRead (s.reg .r1) s.hostIn).1)
  split
  · exact ⟨(h.trans (quiet_setR0 _ _).toServiceFrame).trans (quiet_setZ _ _).toServiceFrame,
      by simp [State.setZ], by simp [State.setZ]⟩
  · refine ⟨((h.trans ?_).trans (quiet_setR0 _ _).toServiceFrame).trans (quiet_setZ _ _).toServiceFrame,
      by simp [State.setZ], by simp [State.setZ]⟩
    exact ⟨fun _ _ => rfl, rfl, rfl, rfl, rfl, rfl, rfl, rfl, rfl, rfl⟩

/-- Services 20, 23 and 24 write the file table, and nothing else that `QuietFrame` names. -/
structure FilesFrame (s t : State) : Prop extends ServiceFrame s t where
  mem : t.mem = s.mem
  memBank : t.memBank = s.memBank

theorem QuietFrame.filesFrame {s t : State} (h : QuietFrame s t) : FilesFrame s t :=
  ⟨h.toServiceFrame, h.mem, h.memBank⟩

theorem FilesFrame.trans {s t u : State} (h : FilesFrame s t) (k : FilesFrame t u) : FilesFrame s u :=
  ⟨h.toServiceFrame.trans k.toServiceFrame, k.mem.trans h.mem, k.memBank.trans h.memBank⟩

theorem filesFrame_files (s : State) (f : FileTable) : FilesFrame s { s with files := f } :=
  ⟨frame_files s f, rfl, rfl⟩

theorem filesFrame_setFile (s : State) (f : OpenFile) : FilesFrame s (s.setFile f) :=
  filesFrame_files s _

theorem serviceOpen_frame (l : List Byte) (s : State) : FilesFrame s (serviceOpen l s) := by
  unfold serviceOpen
  split
  · cases s.files.firstVacant with
    | none => exact (quiet_failed s).filesFrame
    | some h =>
      dsimp only
      split
      · exact (((quiet_callHost s _).filesFrame.trans (filesFrame_files _ _)).trans
          (quiet_setR0 _ _).filesFrame).trans (quiet_freeZ _).filesFrame
      · exact ((quiet_callHost s _).trans (quiet_failed _)).filesFrame
  · exact (quiet_failed s).filesFrame

theorem serviceReadFile_frame (s : State) :
    ServiceFrame s (serviceReadFile s) ∧ (serviceReadFile s).memBank = s.memBank := by
  unfold serviceReadFile
  cases s.openFileOf with
  | none => exact ⟨(quiet_result s _).toServiceFrame, rfl⟩
  | some f =>
    dsimp only
    split
    · refine ⟨((((quiet_callHost s _).toServiceFrame.trans (filesFrame_setFile _ _).toServiceFrame).trans
        (frame_writeBytes _ _ _)).trans (quiet_result _ _).toServiceFrame), ?_⟩
      simp [State.result, State.setZ]
    · exact ⟨((quiet_callHost s _).trans (quiet_result _ _)).toServiceFrame,
        ((quiet_callHost s _).trans (quiet_result _ _)).memBank⟩

theorem serviceWriteFile_frame (s : State) : FilesFrame s (serviceWriteFile s) := by
  unfold serviceWriteFile
  cases s.openFileOf with
  | none => exact ((quiet_readBytes s _ _).trans (quiet_result _ _)).filesFrame
  | some f =>
    dsimp only
    split
    · exact (((quiet_readBytes s _ _).trans (quiet_callHost _ _)).filesFrame.trans
        (filesFrame_setFile _ _)).trans (quiet_result _ _).filesFrame
    · exact (((quiet_readBytes s _ _).trans (quiet_callHost _ _)).trans (quiet_result _ _)).filesFrame

theorem serviceClose_frame (s : State) : FilesFrame s (serviceClose s) := by
  unfold serviceClose
  cases s.openFileOf with
  | none => exact (quiet_failed s).filesFrame
  | some f =>
    dsimp only
    split
    · exact (((quiet_callHost s _).filesFrame.trans (filesFrame_files _ _)).trans
        (quiet_setR0 _ _).filesFrame).trans (quiet_freeZ _).filesFrame
    · exact ((quiet_callHost s _).trans (quiet_failed _)).filesFrame

theorem serviceSeek_frame (s : State) : FilesFrame s (serviceSeek s) := by
  unfold serviceSeek
  cases s.openFileOf with
  | none => exact (quiet_failed s).filesFrame
  | some f =>
    dsimp only
    split
    · split
      · exact (((quiet_callHost s _).filesFrame.trans (filesFrame_setFile _ _)).trans
          (quiet_setR0 _ _).filesFrame).trans (quiet_freeZ _).filesFrame
      · exact ((quiet_callHost s _).trans (quiet_failed _)).filesFrame
    · exact (quiet_failed s).filesFrame

theorem serviceTell_frame (s : State) : QuietFrame s (serviceTell s) := by
  unfold serviceTell
  cases s.openFileOf with
  | none => exact quiet_failed s
  | some f =>
    dsimp only
    split
    · exact ((quiet_callHost s _).trans (quiet_setR0 _ _)).trans (quiet_freeZ _)
    · exact (quiet_callHost s _).trans (quiet_failed _)

theorem serviceBank_frame (s : State) :
    ServiceFrame s (serviceBank s) ∧ (serviceBank s).mem = s.mem ∧ (serviceBank s).files = s.files := by
  unfold serviceBank
  split
  · exact ⟨((frame_memBank s _).trans (quiet_setR0 _ _).toServiceFrame).trans
      (quiet_freeZ _).toServiceFrame, rfl, rfl⟩
  · exact ⟨(((quiet_drawWord s).toServiceFrame.trans (frame_memBank _ _)).trans
      (quiet_setR0 _ _).toServiceFrame).trans (quiet_freeZ _).toServiceFrame, rfl, rfl⟩

/-! ## The scan for a vacant slot (rule R187) -/

theorem lookupKey_ne_none {α : Type} {l : List (Nat × α)} {k : Nat} (h : lookupKey l k ≠ none) :
    k ∈ l.map Prod.fst := by
  cases hl : lookupKey l k with
  | none => exact absurd hl h
  | some v => exact List.mem_map.mpr ⟨_, lookupKey_some_mem hl, rfl⟩

/-- A table has no more taken slots than entries. -/
theorem FileTable.taken_le {t : FileTable} {h n : Nat}
    (ht : ∀ k, h ≤ k → k < h + n → t.file k ≠ none) : n ≤ t.length := by
  have hs : List.range' h n ⊆ t.map Prod.fst := fun k hk => by
    obtain ⟨h1, h2⟩ := List.mem_range'_1.mp hk
    exact lookupKey_ne_none (ht k h1 h2)
  simpa using (List.subperm_of_subset List.nodup_range' hs).length_le

/-- A scan that finds nothing saw every slot taken. -/
theorem FileTable.scan_none (t : FileTable) (n h cap : Nat) (hs : t.scan h cap n = none) (k : Nat)
    (h1 : h ≤ k) (h2 : k < h + min cap n) : t.file k ≠ none := by
  induction n generalizing h cap with
  | zero => omega
  | succ n ih =>
    cases cap with
    | zero => omega
    | succ c =>
      unfold FileTable.scan at hs
      cases hf : t.file h with
      | none => simp [hf] at hs
      | some f =>
        simp only [hf, Option.isNone_some, Bool.false_eq_true, if_false] at hs
        by_cases hk : k = h
        · rw [hk, hf]
          simp
        · exact ih (h + 1) c hs (by omega) (by omega)

/-- Open finds no slot only when every slot is taken (rule R187). -/
theorem FileTable.firstVacant_none {t : FileTable} (h : t.firstVacant = none) (k : Nat)
    (h1 : Config.firstHandle.val ≤ k) (h2 : k < Config.firstHandle.val + Config.fileTableCapacity) :
    t.file k ≠ none := by
  have hs := FileTable.scan_none t _ _ _ h
  by_cases hc : Config.fileTableCapacity ≤ t.length + 1
  · exact hs k h1 (by omega)
  · have := FileTable.taken_le (t := t) (h := Config.firstHandle.val) (n := t.length + 1)
      fun j a b => hs j a (by omega)
    omega

/-! ## Which handles are valid (rule R187) -/

theorem setFile_valid {s : State} {f g : OpenFile} (hf : s.openFileOf = some g) (h : Nat) :
    ((s.setFile f).files.file h).isSome = (s.files.file h).isSome := by
  have hg : s.files.file (s.reg .r0).toNat = some g := hf
  rw [setFile_files, FileTable.file_set]
  by_cases hh : h = (s.reg .r0).toNat
  · rw [if_pos hh, hh, hg]
    rfl
  · rw [if_neg hh]

theorem setFile_filesWf {s : State} {f g : OpenFile} (hf : s.openFileOf = some g)
    (hw : FileTable.wf s.files) : FileTable.wf (s.setFile f).files :=
  FileTable.set_wf hw _ _ (FileTable.file_lt hw hf)

/-- The same handles are valid, and the table's canonical form is kept. -/
structure SameHandles (s t : State) : Prop where
  valid : ∀ h, (t.files.file h).isSome = (s.files.file h).isSome
  wf : FileTable.wf s.files → FileTable.wf t.files

theorem sameHandles_of_eq {s t : State} (h : t.files = s.files) : SameHandles s t :=
  ⟨fun _ => by rw [h], fun w => by rw [h]; exact w⟩

theorem sameHandles_setFile {s t : State} {f g : OpenFile} (hf : s.openFileOf = some g)
    (h0 : t.reg .r0 = s.reg .r0) (hfs : t.files = s.files) : SameHandles s (t.setFile f) := by
  have ht : t.openFileOf = some g := by
    rw [← hf]
    unfold State.openFileOf
    rw [h0, hfs]
  refine ⟨fun h => ?_, fun w => setFile_filesWf ht (by rw [hfs]; exact w)⟩
  rw [setFile_valid ht, hfs]

theorem serviceReadFile_handles (s : State) : SameHandles s (serviceReadFile s) := by
  unfold serviceReadFile
  cases h : s.openFileOf with
  | none => exact sameHandles_of_eq rfl
  | some f =>
    dsimp only
    split
    · have k := sameHandles_setFile (t := (s.callHost (.readFile f.file (s.reg .r2).toNat)).2)
        (f := { f with position := f.position +
          (List.take (s.reg .r2).toNat (s.callHost (.readFile f.file (s.reg .r2).toNat)).1.data).length }) h
        (callHost_reg _ _ _) (by simp)
      refine ⟨fun j => ?_, fun w => ?_⟩
      · simpa [State.result, State.setZ] using k.valid j
      · simpa [State.result, State.setZ] using k.wf w
    · exact sameHandles_of_eq (by simp [State.result, State.setZ])

theorem serviceWriteFile_handles (s : State) : SameHandles s (serviceWriteFile s) := by
  unfold serviceWriteFile
  cases h : s.openFileOf with
  | none => exact sameHandles_of_eq (by simp [State.result, State.setZ])
  | some f =>
    dsimp only
    split
    · have k := sameHandles_setFile (t := ((s.readBytes (s.reg .r1) (s.reg .r2).toNat).2.callHost
          (.writeFile f.file (s.readBytes (s.reg .r1) (s.reg .r2).toNat).1)).2)
        (f := { f with position := ((s.readBytes (s.reg .r1) (s.reg .r2).toNat).2.callHost
          (.writeFile f.file (s.readBytes (s.reg .r1) (s.reg .r2).toNat).1)).1.position }) h
        (by simp) (by simp)
      exact ⟨k.valid, k.wf⟩
    · exact sameHandles_of_eq (by simp [State.result, State.setZ])

theorem serviceSeek_handles (s : State) : SameHandles s (serviceSeek s) := by
  unfold serviceSeek
  cases h : s.openFileOf with
  | none => exact sameHandles_of_eq rfl
  | some f =>
    dsimp only
    split
    · split
      · have k := sameHandles_setFile (t := (s.callHost (.seekFile f.file (s.reg .r1).toInt (s.reg .r2))).2)
          (f := ⟨f.file, seekPosition f (s.reg .r1).toInt (s.reg .r2)
            (s.callHost (.seekFile f.file (s.reg .r1).toInt (s.reg .r2))).1⟩) h
          (callHost_reg _ _ _) (by simp)
        exact ⟨k.valid, k.wf⟩
      · exact sameHandles_of_eq (by simp [State.failed])
    · exact sameHandles_of_eq rfl

/-! ## The canonical forms are kept -/

theorem serviceReadLine_memWf (s : State) (h : Memory.wf s.mem) : Memory.wf (serviceReadLine s).mem := by
  unfold serviceReadLine
  have k := writeBytes_wf { s with hostIn := (lineRead (s.reg .r1) s.hostIn).2.1 } (s.reg .r0)
    (lineRead (s.reg .r1) s.hostIn).1 h
  dsimp only
  split
  · exact k
  · rw [setZ_mem, setReg_mem, writeByte_mem]
    exact Memory.writeByte_wf k _ _ _

theorem serviceReadFile_memWf (s : State) (h : Memory.wf s.mem) : Memory.wf (serviceReadFile s).mem := by
  unfold serviceReadFile
  cases s.openFileOf with
  | none => exact h
  | some f =>
    dsimp only
    split
    · exact writeBytes_wf _ _ _ (by simpa using h)
    · simpa [State.result, State.setZ] using h

theorem serviceOpen_filesWf (l : List Byte) (s : State) (w : FileTable.wf s.files) :
    FileTable.wf (serviceOpen l s).files := by
  unfold serviceOpen
  split
  · cases h : s.files.firstVacant with
    | none => exact w
    | some j =>
      dsimp only
      split
      · have := FileTable.set_wf w j ⟨(s.callHost (.openFile l (s.reg .r1))).1.file,
          (s.callHost (.openFile l (s.reg .r1))).1.position⟩ (FileTable.firstVacant_lt _ _ h)
        simpa using this
      · simpa [State.failed] using w
  · exact w

theorem serviceClose_filesWf (s : State) (w : FileTable.wf s.files) : FileTable.wf (serviceClose s).files := by
  unfold serviceClose
  cases s.openFileOf with
  | none => exact w
  | some f =>
    dsimp only
    split
    · simpa using FileTable.vacate_wf w (s.reg .r0).toNat
    · simpa [State.failed] using w

end Sys2Proof.Machine
end

