-- ==== Sys2Proof/Laws/Observe.lean ====
section
/-! SUPPORT. The shared operations commute with erasing the debug state and with changing N and V: what
they do and answer does not depend on either. -/

namespace Sys2Proof.Machine

/-! ## Erasing the debug state -/

theorem logAccess_withoutDebug (s : State) (k : Access) (d : Direction) (a : Word) (z : Size) (v : Word) :
    s.withoutDebug.logAccess k d a z v = (s.logAccess k d a z v).withoutDebug := by
  cases k <;> rfl

theorem readWord_withoutDebug (s : State) (v : View) (a : Word) (k : Access) :
    s.withoutDebug.readWord v a k = ((s.readWord v a k).1, (s.readWord v a k).2.withoutDebug) := by
  cases v <;> cases k <;> rfl

theorem readByte_withoutDebug (s : State) (v : View) (a : Word) (k : Access) :
    s.withoutDebug.readByte v a k = ((s.readByte v a k).1, (s.readByte v a k).2.withoutDebug) := by
  cases v <;> cases k <;> rfl

theorem writeWord_withoutDebug (s : State) (v : View) (a w : Word) :
    s.withoutDebug.writeWord v a w = (s.writeWord v a w).withoutDebug := by
  cases v <;> rfl

theorem writeByte_withoutDebug (s : State) (v : View) (a : Word) (b : Byte) :
    s.withoutDebug.writeByte v a b = (s.writeByte v a b).withoutDebug := by
  cases v <;> rfl

theorem fetchWord_withoutDebug (s : State) :
    s.withoutDebug.fetchWord = (s.fetchWord.1, s.fetchWord.2.withoutDebug) := rfl

theorem fetchInstr_withoutDebug (s : State) :
    s.withoutDebug.fetchInstr = (s.fetchInstr.1, s.fetchInstr.2.withoutDebug) := rfl

theorem resolve_withoutDebug (sp : Spec) (z : Size) (s : State) :
    resolve sp z s.withoutDebug = ((resolve sp z s).1, (resolve sp z s).2.withoutDebug) := by
  obtain ⟨m, n⟩ := sp
  cases m <;> cases n <;> rfl

theorem readTargetWord_withoutDebug (t : Target) (s : State) (k : Access) :
    readTargetWord t s.withoutDebug k = ((readTargetWord t s k).1, (readTargetWord t s k).2.withoutDebug) := by
  cases t with
  | reg n => rfl
  | mem v a => exact readWord_withoutDebug s v a k

theorem readTargetByte_withoutDebug (t : Target) (s : State) (k : Access) :
    readTargetByte t s.withoutDebug k = ((readTargetByte t s k).1, (readTargetByte t s k).2.withoutDebug) := by
  cases t with
  | reg n => rfl
  | mem v a => exact readByte_withoutDebug s v a k

theorem writeTargetWord_withoutDebug (t : Target) (v : Word) (s : State) :
    writeTargetWord t v s.withoutDebug = (writeTargetWord t v s).withoutDebug := by
  cases t with
  | reg n => rfl
  | mem w a => exact writeWord_withoutDebug s w a v

theorem writeTargetByte_withoutDebug (t : Target) (b : Byte) (s : State) :
    writeTargetByte t b s.withoutDebug = (writeTargetByte t b s).withoutDebug := by
  cases t with
  | reg n => rfl
  | mem w a => exact writeByte_withoutDebug s w a b

theorem writeTargetSext_withoutDebug (t : Target) (b : Byte) (s : State) :
    writeTargetSext t b s.withoutDebug = (writeTargetSext t b s).withoutDebug := by
  cases t with
  | reg n => rfl
  | mem w a => exact writeByte_withoutDebug s w a b

theorem operandWord_withoutDebug (sp : Spec) (s : State) :
    operandWord sp s.withoutDebug =
      ((operandWord sp s).1, (operandWord sp s).2.1, (operandWord sp s).2.2.withoutDebug) := by
  simp only [operandWord, resolve_withoutDebug, readTargetWord_withoutDebug]

theorem operandByte_withoutDebug (sp : Spec) (s : State) :
    operandByte sp s.withoutDebug =
      ((operandByte sp s).1, (operandByte sp s).2.1, (operandByte sp s).2.2.withoutDebug) := by
  simp only [operandByte, resolve_withoutDebug, readTargetByte_withoutDebug]

theorem readBytes_withoutDebug (s : State) (a : Word) (n : Nat) :
    s.withoutDebug.readBytes a n = ((s.readBytes a n).1, (s.readBytes a n).2.withoutDebug) := by
  induction n generalizing s a with
  | zero => rfl
  | succ k ih => simp only [State.readBytes, readByte_withoutDebug, ih]

theorem writeBytes_withoutDebug (s : State) (a : Word) (l : List Byte) :
    s.withoutDebug.writeBytes a l = (s.writeBytes a l).withoutDebug := by
  induction l generalizing s a with
  | nil => rfl
  | cons b t ih => simp only [State.writeBytes, writeByte_withoutDebug, ih]

theorem cstring_withoutDebug (n : Nat) (a : Word) (s : State) :
    cstring n a s.withoutDebug = (cstring n a s).map fun r => (r.1, r.2.withoutDebug) := by
  induction n generalizing a s with
  | zero => rfl
  | succ k ih =>
    by_cases hb : s.mem.readByte s.memBank a = 0
    · rw [cstring_zero hb, cstring_zero (s := s.withoutDebug) hb, readByte_withoutDebug]
      rfl
    · rw [cstring_succ hb, cstring_succ (s := s.withoutDebug) hb, readByte_withoutDebug, ih]
      cases cstring k (a + 1) (s.readByte .data a).2 <;> rfl

theorem callHost_withoutDebug (s : State) (c : FileCall) :
    s.withoutDebug.callHost c = ((s.callHost c).1, (s.callHost c).2.withoutDebug) := by
  unfold State.callHost
  cases h : s.hostAnswers with
  | nil => simp [State.withoutDebug, h]
  | cons a t => simp [State.withoutDebug, h]

/-! ## Changing N and V -/

theorem readWord_withNV (s : State) (n v : Bool) (w : View) (a : Word) (k : Access) :
    (s.withNV n v).readWord w a k = ((s.readWord w a k).1, (s.readWord w a k).2.withNV n v) := by
  cases w <;> cases k <;> rfl

theorem readByte_withNV (s : State) (n v : Bool) (w : View) (a : Word) (k : Access) :
    (s.withNV n v).readByte w a k = ((s.readByte w a k).1, (s.readByte w a k).2.withNV n v) := by
  cases w <;> cases k <;> rfl

theorem fetchInstr_withNV (s : State) (n v : Bool) :
    (s.withNV n v).fetchInstr = (s.fetchInstr.1, s.fetchInstr.2.withNV n v) := rfl

theorem resolve_withNV (sp : Spec) (z : Size) (s : State) (n v : Bool) :
    resolve sp z (s.withNV n v) = ((resolve sp z s).1, (resolve sp z s).2.withNV n v) := by
  obtain ⟨m, k⟩ := sp
  cases m <;> cases k <;> rfl

theorem readTargetWord_withNV (t : Target) (s : State) (n v : Bool) (k : Access) :
    readTargetWord t (s.withNV n v) k = ((readTargetWord t s k).1, (readTargetWord t s k).2.withNV n v) := by
  cases t with
  | reg m => rfl
  | mem w a => exact readWord_withNV s n v w a k

theorem readTargetByte_withNV (t : Target) (s : State) (n v : Bool) (k : Access) :
    readTargetByte t (s.withNV n v) k = ((readTargetByte t s k).1, (readTargetByte t s k).2.withNV n v) := by
  cases t with
  | reg m => rfl
  | mem w a => exact readByte_withNV s n v w a k

theorem writeTargetWord_withNV (t : Target) (x : Word) (s : State) (n v : Bool) :
    writeTargetWord t x (s.withNV n v) = (writeTargetWord t x s).withNV n v := by
  cases t with
  | reg k => rfl
  | mem w a => cases w <;> rfl

theorem writeTargetByte_withNV (t : Target) (x : Byte) (s : State) (n v : Bool) :
    writeTargetByte t x (s.withNV n v) = (writeTargetByte t x s).withNV n v := by
  cases t with
  | reg k => rfl
  | mem w a => cases w <;> rfl

theorem writeTargetSext_withNV (t : Target) (x : Byte) (s : State) (n v : Bool) :
    writeTargetSext t x (s.withNV n v) = (writeTargetSext t x s).withNV n v := by
  cases t with
  | reg k => rfl
  | mem w a => cases w <;> rfl

theorem operandWord_withNV (sp : Spec) (s : State) (n v : Bool) :
    operandWord sp (s.withNV n v) =
      ((operandWord sp s).1, (operandWord sp s).2.1, (operandWord sp s).2.2.withNV n v) := by
  simp only [operandWord, resolve_withNV, readTargetWord_withNV]

theorem operandByte_withNV (sp : Spec) (s : State) (n v : Bool) :
    operandByte sp (s.withNV n v) =
      ((operandByte sp s).1, (operandByte sp s).2.1, (operandByte sp s).2.2.withNV n v) := by
  simp only [operandByte, resolve_withNV, readTargetByte_withNV]

/-- Setting the flags whole forgets what N and V were. -/
theorem setFlags_withNV (s : State) (n v : Bool) (f : Flags) :
    (s.withNV n v).setFlags f = s.setFlags f := rfl

/-- A service starts from the same state whatever N and V were. -/
theorem serviceStart_withNV (s : State) (n v : Bool) :
    (s.withNV n v).setFlags (serviceFlags (s.withNV n v).flags) = s.setFlags (serviceFlags s.flags) := rfl

end Sys2Proof.Machine
end

