-- ==== Sys2Proof/Laws/PerInstr.lean ====
section
/-! SUPPORT. One law per instruction, over its syntax: the family EncodesToItsRow. -/

namespace Sys2Proof.Laws.EncodesToItsRow

/-- The instruction's word selects a row of the opcode map (rule R60), and that row builds the
instruction back. -/
def Statement (i : Instr) : Prop :=
  ∃ r ∈ opcodeRows, r.selects (encodeWord i) = true ∧ r.build (encodeWord i) = i

/-- A row of format D does so. -/
theorem ofD (m : String) (p : Word) (c : Spec → Spec → Instr) (ss dd : Spec)
    (hr : rowD m p c ∈ opcodeRows) (he : encodeWord (c ss dd) = formatD p ss dd)
    (hm : p &&& 0xF000 = p) (h0 : p.extractLsb' 0 3 = 0) (h3 : p.extractLsb' 3 3 = 0)
    (h6 : p.extractLsb' 6 3 = 0) (h9 : p.extractLsb' 9 3 = 0) : Statement (c ss dd) := by
  obtain ⟨a, b, d⟩ := formatD_fields p ss dd hm h0 h3 h6 h9
  exact ⟨_, hr, by rw [he]; exact beq_iff_eq.mpr a, by rw [he]; exact congrArg₂ c b d⟩

/-- A row of format S does so. -/
theorem ofS (m : String) (p : Word) (c : Spec → Instr) (dd : Spec) (hr : rowS m p c ∈ opcodeRows)
    (he : encodeWord (c dd) = formatS p dd) (hm : p &&& 0xFFC0 = p)
    (h0 : p.extractLsb' 0 3 = 0) (h3 : p.extractLsb' 3 3 = 0) : Statement (c dd) := by
  obtain ⟨a, d⟩ := formatS_fields p dd hm h0 h3
  exact ⟨_, hr, by rw [he]; exact beq_iff_eq.mpr a, by rw [he]; exact congrArg c d⟩

/-- A row of format B or T does so. -/
theorem ofB (m : String) (p : Word) (c : BitVec 8 → Instr) (f : BitVec 8)
    (hr : rowB m p c ∈ opcodeRows) (he : encodeWord (c f) = formatB p f)
    (hm : p &&& 0xFF00 = p) (h0 : p.extractLsb' 0 8 = 0) : Statement (c f) := by
  obtain ⟨a, d⟩ := formatB_fields p f hm h0
  exact ⟨_, hr, by rw [he]; exact beq_iff_eq.mpr a, by rw [he]; exact congrArg c d⟩

theorem mov (src dst : Spec) : Statement (.mov src dst) :=
  ofD "MOV" 0x1000 .mov src dst (by simp [opcodeRows]) rfl rfl rfl rfl rfl rfl

theorem cmp (src dst : Spec) : Statement (.cmp src dst) :=
  ofD "CMP" 0x2000 .cmp src dst (by simp [opcodeRows]) rfl rfl rfl rfl rfl rfl

theorem bit (src dst : Spec) : Statement (.bit src dst) :=
  ofD "BIT" 0x3000 .bit src dst (by simp [opcodeRows]) rfl rfl rfl rfl rfl rfl

theorem bic (src dst : Spec) : Statement (.bic src dst) :=
  ofD "BIC" 0x4000 .bic src dst (by simp [opcodeRows]) rfl rfl rfl rfl rfl rfl

theorem bis (src dst : Spec) : Statement (.bis src dst) :=
  ofD "BIS" 0x5000 .bis src dst (by simp [opcodeRows]) rfl rfl rfl rfl rfl rfl

theorem add (src dst : Spec) : Statement (.add src dst) :=
  ofD "ADD" 0x6000 .add src dst (by simp [opcodeRows]) rfl rfl rfl rfl rfl rfl

theorem sub (src dst : Spec) : Statement (.sub src dst) :=
  ofD "SUB" 0xE000 .sub src dst (by simp [opcodeRows]) rfl rfl rfl rfl rfl rfl

theorem movb (src dst : Spec) : Statement (.movb src dst) :=
  ofD "MOVB" 0x9000 .movb src dst (by simp [opcodeRows]) rfl rfl rfl rfl rfl rfl

theorem cmpb (src dst : Spec) : Statement (.cmpb src dst) :=
  ofD "CMPB" 0xA000 .cmpb src dst (by simp [opcodeRows]) rfl rfl rfl rfl rfl rfl

theorem bitb (src dst : Spec) : Statement (.bitb src dst) :=
  ofD "BITB" 0xB000 .bitb src dst (by simp [opcodeRows]) rfl rfl rfl rfl rfl rfl

theorem bicb (src dst : Spec) : Statement (.bicb src dst) :=
  ofD "BICB" 0xC000 .bicb src dst (by simp [opcodeRows]) rfl rfl rfl rfl rfl rfl

theorem bisb (src dst : Spec) : Statement (.bisb src dst) :=
  ofD "BISB" 0xD000 .bisb src dst (by simp [opcodeRows]) rfl rfl rfl rfl rfl rfl

theorem clr (dst : Spec) : Statement (.clr dst) :=
  ofS "CLR" 0x0A00 .clr dst (by simp [opcodeRows]) rfl rfl rfl rfl

theorem inc (dst : Spec) : Statement (.inc dst) :=
  ofS "INC" 0x0A80 .inc dst (by simp [opcodeRows]) rfl rfl rfl rfl

theorem dec (dst : Spec) : Statement (.dec dst) :=
  ofS "DEC" 0x0AC0 .dec dst (by simp [opcodeRows]) rfl rfl rfl rfl

theorem tst (dst : Spec) : Statement (.tst dst) :=
  ofS "TST" 0x0BC0 .tst dst (by simp [opcodeRows]) rfl rfl rfl rfl

theorem ror (dst : Spec) : Statement (.ror dst) :=
  ofS "ROR" 0x0C00 .ror dst (by simp [opcodeRows]) rfl rfl rfl rfl

theorem rol (dst : Spec) : Statement (.rol dst) :=
  ofS "ROL" 0x0C40 .rol dst (by simp [opcodeRows]) rfl rfl rfl rfl

theorem asr (dst : Spec) : Statement (.asr dst) :=
  ofS "ASR" 0x0C80 .asr dst (by simp [opcodeRows]) rfl rfl rfl rfl

theorem asl (dst : Spec) : Statement (.asl dst) :=
  ofS "ASL" 0x0CC0 .asl dst (by simp [opcodeRows]) rfl rfl rfl rfl

theorem clrb (dst : Spec) : Statement (.clrb dst) :=
  ofS "CLRB" 0x8A00 .clrb dst (by simp [opcodeRows]) rfl rfl rfl rfl

theorem incb (dst : Spec) : Statement (.incb dst) :=
  ofS "INCB" 0x8A80 .incb dst (by simp [opcodeRows]) rfl rfl rfl rfl

theorem decb (dst : Spec) : Statement (.decb dst) :=
  ofS "DECB" 0x8AC0 .decb dst (by simp [opcodeRows]) rfl rfl rfl rfl

theorem tstb (dst : Spec) : Statement (.tstb dst) :=
  ofS "TSTB" 0x8BC0 .tstb dst (by simp [opcodeRows]) rfl rfl rfl rfl

theorem jmp (dst : Spec) : Statement (.jmp dst) :=
  ofS "JMP" 0x0040 .jmp dst (by simp [opcodeRows]) rfl rfl rfl rfl

theorem br (off : BitVec 8) : Statement (.br off) :=
  ofB "BR" 0x0100 .br off (by simp [opcodeRows]) rfl rfl rfl

theorem bne (off : BitVec 8) : Statement (.bne off) :=
  ofB "BNE" 0x0200 .bne off (by simp [opcodeRows]) rfl rfl rfl

theorem beq (off : BitVec 8) : Statement (.beq off) :=
  ofB "BEQ" 0x0300 .beq off (by simp [opcodeRows]) rfl rfl rfl

theorem trap (vec : BitVec 8) : Statement (.trap vec) :=
  ofB "TRAP" 0x8800 .trap vec (by simp [opcodeRows]) rfl rfl rfl

theorem jsr (link : Reg) (dst : Spec) : Statement (.jsr link dst) := by
  obtain ⟨a, b, d⟩ := formatJ_fields link dst
  exact ⟨⟨"JSR", 0x0800, 0xFE00, fun w => .jsr (linkReg w) (dstSpec w)⟩, by simp [opcodeRows],
    beq_iff_eq.mpr a, congrArg₂ Instr.jsr b d⟩

theorem rts (link : Reg) : Statement (.rts link) := by
  obtain ⟨a, b⟩ := formatR_fields link
  exact ⟨⟨"RTS", 0x0010, 0xFFF8, fun w => .rts (returnReg w)⟩, by simp [opcodeRows],
    beq_iff_eq.mpr a, congrArg Instr.rts b⟩

theorem halt : Statement .halt :=
  ⟨⟨"HALT", 0x0000, 0xFFFF, fun _ => .halt⟩, by simp [opcodeRows], rfl, rfl⟩

end Sys2Proof.Laws.EncodesToItsRow
end

