-- ==== Sys2Proof/Laws/Step.lean ====
section
/-! SUPPORT. What the common sequences of rules R100 and R120 can change, and what one step and one
instruction can do, said once. -/

namespace Sys2Proof.Machine

/-! ## Register lists -/

theorem mem_updates2 {ss dd : Spec} {l : List Reg} {n : Reg}
    (h : n ∉ [ss, dd].flatMap Spec.updates ++ l) : n ∉ ss.updates ∧ n ∉ dd.updates ∧ n ∉ l := by
  simp only [List.flatMap_cons, List.flatMap_nil, List.append_nil, List.mem_append, not_or] at h
  exact ⟨h.1.1, h.1.2, h.2⟩

theorem mem_updates1 {dd : Spec} {l : List Reg} {n : Reg}
    (h : n ∉ [dd].flatMap Spec.updates ++ l) : n ∉ dd.updates ∧ n ∉ l := by
  simp only [List.flatMap_cons, List.flatMap_nil, List.append_nil, List.mem_append, not_or] at h
  exact h

/-! ## Writing to a target after the operands -/

/-- A word written, and the flags set, after states that changed no memory. -/
theorem storeFrame_word {specs : List Spec} {r s u : State} (d : Target) (v : Word) (f : Flags)
    (hu : OnlyCpuChanged s u) (hm : u.mem = s.mem) (hg : ∀ n, u.reg n = r.reg n)
    (hr : ∀ n, n ∉ specs.flatMap Spec.updates → u.reg n = s.reg n) :
    StoreFrame specs d .word r s ((writeTargetWord d v u).setFlags f) := by
  refine ⟨fun n hn => ?_, fun n hn => ?_, fun b a ha => ?_,
    (hu.trans (writeTargetWord_onlyCpu d v u)).trans rfl⟩
  · rw [setFlags_reg, writeTargetWord_regs d v u n hn, hg]
  · rw [List.mem_append, not_or] at hn
    rw [setFlags_reg, writeTargetWord_regs d v u n hn.2, hr n hn.1]
  · have hb : d.bytes .word u = d.bytes .word s := by
      cases d with
      | reg n => rfl
      | mem w a => simp only [Target.bytes, hu.bank]
    rw [setFlags_mem, writeTargetWord_memSame d v u b a (by rw [hb]; exact ha), hm]

/-- A byte written, and the flags set, after states that changed no memory. -/
theorem storeFrame_byte {specs : List Spec} {r s u : State} (d : Target) (v : Byte) (f : Flags)
    (hu : OnlyCpuChanged s u) (hm : u.mem = s.mem) (hg : ∀ n, u.reg n = r.reg n)
    (hr : ∀ n, n ∉ specs.flatMap Spec.updates → u.reg n = s.reg n) :
    StoreFrame specs d .byte r s ((writeTargetByte d v u).setFlags f) := by
  refine ⟨fun n hn => ?_, fun n hn => ?_, fun b a ha => ?_,
    (hu.trans (writeTargetByte_onlyCpu d v u)).trans rfl⟩
  · rw [setFlags_reg, writeTargetByte_regs d v u n hn, hg]
  · rw [List.mem_append, not_or] at hn
    rw [setFlags_reg, writeTargetByte_regs d v u n hn.2, hr n hn.1]
  · have hb : d.bytes .byte u = d.bytes .byte s := by
      cases d with
      | reg n => rfl
      | mem w a => simp only [Target.bytes, hu.bank]
    rw [setFlags_mem, writeTargetByte_memSame d v u b a (by rw [hb]; exact ha), hm]

/-- A byte written sign-extended, and the flags set, after states that changed no memory. -/
theorem storeFrame_sext {specs : List Spec} {r s u : State} (d : Target) (v : Byte) (f : Flags)
    (hu : OnlyCpuChanged s u) (hm : u.mem = s.mem) (hg : ∀ n, u.reg n = r.reg n)
    (hr : ∀ n, n ∉ specs.flatMap Spec.updates → u.reg n = s.reg n) :
    StoreFrame specs d .byte r s ((writeTargetSext d v u).setFlags f) := by
  refine ⟨fun n hn => ?_, fun n hn => ?_, fun b a ha => ?_,
    (hu.trans (writeTargetSext_onlyCpu d v u)).trans rfl⟩
  · rw [setFlags_reg, writeTargetSext_regs d v u n hn, hg]
  · rw [List.mem_append, not_or] at hn
    rw [setFlags_reg, writeTargetSext_regs d v u n hn.2, hr n hn.1]
  · have hb : d.bytes .byte u = d.bytes .byte s := by
      cases d with
      | reg n => rfl
      | mem w a => simp only [Target.bytes, hu.bank]
    rw [setFlags_mem, writeTargetSext_memSame d v u b a (by rw [hb]; exact ha), hm]

/-! ## Two operands -/

theorem operandsWord_regs (ss dd : Spec) (s : State) (n : Reg)
    (hn : n ∉ [ss, dd].flatMap Spec.updates) :
    (operandWord dd (operandWord ss s).2.2).2.2.reg n = s.reg n := by
  obtain ⟨h1, h2, -⟩ := mem_updates2 (l := []) (by simpa using hn)
  rw [operandWord_regs dd _ n h2, operandWord_regs ss s n h1]

theorem operandsByte_regs (ss dd : Spec) (s : State) (n : Reg)
    (hn : n ∉ [ss, dd].flatMap Spec.updates) :
    (operandByte dd (operandByte ss s).2.2).2.2.reg n = s.reg n := by
  obtain ⟨h1, h2, -⟩ := mem_updates2 (l := []) (by simpa using hn)
  rw [operandByte_regs dd _ n h2, operandByte_regs ss s n h1]

theorem modifyWord2_frame (ss dd : Spec) (f : Word → Word → Word) (fl : Word → Word → Flags) (s : State) :
    StoreFrame [ss, dd] (destination2 .word ss dd s) .word (resolved2 .word ss dd s) s
      (modifyWord2 ss dd f fl s) :=
  storeFrame_word _ _ _ ((operandWord_onlyCpu ss s).trans (operandWord_onlyCpu dd _)) (by simp)
    (operandWord_reg dd _) (operandsWord_regs ss dd s)

theorem modifyByte2_frame (ss dd : Spec) (f : Byte → Byte → Byte) (fl : Byte → Byte → Flags) (s : State) :
    StoreFrame [ss, dd] (destination2 .byte ss dd s) .byte (resolved2 .byte ss dd s) s
      (modifyByte2 ss dd f fl s) :=
  storeFrame_byte _ _ _ ((operandByte_onlyCpu ss s).trans (operandByte_onlyCpu dd _)) (by simp)
    (operandByte_reg dd _) (operandsByte_regs ss dd s)

theorem testWord2_frame (ss dd : Spec) (fl : Word → Word → Flags) (s : State) :
    NoStoreFrame [ss, dd] s (testWord2 ss dd fl s) :=
  ⟨fun n hn => operandsWord_regs ss dd s n hn, memSameOutside_of_eq (by simp [testWord2]),
    ((operandWord_onlyCpu ss s).trans (operandWord_onlyCpu dd _)).trans rfl⟩

theorem testByte2_frame (ss dd : Spec) (fl : Byte → Byte → Flags) (s : State) :
    NoStoreFrame [ss, dd] s (testByte2 ss dd fl s) :=
  ⟨fun n hn => operandsByte_regs ss dd s n hn, memSameOutside_of_eq (by simp [testByte2]),
    ((operandByte_onlyCpu ss s).trans (operandByte_onlyCpu dd _)).trans rfl⟩

/-! ## One operand -/

theorem modifyWord1_frame (dd : Spec) (f : Word → Word) (fl : Word → Flags) (s : State) :
    StoreFrame [dd] (resolve dd .word s).1 .word (resolve dd .word s).2 s (modifyWord1 dd f fl s) :=
  storeFrame_word _ _ _ (operandWord_onlyCpu dd s) (by simp) (operandWord_reg dd s)
    fun n hn => operandWord_regs dd s n (by simpa using hn)

theorem modifyByte1_frame (dd : Spec) (f : Byte → Byte) (fl : Byte → Flags) (s : State) :
    StoreFrame [dd] (resolve dd .byte s).1 .byte (resolve dd .byte s).2 s (modifyByte1 dd f fl s) :=
  storeFrame_byte _ _ _ (operandByte_onlyCpu dd s) (by simp) (operandByte_reg dd s)
    fun n hn => operandByte_regs dd s n (by simpa using hn)

/-! ## Reading the result back -/

theorem modifyWord2_result (ss dd : Spec) (f : Word → Word → Word) (fl : Word → Word → Flags) (s : State) :
    (readTargetWord (operandWord dd (operandWord ss s).2.2).1 (modifyWord2 ss dd f fl s)).1 =
      f (operandWord ss s).2.1 (operandWord dd (operandWord ss s).2.2).2.1 := by
  unfold modifyWord2
  rw [readTargetWord_setFlags]
  exact readTargetWord_write _ _ _

theorem modifyByte2_result (ss dd : Spec) (f : Byte → Byte → Byte) (fl : Byte → Byte → Flags) (s : State) :
    (readTargetByte (operandByte dd (operandByte ss s).2.2).1 (modifyByte2 ss dd f fl s)).1 =
      f (operandByte ss s).2.1 (operandByte dd (operandByte ss s).2.2).2.1 := by
  unfold modifyByte2
  rw [readTargetByte_setFlags]
  exact readTargetByte_write _ _ _

theorem modifyWord1_result (dd : Spec) (f : Word → Word) (fl : Word → Flags) (s : State) :
    (readTargetWord (operandWord dd s).1 (modifyWord1 dd f fl s)).1 = f (operandWord dd s).2.1 := by
  unfold modifyWord1
  rw [readTargetWord_setFlags]
  exact readTargetWord_write _ _ _

theorem modifyByte1_result (dd : Spec) (f : Byte → Byte) (fl : Byte → Flags) (s : State) :
    (readTargetByte (operandByte dd s).1 (modifyByte1 dd f fl s)).1 = f (operandByte dd s).2.1 := by
  unfold modifyByte1
  rw [readTargetByte_setFlags]
  exact readTargetByte_write _ _ _

/-! ## Memory stays canonical -/

theorem modifyWord2_memWf (ss dd : Spec) (f : Word → Word → Word) (fl : Word → Word → Flags) {s : State}
    (h : Memory.wf s.mem) : Memory.wf (modifyWord2 ss dd f fl s).mem :=
  writeTargetWord_wf _ _ (by simpa using h)

theorem modifyByte2_memWf (ss dd : Spec) (f : Byte → Byte → Byte) (fl : Byte → Byte → Flags) {s : State}
    (h : Memory.wf s.mem) : Memory.wf (modifyByte2 ss dd f fl s).mem :=
  writeTargetByte_wf _ _ (by simpa using h)

theorem modifyWord1_memWf (dd : Spec) (f : Word → Word) (fl : Word → Flags) {s : State}
    (h : Memory.wf s.mem) : Memory.wf (modifyWord1 dd f fl s).mem :=
  writeTargetWord_wf _ _ (by simpa using h)

theorem modifyByte1_memWf (dd : Spec) (f : Byte → Byte) (fl : Byte → Flags) {s : State}
    (h : Memory.wf s.mem) : Memory.wf (modifyByte1 dd f fl s).mem :=
  writeTargetByte_wf _ _ (by simpa using h)

/-! ## Jumps -/

theorem hasAddress_of_mode {d : Spec} (h : d.mode ≠ .register) : d.hasAddress = true := by
  obtain ⟨m, n⟩ := d
  cases m
  · exact absurd rfl h
  all_goals rfl

theorem execJmp_mem {d : Spec} {s : State} {v : View} {a : Word} (h : (resolve d .word s).1 = .mem v a) :
    execJmp d s = .next ((resolve d .word s).2.setReg .r7 a) := by simp only [execJmp, h]

theorem execJmp_register {d : Spec} {s : State} (h : d.mode = .register) :
    execJmp d s = .fault (.unimplementedInstruction s.pc0 (encodeWord (.jmp d))) := by
  obtain ⟨m, n⟩ := d
  subst h
  rfl

theorem execJsr_mem {r : Reg} {d : Spec} {s : State} {v : View} {a : Word}
    (h : (resolve d .word s).1 = .mem v a) :
    execJsr r d s =
      .next (((pushWord (linkValue r (resolve d .word s).2) (resolve d .word s).2).setReg r
        (pushWord (linkValue r (resolve d .word s).2) (resolve d .word s).2).pc).setReg .r7 a) := by
  simp only [execJsr, h]

theorem execJsr_register {r : Reg} {d : Spec} {s : State} (h : d.mode = .register) :
    execJsr r d s = .fault (.unimplementedInstruction s.pc0 (encodeWord (.jsr r d))) := by
  obtain ⟨m, n⟩ := d
  subst h
  rfl

theorem linkValue_of_ne {r : Reg} (h : r ≠ .r6) (s : State) : linkValue r s = s.reg r := by
  cases r <;> first | rfl | exact absurd rfl h

/-- Whatever the parameter says, `JSR R6` pushes the stack pointer before or after the decrement. -/
theorem linkValue_r6 (s : State) : linkValue .r6 s = s.sp ∨ linkValue .r6 s = s.sp - 2 := by
  unfold linkValue
  cases Config.jsrLinkSpValue
  · exact .inl rfl
  · exact .inr rfl

/-! ## One instruction -/

/-- What every instruction but `TRAP` and `HALT` can do to the state: registers, flags, memory kept
canonical, and log lines; nothing else. -/
theorem exec_onlyCpu {i : Instr} {s t : State} (h : exec i s = .next t) (ht : ∀ v, i ≠ .trap v)
    (hh : i ≠ .halt) : OnlyCpuChanged s t ∧ (Memory.wf s.mem → Memory.wf t.mem) := by
  cases i
  case mov a d =>
    simp only [exec, execMov, Host.Outcome.next.injEq] at h
    subst h
    exact ⟨(((operandWord_onlyCpu a s).trans (resolve_onlyCpu d .word _)).trans
      (writeTargetWord_onlyCpu _ _ _)).trans rfl, fun w => writeTargetWord_wf _ _ (by simpa using w)⟩
  case movb a d =>
    simp only [exec, execMovb, Host.Outcome.next.injEq] at h
    subst h
    exact ⟨(((operandByte_onlyCpu a s).trans (resolve_onlyCpu d .byte _)).trans
      (writeTargetSext_onlyCpu _ _ _)).trans rfl, fun w => writeTargetSext_wf _ _ (by simpa using w)⟩
  case cmp a d | bit a d =>
    cases h
    exact ⟨(testWord2_frame a d _ s).2.2, fun w => by simpa [testWord2] using w⟩
  case cmpb a d | bitb a d =>
    cases h
    exact ⟨(testByte2_frame a d _ s).2.2, fun w => by simpa [testByte2] using w⟩
  case bic a d | bis a d | add a d | sub a d =>
    cases h
    exact ⟨(modifyWord2_frame a d _ _ s).2.2.2, modifyWord2_memWf a d _ _⟩
  case bicb a d | bisb a d =>
    cases h
    exact ⟨(modifyByte2_frame a d _ _ s).2.2.2, modifyByte2_memWf a d _ _⟩
  case clr d =>
    cases h
    exact ⟨((resolve_onlyCpu d .word s).trans (writeTargetWord_onlyCpu _ _ _)).trans rfl,
      fun w => writeTargetWord_wf _ _ (by simpa using w)⟩
  case clrb d =>
    cases h
    exact ⟨((resolve_onlyCpu d .byte s).trans (writeTargetByte_onlyCpu _ _ _)).trans rfl,
      fun w => writeTargetByte_wf _ _ (by simpa using w)⟩
  case inc d | dec d | ror d | rol d | asr d | asl d =>
    cases h
    exact ⟨(modifyWord1_frame d _ _ s).2.2.2, modifyWord1_memWf d _ _⟩
  case incb d | decb d =>
    cases h
    exact ⟨(modifyByte1_frame d _ _ s).2.2.2, modifyByte1_memWf d _ _⟩
  case tst d =>
    cases h
    exact ⟨(operandWord_onlyCpu d s).trans rfl, fun w => by simpa using w⟩
  case tstb d =>
    cases h
    exact ⟨(operandByte_onlyCpu d s).trans rfl, fun w => by simpa using w⟩
  case br o | bne o | beq o =>
    cases h
    unfold branchIf
    split <;> exact ⟨rfl, id⟩
  case jmp d =>
    simp only [exec, execJmp] at h
    cases hr : (resolve d .word s).1 with
    | reg n => simp [hr, raiseUnimplemented] at h
    | mem w a =>
      simp only [hr, Host.Outcome.next.injEq] at h
      subst h
      exact ⟨(resolve_onlyCpu d .word s).trans rfl, fun k => by simpa using k⟩
  case jsr r d =>
    simp only [exec, execJsr] at h
    cases hr : (resolve d .word s).1 with
    | reg n => simp [hr, raiseUnimplemented] at h
    | mem w a =>
      simp only [hr, Host.Outcome.next.injEq] at h
      subst h
      exact ⟨(resolve_onlyCpu d .word s).trans rfl, fun k =>
        Memory.writeWord_wf (by simpa using k) _ _ _⟩
  case rts r =>
    cases h
    exact ⟨rfl, id⟩
  case halt => exact absurd rfl hh
  case trap v => exact absurd rfl (ht v)

/-- What a `TRAP` can do: nothing when its vector names no service, else what `ServiceFrame` allows, with
the canonical forms kept, memory, handles, file table and bank written only by the services that may. -/
theorem execTrap_cases {v : BitVec 8} {s t : State} (h : execTrap v s = .next t) :
    (serviceOf v = none ∧ t = s) ∨
      ∃ w, serviceOf v = some w ∧ ServiceFrame (s.setFlags (serviceFlags s.flags)) t ∧
        (Memory.wf s.mem → Memory.wf t.mem) ∧ (FileTable.wf s.files → FileTable.wf t.files) ∧
        (w ≠ .readLine → w ≠ .readFile → t.mem = s.mem) ∧ (w ≠ .bank → t.memBank = s.memBank) ∧
        (w ≠ .openFile → w ≠ .closeFile → ∀ j, (t.files.file j).isSome = (s.files.file j).isSome) ∧
        (w ∉ [Service.openFile, .readFile, .writeFile, .closeFile, .seekFile] → t.files = s.files) := by
  unfold execTrap at h
  cases hv : serviceOf v with
  | none =>
    simp only [hv, Host.Outcome.next.injEq] at h
    exact .inl ⟨rfl, h.symm⟩
  | some w =>
    refine .inr ⟨w, rfl, ?_⟩
    simp only [hv] at h
    have hmem : (s.setFlags (serviceFlags s.flags)).mem = s.mem := rfl
    have hfiles : (s.setFlags (serviceFlags s.flags)).files = s.files := rfl
    have hbank : (s.setFlags (serviceFlags s.flags)).memBank = s.memBank := rfl
    rw [← hmem, ← hfiles, ← hbank]
    generalize s.setFlags (serviceFlags s.flags) = u at h ⊢
    have quiet : ∀ {x : State}, QuietFrame u x → ServiceFrame u x ∧ (Memory.wf u.mem → Memory.wf x.mem) ∧
        (FileTable.wf u.files → FileTable.wf x.files) ∧
        (w ≠ .readLine → w ≠ .readFile → x.mem = u.mem) ∧ (w ≠ .bank → x.memBank = u.memBank) ∧
        (w ≠ .openFile → w ≠ .closeFile →
          ∀ j, (x.files.file j).isSome = (u.files.file j).isSome) ∧
        (w ∉ [Service.openFile, .readFile, .writeFile, .closeFile, .seekFile] → x.files = u.files) := fun q =>
      ⟨q.toServiceFrame, by rw [q.mem]; exact id, by rw [q.files]; exact id, fun _ _ => q.mem,
        fun _ => q.memBank, fun _ _ j => by rw [q.files], fun _ => q.files⟩
    have string : ∀ f : List Byte → State → State, withString f u = .next t →
        ∃ l k, t = f l { u with watchLog := k } := fun f hf => by
      rcases withString_cases f u with ⟨l, k, hk⟩ | ⟨hk, -⟩
      · exact ⟨l, k, by rw [hk] at hf; cases hf; rfl⟩
      · rw [hk] at hf
        cases hf
    cases w <;> simp only [runService] at h
    case putc => cases h; exact quiet (servicePutc_frame u)
    case getc => cases h; exact quiet (serviceGetc_frame u)
    case puts =>
      obtain ⟨l, k, rfl⟩ := string _ h
      exact quiet ((quiet_watchLog u k).trans (servicePuts_frame l _))
    case println =>
      obtain ⟨l, k, rfl⟩ := string _ h
      exact quiet ((quiet_watchLog u k).trans (servicePrintln_frame l _))
    case printSigned => cases h; exact quiet (servicePrintSigned_frame u)
    case printHex => cases h; exact quiet (servicePrintHex_frame u)
    case printUnsigned => cases h; exact quiet (servicePrintUnsigned_frame u)
    case readInt => cases h; exact quiet (serviceReadInt_frame u)
    case readHex => cases h; exact quiet (serviceReadHex_frame u)
    case tellFile => cases h; exact quiet (serviceTell_frame u)
    case readLine =>
      cases h
      obtain ⟨h1, h2, h3⟩ := serviceReadLine_frame u
      exact ⟨h1, serviceReadLine_memWf u, by rw [h3]; exact id, fun k => absurd rfl k, fun _ => h2,
        fun _ _ j => by rw [h3], fun _ => h3⟩
    case readFile =>
      cases h
      obtain ⟨h1, h2⟩ := serviceReadFile_frame u
      exact ⟨h1, serviceReadFile_memWf u, (serviceReadFile_handles u).wf, fun _ k => absurd rfl k,
        fun _ => h2, fun _ _ => (serviceReadFile_handles u).valid,
        fun k => absurd (by simp) k⟩
    case writeFile =>
      cases h
      have q := serviceWriteFile_frame u
      exact ⟨q.toServiceFrame, by rw [q.mem]; exact id, (serviceWriteFile_handles u).wf, fun _ _ => q.mem,
        fun _ => q.memBank, fun _ _ => (serviceWriteFile_handles u).valid,
        fun k => absurd (by simp) k⟩
    case seekFile =>
      cases h
      have q := serviceSeek_frame u
      exact ⟨q.toServiceFrame, by rw [q.mem]; exact id, (serviceSeek_handles u).wf, fun _ _ => q.mem,
        fun _ => q.memBank, fun _ _ => (serviceSeek_handles u).valid,
        fun k => absurd (by simp) k⟩
    case openFile =>
      obtain ⟨l, k, rfl⟩ := string _ h
      have q := (quiet_watchLog u k).filesFrame.trans (serviceOpen_frame l _)
      exact ⟨q.toServiceFrame, by rw [q.mem]; exact id, fun w => serviceOpen_filesWf l { u with watchLog := k } w, fun _ _ => q.mem,
        fun _ => q.memBank, fun k => absurd rfl k, fun k => absurd (by simp) k⟩
    case closeFile =>
      cases h
      have q := serviceClose_frame u
      exact ⟨q.toServiceFrame, by rw [q.mem]; exact id, serviceClose_filesWf u, fun _ _ => q.mem,
        fun _ => q.memBank, fun _ k => absurd rfl k, fun k => absurd (by simp) k⟩
    case bank =>
      cases h
      obtain ⟨h1, h2, h3⟩ := serviceBank_frame u
      exact ⟨h1, by rw [h2]; exact id, by rw [h3]; exact id, fun _ _ => h2, fun k => absurd rfl k,
        fun _ _ j => by rw [h3], fun _ => h3⟩

/-- A service that is no file service leaves the file table and the host's files alone. -/
theorem execTrap_noFiles {v : BitVec 8} {s t : State} (h : execTrap v s = .next t)
    (hv : v.toNat ∉ [20, 21, 22, 23, 24, 25]) :
    t.hostCalls = s.hostCalls ∧ t.files = s.files ∧ t.hostAnswers = s.hostAnswers := by
  unfold execTrap at h
  cases hw : serviceOf v with
  | none =>
    simp only [hw, Host.Outcome.next.injEq] at h
    subst h
    exact ⟨rfl, rfl, rfl⟩
  | some w =>
    have hk : w ∉ [Service.openFile, .readFile, .writeFile, .closeFile, .seekFile, .tellFile] := by
      clear h
      revert v w
      decide +revert
    have hs : ∀ u : State, u.hostCalls = (s.setFlags (serviceFlags s.flags)).hostCalls ∧
        u.files = (s.setFlags (serviceFlags s.flags)).files ∧
        u.hostAnswers = (s.setFlags (serviceFlags s.flags)).hostAnswers →
        u.hostCalls = s.hostCalls ∧ u.files = s.files ∧ u.hostAnswers = s.hostAnswers := fun _ => id
    apply hs
    simp only [hw] at h
    generalize s.setFlags (serviceFlags s.flags) = u at h ⊢
    have string : ∀ f : List Byte → State → State, withString f u = .next t →
        ∃ l k, t = f l { u with watchLog := k } := fun f hf => by
      rcases withString_cases f u with ⟨l, k, hk⟩ | ⟨hk, -⟩
      · exact ⟨l, k, by rw [hk] at hf; cases hf; rfl⟩
      · rw [hk] at hf
        cases hf
    cases w <;> simp only [runService] at h
    case openFile | readFile | writeFile | closeFile | seekFile | tellFile => simp at hk
    case puts | println =>
      obtain ⟨l, k, rfl⟩ := string _ h
      exact ⟨rfl, rfl, rfl⟩
    case putc | printSigned | printHex | printUnsigned => cases h; exact ⟨rfl, rfl, rfl⟩
    case readLine =>
      cases h
      have hb : ∀ (l : List Byte) (a : Word) (q : State), (q.writeBytes a l).hostCalls = q.hostCalls ∧
          (q.writeBytes a l).files = q.files ∧ (q.writeBytes a l).hostAnswers = q.hostAnswers := by
        intro l
        induction l with
        | nil => exact fun a q => ⟨rfl, rfl, rfl⟩
        | cons b l ih => exact fun a q => ih _ _
      have := hb (lineRead (u.reg .r1) u.hostIn).1 (u.reg .r0)
        { u with hostIn := (lineRead (u.reg .r1) u.hostIn).2.1 }
      unfold serviceReadLine
      dsimp only
      split <;> exact this
    case getc => cases h; unfold serviceGetc; dsimp only; split <;> exact ⟨rfl, rfl, rfl⟩
    case readInt => cases h; unfold serviceReadInt numberResult; dsimp only; split <;> exact ⟨rfl, rfl, rfl⟩
    case readHex => cases h; unfold serviceReadHex numberResult; dsimp only; split <;> exact ⟨rfl, rfl, rfl⟩
    case bank => cases h; unfold serviceBank; dsimp only; split <;> exact ⟨rfl, rfl, rfl⟩

/-! ## One step -/

/-- A step to a next state: nothing on a halted CPU, else an instruction after its fetch. -/
theorem step_next_cases {s t : State} (h : step s = .next t) :
    (s.halted = true ∧ t = s) ∨
      (s.halted = false ∧ ∃ i, decodeWord (s.mem.readWord 0 s.pc) = .ok i ∧
        exec i s.fetchInstr.2 = .next t) := by
  unfold step at h
  cases hh : s.halted with
  | true =>
    simp only [hh, if_true, Host.Outcome.next.injEq] at h
    exact .inl ⟨rfl, h.symm⟩
  | false =>
    simp only [hh, Bool.false_eq_true, if_false] at h
    refine .inr ⟨rfl, ?_⟩
    have hw : s.fetchInstr.1 = s.mem.readWord 0 s.pc := rfl
    rw [hw] at h
    cases hd : decodeWord (s.mem.readWord 0 s.pc) with
    | error e =>
      rw [hd] at h
      cases h
    | ok i =>
      rw [hd] at h
      exact ⟨i, rfl, h⟩

/-- A step of a CPU that is not halted, on a word that decodes. -/
theorem step_decoded {s : State} {i : Instr} (hh : s.halted = false)
    (hd : decodeWord (s.mem.readWord 0 s.pc) = .ok i) : step s = exec i s.fetchInstr.2 := by
  unfold step
  have hw : s.fetchInstr.1 = s.mem.readWord 0 s.pc := rfl
  simp only [hh, Bool.false_eq_true, if_false, hw, hd]

/-- A step of a CPU that is not halted, on a word that does not. -/
theorem step_illegal {s : State} {e : DecodeError} (hh : s.halted = false)
    (hd : decodeWord (s.mem.readWord 0 s.pc) = .error e) :
    step s = .fault (.unimplementedInstruction s.pc (s.mem.readWord 0 s.pc)) := by
  unfold step
  have hw : s.fetchInstr.1 = s.mem.readWord 0 s.pc := rfl
  simp only [hh, Bool.false_eq_true, if_false, hw, hd]
  rfl

end Sys2Proof.Machine
end

