-- ==== Sys2Proof/Laws/Text.lean ====
section
/-! SUPPORT. The laws of the text the print services send and the input services read. -/

namespace Sys2Proof.Machine

/-! ## Printing -/

/-- The digits of a number are plain, denote it, and begin with 0 only for 0. -/
theorem digits_spec (base : Nat) (hb : 2 ≤ base) (k n : Nat) (hn : n < base ^ (k + 1)) :
    plainDigits base (digits base k n) ∧ digitsValue base (digits base k n) = n ∧
      (n ≠ 0 → (digits base k n).head? ≠ some 0) := by
  induction k generalizing n with
  | zero =>
    have h : n < base := by simpa using hn
    exact ⟨⟨by simp [digits], by simp [digits, h], by simp [digits]⟩, by simp [digits, digitsValue],
      by simp [digits]⟩
  | succ k ih =>
    unfold digits
    by_cases h : n < base
    · rw [if_pos h]
      exact ⟨⟨by simp, by simp [h], by simp⟩, by simp [digitsValue], by simp⟩
    · rw [if_neg h]
      have hb0 : 0 < base := by omega
      obtain ⟨⟨a1, a2, a3⟩, a4, a5⟩ := ih (n / base) (by
        rw [Nat.div_lt_iff_lt_mul hb0, ← Nat.pow_succ]
        exact hn)
      have hq : n / base ≠ 0 := by
        intro h0
        rw [Nat.div_eq_zero_iff] at h0
        omega
      have hh : (digits base k (n / base) ++ [n % base]).head? = (digits base k (n / base)).head? := by
        cases hd : digits base k (n / base) with
        | nil => exact absurd hd a1
        | cons x t => rfl
      refine ⟨⟨by simp, fun d hd => ?_, fun h0 => ?_⟩, ?_, fun _ => ?_⟩
      · rcases List.mem_append.mp hd with hd | hd
        · exact a2 d hd
        · rw [List.mem_singleton.mp hd]
          exact Nat.mod_lt _ hb0
      · rw [hh] at h0
        exact absurd h0 (a5 hq)
      · have : (digits base k (n / base)).foldl (fun acc d => acc * base + d) 0 = n / base := a4
        simp only [digitsValue, List.foldl_append, List.foldl_cons, List.foldl_nil, this]
        exact Nat.div_add_mod' n base
      · rw [hh]
        exact a5 hq

theorem map_digitChar (ds : List Nat) : ds.map digitChar = digitsText ds := by
  refine List.map_congr_left fun d _ => ?_
  unfold digitChar
  split
  · rfl
  · congr 1
    omega

/-! ## Reading a line -/

/-- A line that fits is stored whole, and its newline is consumed. -/
theorem takeLine_newline (p : ReadlineOverflow) (cap : Nat) (line rest : List Byte)
    (h : ∀ b ∈ line, b ≠ 0x0A) (hc : line.length ≤ cap) :
    takeLine p cap (line ++ 0x0A :: rest) = (line, rest) := by
  induction line generalizing cap with
  | nil => rw [List.nil_append, takeLine.eq_def]; exact if_pos rfl
  | cons b t ih =>
    cases cap with
    | zero => simp at hc
    | succ k =>
      have := ih k (fun x hx => h x (List.mem_cons_of_mem _ hx)) (by simpa using hc)
      simp only [List.cons_append, takeLine, if_neg (h b List.mem_cons_self), this]

/-- A line that fits and is ended by the end of input. -/
theorem takeLine_eof (p : ReadlineOverflow) (cap : Nat) (line : List Byte)
    (h : ∀ b ∈ line, b ≠ 0x0A) (hc : line.length ≤ cap) : takeLine p cap line = (line, []) := by
  induction line generalizing cap with
  | nil => simp [takeLine]
  | cons b t ih =>
    cases cap with
    | zero => simp at hc
    | succ k =>
      have := ih k (fun x hx => h x (List.mem_cons_of_mem _ hx)) (by simpa using hc)
      simp only [takeLine, if_neg (h b List.mem_cons_self), this]

/-- Of a longer line the first bytes are stored, and the rest is left unread or dropped. -/
theorem takeLine_long (p : ReadlineOverflow) (cap : Nat) (line tail : List Byte)
    (h : ∀ b ∈ line, b ≠ 0x0A) (hc : cap < line.length) :
    (takeLine p cap (line ++ tail)).1 = line.take cap ∧
      ((takeLine p cap (line ++ tail)).2 = dropLine (line ++ tail) ∨
        (takeLine p cap (line ++ tail)).2 = line.drop cap ++ tail) := by
  induction line generalizing cap with
  | nil => simp at hc
  | cons b t ih =>
    have hb : ¬b = 0x0A := h b List.mem_cons_self
    cases cap with
    | zero =>
      cases p
      · simp only [List.cons_append, takeLine, if_neg hb]
        exact ⟨rfl, .inr rfl⟩
      · simp only [List.cons_append, takeLine, dropLine, if_neg hb]
        exact ⟨rfl, .inl trivial⟩
    | succ k =>
      obtain ⟨h1, h2⟩ := ih k (fun x hx => h x (List.mem_cons_of_mem _ hx)) (by simpa using hc)
      simp only [List.cons_append, takeLine, dropLine, if_neg hb, List.take_succ_cons, h1]
      exact ⟨trivial, h2⟩

/-- Dropping a line ends after its newline, or at the end of input. -/
theorem dropLine_line (line tail : List Byte) (h : ∀ b ∈ line, b ≠ 0x0A) :
    dropLine (line ++ tail) = dropLine tail := by
  induction line with
  | nil => rfl
  | cons b t ih =>
    rw [List.cons_append, dropLine, if_neg (h b List.mem_cons_self)]
    exact ih fun x hx => h x (List.mem_cons_of_mem _ hx)

/-! ## Reading a number -/

/-- Scanning the text of digits, then something that is no digit, gives the digits' number. -/
theorem scanDigits_text (digit : Byte → Option Nat) (base acc : Nat) (ds : List Nat)
    (text : Nat → Byte) (rest : List Byte) (hd : ∀ d ∈ ds, digit (text d) = some d)
    (hr : ∀ c, rest.head? = some c → digit c = none) :
    scanDigits digit base acc (ds.map text ++ rest) =
      (ds.foldl (fun acc d => acc * base + d) acc, rest) := by
  induction ds generalizing acc with
  | nil =>
    cases rest with
    | nil => rfl
    | cons c t => simp [scanDigits, hr c rfl]
  | cons d t ih =>
    simp only [List.map_cons, List.cons_append, scanDigits, hd d List.mem_cons_self, List.foldl_cons]
    exact ih _ fun x hx => hd x (List.mem_cons_of_mem _ hx)

/-- The characters the two digit readers know. -/
theorem decimalDigit_text (d : Nat) (h : d < 10) :
    decimalDigit (if d < 10 then BitVec.ofNat 8 (0x30 + d) else BitVec.ofNat 8 (0x61 + (d - 10))) = some d := by
  interval_cases d <;> rfl

theorem hexDigit_text (d : Nat) (h : d < 16) :
    hexDigit (if d < 10 then BitVec.ofNat 8 (0x30 + d) else BitVec.ofNat 8 (0x41 + (d - 10))) = some d := by
  interval_cases d <;> rfl

theorem decimalDigit_none (c : Byte) (h : c.toNat < 0x30 ∨ 0x39 < c.toNat) : decimalDigit c = none := by
  have : ((0x30#8).ule c && c.ule 0x39) = false := by
    simp only [BitVec.ule, Bool.and_eq_false_iff, decide_eq_false_iff_not]
    simp
    omega
  rw [decimalDigit, this, if_neg Bool.false_ne_true]

theorem hexDigit_none (c : Byte) (h : noHexDigit c) : hexDigit c = none := by
  have h1 : ((0x30#8).ule c && c.ule 0x39) = false := by
    unfold noHexDigit at h
    simp [BitVec.ule]
    omega
  have h2 : ((0x41#8).ule c && c.ule 0x46) = false := by
    unfold noHexDigit at h
    simp [BitVec.ule]
    omega
  have h3 : ((0x61#8).ule c && c.ule 0x66) = false := by
    unfold noHexDigit at h
    simp [BitVec.ule]
    omega
  rw [hexDigit, h1, h2, h3, if_neg Bool.false_ne_true, if_neg Bool.false_ne_true, Bool.false_and,
    if_neg Bool.false_ne_true]

/-- A space is white space; a sign or a digit never is, whatever the machine's constant adds. -/
theorem isSpace_space : isSpace 0x20 = true := rfl

theorem isSpace_number {c : Byte} (h : isNumberChar c = true) : isSpace c = false := by
  have : c ≠ 0x20 := by
    rintro rfl
    exact absurd h (by decide)
  rw [isSpace, h, beq_eq_false_iff_ne.mpr this]
  rfl

theorem dropWhile_spaces (k : Nat) (l : List Byte) :
    (List.replicate k 0x20 ++ l).dropWhile isSpace = l.dropWhile isSpace := by
  induction k with
  | zero => rfl
  | succ k ih =>
    rw [List.replicate_succ, List.cons_append, List.dropWhile_cons, isSpace_space, if_pos rfl, ih]

/-! ## Services 9 and 10 -/

/-- What is left after a parse: all from the ending character on, or all after it. -/
theorem afterParse_cases (base : Nat) (input rest : List Byte) :
    afterParse base input rest = rest ∨ afterParse base input rest = rest.tail := by
  unfold afterParse
  cases rest with
  | nil => exact .inl rfl
  | cons c t =>
    dsimp only
    split
    · exact .inr rfl
    · exact .inl rfl

/-- A parse that meets the end of input leaves nothing. -/
@[simp] theorem afterParse_nil (base : Nat) (input : List Byte) : afterParse base input [] = [] := rfl

theorem isNumberChar_letter {c : Byte} (h : letter c) : isNumberChar c = true := by
  have : ((0x41#8).ule c && c.ule 0x5A) = true ∨ ((0x61#8).ule c && c.ule 0x7A) = true := by
    simp only [BitVec.ule, Bool.and_eq_true, decide_eq_true_eq]
    exact h
  rcases this with h | h <;> simp only [isNumberChar, h, Bool.or_true, Bool.true_or]

/-- White space is skipped up to a sign, a digit or a letter. -/
theorem dropWhile_number (k : Nat) {c : Byte} (h : isNumberChar c = true) (t : List Byte) :
    (List.replicate k 0x20 ++ c :: t).dropWhile isSpace = c :: t := by
  rw [dropWhile_spaces, List.dropWhile_cons, isSpace_number h]
  rfl

/-- A decimal digit's character is a number character and no sign. -/
theorem decimalChar_spec (d : Nat) (h : d < 10) :
    ∃ c, (∀ t, digitsText (d :: t) = c :: digitsText t) ∧ decimalDigit c = some d ∧
      isNumberChar c = true ∧ c ≠ 0x2B#8 ∧ c ≠ 0x2D#8 :=
  ⟨_, fun _ => rfl, decimalDigit_text d h, by interval_cases d <;> decide⟩

/-- The parse of service 9 on spaces, an optional sign and at least one digit. -/
theorem readInt_number {k d : Nat} {sign : List Byte} {ds : List Nat} {rest : List Byte}
    (hs : sign = [] ∨ sign = [0x2B] ∨ sign = [0x2D]) (hd : ∀ x ∈ d :: ds, x < 10)
    (hr : ∀ c, rest.head? = some c → c.toNat < 0x30 ∨ 0x39 < c.toNat) :
    let input := List.replicate k 0x20 ++ sign ++ digitsText (d :: ds) ++ rest
    readInt input =
      (some (if sign = [0x2D] then -(digitsValue 10 (d :: ds) : Int) else (digitsValue 10 (d :: ds) : Int)),
        afterParse 10 input rest) := by
  intro input
  obtain ⟨c, hc, h1, h2, h3, h4⟩ := decimalChar_spec d (hd d List.mem_cons_self)
  have hsc : scanDigits decimalDigit 10 0 (c :: (digitsText ds ++ rest)) =
      (digitsValue 10 (d :: ds), rest) := by
    rw [← List.cons_append, ← hc]
    exact scanDigits_text _ _ _ _ _ _ (fun x hx => decimalDigit_text x (hd x hx))
      fun x hx => decimalDigit_none x (hr x hx)
  have hdrop : input.dropWhile isSpace = sign ++ c :: (digitsText ds ++ rest) := by
    simp only [input, hc, List.append_assoc, List.cons_append]
    rcases hs with rfl | rfl | rfl
    · exact dropWhile_number k h2 _
    · exact dropWhile_number k rfl _
    · exact dropWhile_number k rfl _
  simp only [readInt, hdrop]
  rcases hs with rfl | rfl | rfl <;>
    simp [afterSign, startsWithMinus, startsWithDigit, h1, h3, h4, hsc]

/-- The parse of service 9 with no digit: after a sign, at the end of input, or before a letter. -/
theorem readInt_noNumber {k : Nat} {sign rest : List Byte}
    (hs : sign = [] ∨ sign = [0x2B] ∨ sign = [0x2D])
    (hr : ∀ c, rest.head? = some c → c.toNat < 0x30 ∨ 0x39 < c.toNat)
    (hn : sign ≠ [] ∨ rest = [] ∨ ∃ c, rest.head? = some c ∧ letter c) :
    let input := List.replicate k 0x20 ++ sign ++ rest
    readInt input = (none, afterParse 10 input rest) := by
  intro input
  have hd : startsWithDigit decimalDigit rest = false := by
    cases rest with
    | nil => rfl
    | cons c t => simp [startsWithDigit, decimalDigit_none c (hr c rfl)]
  have hu : afterSign (input.dropWhile isSpace) = rest := by
    simp only [input, List.append_assoc]
    rcases hs with rfl | rfl | rfl
    · rcases hn with hn | rfl | ⟨c, hc, hl⟩
      · exact absurd rfl hn
      · rw [dropWhile_spaces]
        rfl
      · obtain ⟨t, rfl⟩ := List.head?_eq_some_iff.mp hc
        rw [List.nil_append, dropWhile_number k (isNumberChar_letter hl)]
        have hp : c ≠ 0x2B#8 := by
          rintro rfl
          exact absurd hl (by unfold letter; decide)
        have hm : c ≠ 0x2D#8 := by
          rintro rfl
          exact absurd hl (by unfold letter; decide)
        simp [afterSign, hp, hm]
    · rw [List.cons_append, dropWhile_number k rfl]
      rfl
    · rw [List.cons_append, dropWhile_number k rfl]
      rfl
  simp only [readInt, hu, hd, Bool.false_eq_true, if_false]

/-- A hexadecimal digit's character, in upper case, is a number character and no "x". -/
theorem hexChar_spec (d : Nat) (h : d < 16) :
    ∃ c, (∀ t, digitsTextUpper (d :: t) = c :: digitsTextUpper t) ∧ hexDigit c = some d ∧
      isNumberChar c = true ∧ c ≠ 0x78#8 ∧ c ≠ 0x58#8 :=
  ⟨_, fun _ => rfl, hexDigit_text d h, by interval_cases d <;> decide⟩

/-- The digits after the optional prefix begin no prefix themselves: only a lone "0" before an "x" would. -/
theorem hasHexPrefix_digits {d : Nat} {ds : List Nat} {rest : List Byte} (hd : ∀ x ∈ d :: ds, x < 16)
    (hx : d :: ds ≠ [0] ∨ ∀ c, rest.head? = some c → c ≠ 0x78#8 ∧ c ≠ 0x58#8) :
    hasHexPrefix (digitsTextUpper (d :: ds) ++ rest) = false := by
  obtain ⟨c, hc, h0, -⟩ := hexChar_spec d (hd d List.mem_cons_self)
  rw [hc]
  cases ds with
  | nil =>
    cases rest with
    | nil => rfl
    | cons x t =>
      rcases hx with hx | hx
      · have hne : c ≠ 0x30#8 := by
          rintro rfl
          exact hx (by rw [show d = 0 from (Option.some.inj (h0.symm.trans rfl : some d = some 0))])
        simp [digitsTextUpper, hasHexPrefix, hne]
      · obtain ⟨h1, h2⟩ := hx x rfl
        simp [digitsTextUpper, hasHexPrefix, h1, h2]
  | cons e t =>
    obtain ⟨x, hx, -, -, h1, h2⟩ := hexChar_spec e (hd e (by simp))
    rw [hx]
    simp [hasHexPrefix, h1, h2]

/-- The parse of service 10 on an optional prefix and at least one digit. -/
theorem readHex_number {pre : List Byte} {d : Nat} {ds : List Nat} {rest : List Byte}
    (hp : pre = [] ∨ pre = [0x30, 0x78] ∨ pre = [0x30, 0x58]) (hd : ∀ x ∈ d :: ds, x < 16)
    (hr : ∀ c, rest.head? = some c → noHexDigit c)
    (hx : pre ≠ [] ∨ d :: ds ≠ [0] ∨ ∀ c, rest.head? = some c → c ≠ 0x78#8 ∧ c ≠ 0x58#8) :
    let input := pre ++ digitsTextUpper (d :: ds) ++ rest
    readHex input = (some (digitsValue 16 (d :: ds)), afterParse 16 input rest) := by
  intro input
  obtain ⟨c, hc, h1, h2, -⟩ := hexChar_spec d (hd d List.mem_cons_self)
  have hsc : scanDigits hexDigit 16 0 (digitsTextUpper (d :: ds) ++ rest) =
      (digitsValue 16 (d :: ds), rest) :=
    scanDigits_text _ _ _ _ _ _ (fun x hx => hexDigit_text x (hd x hx))
      fun x hx => hexDigit_none x (hr x hx)
  have hst : startsWithDigit hexDigit (digitsTextUpper (d :: ds) ++ rest) = true := by
    rw [hc]
    simp [startsWithDigit, h1]
  have hsp : startsWithSpace input = false := by
    simp only [input, hc]
    rcases hp with rfl | rfl | rfl
    · exact isSpace_number h2
    · exact isSpace_number rfl
    · exact isSpace_number rfl
  have hu : (if hasHexPrefix input then input.drop 2 else input) = digitsTextUpper (d :: ds) ++ rest := by
    simp only [input]
    rcases hp with rfl | rfl | rfl
    · rw [List.nil_append, hasHexPrefix_digits hd (hx.resolve_left fun h => h rfl)]
      rfl
    · rfl
    · rfl
  simp only [readHex, hsp, Bool.false_and, Bool.false_eq_true, if_false, hu, hst, if_true, hsc]

/-- The parse of service 10 on a prefix with no digit after it: no number, or the number 0. -/
theorem readHex_barePrefix {pre rest : List Byte} (hp : pre = [0x30, 0x78] ∨ pre = [0x30, 0x58])
    (hr : ∀ c, rest.head? = some c → noHexDigit c) :
    (readHex (pre ++ rest)).1 = none ∨ (readHex (pre ++ rest)).1 = some 0 := by
  have hd : startsWithDigit hexDigit rest = false := by
    cases rest with
    | nil => rfl
    | cons c t => simp [startsWithDigit, hexDigit_none c (hr c rfl)]
  have hs : startsWithSpace (pre ++ rest) = false := by
    rcases hp with rfl | rfl <;> exact isSpace_number rfl
  have hu : (if hasHexPrefix (pre ++ rest) then (pre ++ rest).drop 2 else pre ++ rest) = rest := by
    rcases hp with rfl | rfl <;> rfl
  simp only [readHex, hs, Bool.false_and, Bool.false_eq_true, if_false, hu, hd]
  split
  · exact .inr rfl
  · exact .inl rfl

/-- A sign or a letter that is no digit begins neither a number nor a prefix. -/
theorem readHex_head {c : Byte} (hc : c = 0x2B ∨ c = 0x2D ∨ letter c) (hn : noHexDigit c) (t : List Byte) :
    startsWithDigit hexDigit (c :: t) = false ∧ hasHexPrefix (c :: t) = false ∧
      startsWithSpace (c :: t) = false := by
  refine ⟨by simp [startsWithDigit, hexDigit_none c hn], ?_, ?_⟩
  · have h0 : c ≠ 0x30#8 := by
      rintro rfl
      exact absurd hn (by unfold noHexDigit; decide)
    cases t <;> simp [hasHexPrefix, h0]
  · refine isSpace_number ?_
    rcases hc with rfl | rfl | hl
    · rfl
    · rfl
    · exact isNumberChar_letter hl

/-- The parse of service 10 on spaces, and then the end of input or a sign or letter that is no digit: no
number, whether or not spaces are skipped. -/
theorem readHex_noNumber {k : Nat} {rest : List Byte}
    (hr : ∀ c, rest.head? = some c → (c = 0x2B ∨ c = 0x2D ∨ letter c) ∧ noHexDigit c) :
    (readHex (List.replicate k 0x20 ++ rest)).1 = none ∧
      (k = 0 → (readHex rest).2 = afterParse 16 rest rest) := by
  have base : startsWithDigit hexDigit rest = false ∧ hasHexPrefix rest = false ∧
      startsWithSpace rest = false := by
    cases rest with
    | nil => exact ⟨rfl, rfl, rfl⟩
    | cons c t => exact readHex_head (hr c rfl).1 (hr c rfl).2 t
  obtain ⟨h1, h2, h3⟩ := base
  refine ⟨?_, fun _ => by simp [readHex, h1, h2, h3]⟩
  cases k with
  | zero => simp [readHex, h1, h2, h3]
  | succ k =>
    have hs : startsWithSpace (List.replicate (k + 1) 0x20 ++ rest) = true := rfl
    have hp : hasHexPrefix (List.replicate (k + 1) 0x20 ++ rest) = false := by
      rw [List.replicate_succ, List.cons_append]
      cases List.replicate k 0x20 ++ rest <;> rfl
    have hd : startsWithDigit hexDigit (List.replicate (k + 1) 0x20 ++ rest) = false := rfl
    have hw : rest.dropWhile isSpace = rest := by
      cases rest with
      | nil => rfl
      | cons c t => rw [List.dropWhile_cons, show isSpace c = false from h3]; rfl
    cases hc : Config.readHexSkipsSpace <;>
      simp only [readHex, hs, hp, hd, hc, dropWhile_spaces, hw, h1, h2, Bool.and_self, Bool.and_false,
        Bool.false_and, Bool.false_eq_true, if_true, if_false]

end Sys2Proof.Machine
end

