-- ==== Sys2Proof/Tests/Slice0.lean ====
section
/-! SUPPORT. The model's own tests: ill-formed terms refused, words decoded, one step at a time, and for
every obligation with hypotheses a state that meets them. Expected results are the worked examples of
the rules named and the vectors of `95_test_vectors.md`. -/

namespace Sys2Proof.Tests

open Machine

/-! ## Helpers -/

/-- The standard start state of `95_test_vectors.md`: reset, then the words loaded at 0x1000. -/
def start (words : List Word) : State := State.reset.load 0x1000 words

/-- A start state with r[0] and the flags given. -/
def startR0 (words : List Word) (r0 : Word) (n z v c : Bool) : State :=
  { (start words).setReg .r0 r0 with flags := ⟨n, z, v, c⟩ }

/-- One step completes and its state passes the check. -/
def after (s : State) (p : State → Bool) : Bool :=
  match step s with
  | .next t => p t
  | _ => false

/-- One step raises the fatal error with that report. -/
def fatal (s : State) (pc0 w : Word) : Bool :=
  match step s with
  | .fault (.unimplementedInstruction a b) => a == pc0 && b == w
  | _ => false

/-- r[0] to r[2] set, for a service. -/
def withArgs (s : State) (r0 r1 r2 : Word) : State :=
  ((s.setReg .r0 r0).setReg .r1 r1).setReg .r2 r2

/-- An answer of the host. -/
def answer (ok : Bool) (position size : Nat) (data : List Byte) : HostAnswer := ⟨ok, 9, position, size, data⟩

/-! ## Well-formedness: the one check refuses (rule R52) -/

theorem test_jmp_to_register_is_illFormed : (Instr.jmp ⟨.register, .r1⟩).wellFormed = false := by decide

theorem test_jsr_to_register_is_illFormed : (Instr.jsr .r5 ⟨.register, .r1⟩).wellFormed = false := by decide

theorem test_jmp_deferred_is_wellFormed : (Instr.jmp ⟨.deferred, .r1⟩).wellFormed = true := by decide

theorem test_mov_immediate_destination_is_wellFormed :
    (Instr.mov ⟨.register, .r1⟩ ⟨.autoInc, .r7⟩).wellFormed = true := by decide

/-! ## Decoding: one word of each instruction (`95_test_vectors.md` section 2.1) -/

theorem test_decode_halt : decodeWord 0x0000 = .ok (.halt) := by decide

theorem test_decode_rts : decodeWord 0x0015 = .ok (.rts .r5) := by decide

theorem test_decode_jmp : decodeWord 0x0049 = .ok (.jmp ⟨.deferred, .r1⟩) := by decide

theorem test_decode_br : decodeWord 0x0100 = .ok (.br 0) := by decide

theorem test_decode_bne : decodeWord 0x02FE = .ok (.bne 0xFE) := by decide

theorem test_decode_beq : decodeWord 0x0303 = .ok (.beq 3) := by decide

theorem test_decode_jsr : decodeWord 0x0977 = .ok (.jsr .r5 ⟨.index, .r7⟩) := by decide

theorem test_decode_clr : decodeWord 0x0A00 = .ok (.clr ⟨.register, .r0⟩) := by decide

theorem test_decode_inc : decodeWord 0x0A80 = .ok (.inc ⟨.register, .r0⟩) := by decide

theorem test_decode_dec : decodeWord 0x0AC0 = .ok (.dec ⟨.register, .r0⟩) := by decide

theorem test_decode_tst : decodeWord 0x0BC0 = .ok (.tst ⟨.register, .r0⟩) := by decide

theorem test_decode_ror : decodeWord 0x0C00 = .ok (.ror ⟨.register, .r0⟩) := by decide

theorem test_decode_rol : decodeWord 0x0C40 = .ok (.rol ⟨.register, .r0⟩) := by decide

theorem test_decode_asr : decodeWord 0x0C80 = .ok (.asr ⟨.register, .r0⟩) := by decide

theorem test_decode_asl : decodeWord 0x0CC0 = .ok (.asl ⟨.register, .r0⟩) := by decide

theorem test_decode_mov : decodeWord 0x1042 = .ok (.mov ⟨.register, .r1⟩ ⟨.register, .r2⟩) := by decide

theorem test_decode_cmp : decodeWord 0x25C0 = .ok (.cmp ⟨.autoInc, .r7⟩ ⟨.register, .r0⟩) := by decide

theorem test_decode_bit : decodeWord 0x35C0 = .ok (.bit ⟨.autoInc, .r7⟩ ⟨.register, .r0⟩) := by decide

theorem test_decode_bic : decodeWord 0x45C0 = .ok (.bic ⟨.autoInc, .r7⟩ ⟨.register, .r0⟩) := by decide

theorem test_decode_bis : decodeWord 0x55C0 = .ok (.bis ⟨.autoInc, .r7⟩ ⟨.register, .r0⟩) := by decide

theorem test_decode_add : decodeWord 0x65C0 = .ok (.add ⟨.autoInc, .r7⟩ ⟨.register, .r0⟩) := by decide

theorem test_decode_sub : decodeWord 0xE5C0 = .ok (.sub ⟨.autoInc, .r7⟩ ⟨.register, .r0⟩) := by decide

theorem test_decode_movb : decodeWord 0x95C0 = .ok (.movb ⟨.autoInc, .r7⟩ ⟨.register, .r0⟩) := by decide

theorem test_decode_bitb : decodeWord 0xB5C0 = .ok (.bitb ⟨.autoInc, .r7⟩ ⟨.register, .r0⟩) := by decide

theorem test_decode_bicb : decodeWord 0xC5C0 = .ok (.bicb ⟨.autoInc, .r7⟩ ⟨.register, .r0⟩) := by decide

theorem test_decode_bisb : decodeWord 0xD5C0 = .ok (.bisb ⟨.autoInc, .r7⟩ ⟨.register, .r0⟩) := by decide

theorem test_decode_cmpb : decodeWord 0xA001 = .ok (.cmpb ⟨.register, .r0⟩ ⟨.register, .r1⟩) := by decide

theorem test_decode_clrb : decodeWord 0x8A00 = .ok (.clrb ⟨.register, .r0⟩) := by decide

theorem test_decode_incb : decodeWord 0x8A80 = .ok (.incb ⟨.register, .r0⟩) := by decide

theorem test_decode_decb : decodeWord 0x8AC0 = .ok (.decb ⟨.register, .r0⟩) := by decide

theorem test_decode_tstb : decodeWord 0x8BC0 = .ok (.tstb ⟨.register, .r0⟩) := by decide

theorem test_decode_trap : decodeWord 0x881A = .ok (.trap 26) := by decide

theorem test_decode_every_mode :
    ([0x0A00, 0x0A0B, 0x0A13, 0x0A1F, 0x0A23, 0x0A2A, 0x0A37, 0x0A3B].map decodeWord) =
      [.ok (.clr ⟨.register, .r0⟩), .ok (.clr ⟨.deferred, .r3⟩), .ok (.clr ⟨.autoInc, .r3⟩),
        .ok (.clr ⟨.autoIncDeferred, .r7⟩), .ok (.clr ⟨.autoDec, .r3⟩), .ok (.clr ⟨.autoDecDeferred, .r2⟩),
        .ok (.clr ⟨.index, .r7⟩), .ok (.clr ⟨.indexDeferred, .r3⟩)] := by decide

theorem test_decode_rejects_by_name : decodeWord 0x00A0 = .error (.unimplementedEncoding 0x00A0) := by decide

theorem test_decode_short : decode [0x42] = .error .truncated := by decide

theorem test_table_word_is_little_endian : tableBytes 16 0x1042 = [0x42, 0x10, 0, 0, 0, 0] := by decide

/-! ## Instructions, one step each (the examples of rules R101 to R154) -/

/-- Rule R101: `MOV #0x8000, R1`. -/
theorem test_mov : after (startR0 [0x15C1, 0x8000] 0 false false true true) (fun t => t.reg .r1 == 0x8000 && t.flags == ⟨true, false, false, true⟩ && t.pc == 0x1004) = true := by decide

/-- Rule R94: `MOV (R1)+, (R1)+` copies the word at r[1] to r[1] + 2. -/
theorem test_mov_same_register_twice : after ((start [0x1451, 0, 0xBEEF]).setReg .r1 0x1004) (fun t => t.reg .r1 == 0x1008 && t.mem.readWord 0 0x1006 == 0xBEEF) = true := by decide

/-- Rule R102: `CMP #1, R0`. -/
theorem test_cmp : after (startR0 [0x25C0, 1] 0 false false false false) (fun t => t.reg .r0 == 0 && t.flags == ⟨true, false, false, true⟩ && t.pc == 0x1004) = true := by decide

/-- Rule R103: `BIT #0x00F0, R0`. -/
theorem test_bit : after (startR0 [0x35C0, 0x00F0] 0x0F0F false false true true) (fun t => t.reg .r0 == 0x0F0F && t.flags == ⟨false, true, false, false⟩ && t.pc == 0x1004) = true := by decide

/-- Rule R104: `BIC #0x00FF, R0`. -/
theorem test_bic : after (startR0 [0x45C0, 0x00FF] 0x1234 false false false false) (fun t => t.reg .r0 == 0x1200 && t.flags == ⟨false, false, false, false⟩ && t.pc == 0x1004) = true := by decide

/-- Rule R105: `BIS #0x8000, R0`. -/
theorem test_bis : after (startR0 [0x55C0, 0x8000] 1 false false false false) (fun t => t.reg .r0 == 0x8001 && t.flags == ⟨true, false, false, false⟩ && t.pc == 0x1004) = true := by decide

/-- Rule R106: `ADD #1, R0`. -/
theorem test_add : after (startR0 [0x65C0, 1] 0x7FFF false false false false) (fun t => t.reg .r0 == 0x8000 && t.flags == ⟨true, false, true, false⟩ && t.pc == 0x1004) = true := by decide

/-- Rule R106, corner case: 0x8000 + 0x8000. -/
theorem test_add_carry : after (startR0 [0x6000] 0x8000 false false false false) (fun t => t.reg .r0 == 0 && t.flags == ⟨false, true, true, true⟩ && t.pc == 0x1002) = true := by decide

/-- Rule R107: `SUB #3, R0`. -/
theorem test_sub : after (startR0 [0xE5C0, 3] 5 false false false false) (fun t => t.reg .r0 == 2 && t.flags == ⟨false, false, false, false⟩ && t.pc == 0x1004) = true := by decide

/-- Rule R107, corner case: 0x7FFF - 0x8000. -/
theorem test_sub_overflow : after (startR0 [0xE5C0, 0x8000] 0x7FFF false false false false) (fun t => t.reg .r0 == 0xFFFF && t.flags == ⟨true, false, true, true⟩ && t.pc == 0x1004) = true := by decide

/-- Rule R108: `MOVB #0x80, R0`. -/
theorem test_movb : after (startR0 [0x95C0, 0x80] 0x1234 false false false true) (fun t => t.reg .r0 == 0xFF80 && t.flags == ⟨true, false, false, true⟩ && t.pc == 0x1004) = true := by decide

/-- Rule R109: `CMPB #0x80, R0`. -/
theorem test_cmpb : after (startR0 [0xA5C0, 0x80] 0x127F false false false false) (fun t => t.reg .r0 == 0x127F && t.flags == ⟨true, false, true, true⟩ && t.pc == 0x1004) = true := by decide

/-- Rule R110: `BITB #0x80, R0`. -/
theorem test_bitb : after (startR0 [0xB5C0, 0x80] 0x1280 false false true true) (fun t => t.reg .r0 == 0x1280 && t.flags == ⟨true, false, false, false⟩ && t.pc == 0x1004) = true := by decide

/-- Rule R111: `BICB #0x0F, R0`. -/
theorem test_bicb : after (startR0 [0xC5C0, 0x0F] 0x12FF false false false false) (fun t => t.reg .r0 == 0x12F0 && t.flags == ⟨true, false, false, false⟩ && t.pc == 0x1004) = true := by decide

/-- Rule R112: `BISB #0x80, R0`. -/
theorem test_bisb : after (startR0 [0xD5C0, 0x80] 0x1201 false false false false) (fun t => t.reg .r0 == 0x1281 && t.flags == ⟨true, false, false, false⟩ && t.pc == 0x1004) = true := by decide

/-- Rules R81, R107: `SUB (R1)+, R0` is a word instruction and steps by 2, `BISB (R1)+, R0` by 1. -/
theorem test_step_by_size :
    after ((start [0xE440]).setReg .r1 0x2000) (fun t => t.reg .r1 == 0x2002) = true ∧
    after ((start [0xD440]).setReg .r1 0x2000) (fun t => t.reg .r1 == 0x2001) = true := by decide

/-- Rule R121: `CLR R0`. -/
theorem test_clr : after (startR0 [0x0A00] 0x1234 true false true true) (fun t => t.reg .r0 == 0 && t.flags == ⟨false, true, false, false⟩ && t.pc == 0x1002) = true := by decide

/-- Rule R121, corner case: `CLR #5` zeroes its own extension word in bank 0. -/
theorem test_clr_immediate : after ({ start [0x0A17, 5] with memBank := 2 }) (fun t => t.mem.readWord 0 0x1002 == 0 && t.pc == 0x1004) = true := by decide

/-- Rule R122: `INC R0`. -/
theorem test_inc : after (startR0 [0x0A80] 0x7FFF false false false true) (fun t => t.reg .r0 == 0x8000 && t.flags == ⟨true, false, true, true⟩ && t.pc == 0x1002) = true := by decide

/-- Rule R123: `DEC R0`. -/
theorem test_dec : after (startR0 [0x0AC0] 0x8000 false false false true) (fun t => t.reg .r0 == 0x7FFF && t.flags == ⟨false, false, true, true⟩ && t.pc == 0x1002) = true := by decide

/-- Rule R124: `TST R0`. -/
theorem test_tst : after (startR0 [0x0BC0] 0x8000 false false true true) (fun t => t.reg .r0 == 0x8000 && t.flags == ⟨true, false, false, false⟩ && t.pc == 0x1002) = true := by decide

/-- Rule R125: `ROR R0`. -/
theorem test_ror : after (startR0 [0x0C00] 0x8001 false false false true) (fun t => t.reg .r0 == 0xC000 && t.flags == ⟨true, false, false, true⟩ && t.pc == 0x1002) = true := by decide

/-- Rule R126: `ROL R0`. -/
theorem test_rol : after (startR0 [0x0C40] 0x4000 false false false true) (fun t => t.reg .r0 == 0x8001 && t.flags == ⟨true, false, true, false⟩ && t.pc == 0x1002) = true := by decide

/-- Rule R127: `ASR R0`. -/
theorem test_asr : after (startR0 [0x0C80] 0x8001 false false false false) (fun t => t.reg .r0 == 0xC000 && t.flags == ⟨true, false, false, true⟩ && t.pc == 0x1002) = true := by decide

/-- Rule R128: `ASL R0`, the document's scenario 4. -/
theorem test_asl : after (startR0 [0x0CC0] 0x4000 false false false false) (fun t => t.reg .r0 == 0x8000 && t.flags == ⟨true, false, true, false⟩ && t.pc == 0x1002) = true := by decide

/-- Rule R129: `CLRB R0` keeps the high byte. -/
theorem test_clrb : after (startR0 [0x8A00] 0x1234 true false true true) (fun t => t.reg .r0 == 0x1200 && t.flags == ⟨false, true, false, false⟩ && t.pc == 0x1002) = true := by decide

/-- Rule R130: `INCB R0`. -/
theorem test_incb : after (startR0 [0x8A80] 0x127F false false false true) (fun t => t.reg .r0 == 0x1280 && t.flags == ⟨true, false, true, true⟩ && t.pc == 0x1002) = true := by decide

/-- Rule R131: `DECB R0`. -/
theorem test_decb : after (startR0 [0x8AC0] 0x1280 false false false true) (fun t => t.reg .r0 == 0x127F && t.flags == ⟨false, false, true, true⟩ && t.pc == 0x1002) = true := by decide

/-- Rule R132: `TSTB R0`. -/
theorem test_tstb : after (startR0 [0x8BC0] 0x0080 false false true true) (fun t => t.reg .r0 == 0x0080 && t.flags == ⟨true, false, false, false⟩ && t.pc == 0x1002) = true := by decide

/-- Rule R132, corner case: `TSTB (R6)+` advances r[6] by 2. -/
theorem test_tstb_sp_steps_by_two : after ((start [0x8BD6]).setReg .r6 0x2000) (fun t => t.sp == 0x2002) = true := by decide

/-- Rule R141: word 000600, off = -128. -/
theorem test_br : after (start [0x0180]) (fun t => t.pc == 0x0F02) = true := by decide

/-- Rule R142: word 001376 with Z = 0. -/
theorem test_bne : after (startR0 [0x02FE] 0 true false true true) (fun t => t.reg .r0 == 0 && t.flags == ⟨true, false, true, true⟩ && t.pc == 0x0FFE) = true := by decide

/-- Rule R143: word 001403 with Z = 1. -/
theorem test_beq : after (startR0 [0x0303] 0 false true false false) (fun t => t.reg .r0 == 0 && t.flags == ⟨false, true, false, false⟩ && t.pc == 0x1008) = true := by decide

/-- Rule R143: word 001403 with Z = 0. -/
theorem test_beq_not_taken : after (startR0 [0x0303] 0 false false false false) (fun t => t.reg .r0 == 0 && t.flags == ⟨false, false, false, false⟩ && t.pc == 0x1002) = true := by decide

/-- Rule R150: `JMP label` with label = 0x1014. -/
theorem test_jmp : after (start [0x0077, 0x0010]) (fun t => t.pc == 0x1014) = true := by decide

/-- Rule R150 with decision D4: `JMP R1` raises the fatal error. -/
theorem test_jmp_to_register : fatal (start [0x0041]) 0x1000 0x0041 = true := by decide

/-- Rule R151: `JSR R5, label` with label = 0x1006. -/
theorem test_jsr : after ((start [0x0977, 2]).setReg .r5 0xAAAA) (fun t => t.mem.readWord 0 0xFFFC == 0xAAAA && t.sp == 0xFFFC && t.reg .r5 == 0x1004 && t.pc == 0x1006) = true := by decide

/-- Rule R151, corner case: `JSR R5, (R6)+` pushes on the word whose address was the target. -/
theorem test_jsr_takes_the_old_sp : after (((start [0x0956]).setReg .r5 0xAAAA).setReg .r6 0x2000) (fun t => t.mem.readWord 0 0x2000 == 0xAAAA && t.sp == 0x2000 && t.pc == 0x2000) = true := by decide

/-- Rule R152: `RTS R5`. -/
theorem test_rts : after ({ ((start [0x0015]).setReg .r5 0x1008).setReg .r6 0xFFFC with mem := (start [0x0015]).mem.writeWord 0 0xFFFC 0xAAAA }) (fun t => t.reg .r5 == 0xAAAA && t.sp == 0xFFFE && t.pc == 0x1008) = true := by decide

/-- Rule R152, corner case: `RTS R7` pops a word, discards it and goes on. -/
theorem test_rts_pc : after (start [0x0017]) (fun t => t.sp == 0 && t.pc == 0x1002) = true := by decide

/-- Rule R153: `HALT`. -/
theorem test_halt : after (start [0]) (fun t => t.halted && t.pc == 0x1002) = true := by decide

/-! ## Fetch, faults and the bank (rules R35, R61, R200) -/

/-- Rule R66: the DEC encoding of `NOP` is illegal. -/
theorem test_illegal_word : fatal (start [0x00A0]) 0x1000 0x00A0 = true := by decide

/-- Rule R35: a fetch at 0xFFFF takes its high byte from address 0. -/
theorem test_fetch_wraps :
    after (State.reset.load 0xFFFF [0x0A80]) (fun t => t.pc == 1 && t.reg .r0 == 1) = true := by decide

/-- Rule R32: the data bank is `mem_bank`, the code bank bank 0. -/
theorem test_data_bank :
    after { withArgs (start [0x1001]) 0x1234 0 0 with memBank := 3 } (fun t => t.reg .r1 == 0x1234) = true ∧
    after { withArgs (start [0x1009]) 0x1234 0x2000 0 with memBank := 3 }
      (fun t => t.mem.readWord 3 0x2000 == 0x1234 && t.mem.readWord 0 0x2000 == 0) = true := by decide

/-! ## Services (the examples of rules R165 to R181) -/

/-- `TRAP`: a vector that names no service, and services 1 to 10. -/
theorem test_trap_text_services :
    -- Rule R162: `TRAP #0` leaves all four flags 1.
    after (startR0 [0x8800] 7 true true true true) (fun t => t.reg .r0 == 7 && t.flags == ⟨true, true, true, true⟩ && t.pc == 0x1002) = true ∧
    -- Rule R165.
    after (withArgs (start [0x8801]) 0x4142 0 0) (fun t => t.hostOut == [0x42] && t.reg .r0 == 0x4142) = true ∧
    -- Rule R166.
    after ({ withArgs (start [0x8802]) 5 0 0 with hostIn := [0x41] }) (fun t => t.reg .r0 == 0x41 && !t.flags.z && t.hostIn == []) = true ∧
    -- Rule R167, the document's scenario 5.
    after ((start [0x8803, 0x6948, 0]).setReg .r0 0x1002) (fun t => t.hostOut == [0x48, 0x69]) = true ∧
    -- Rule R168: 0x8000 sends "-32768".
    after (withArgs (start [0x8804]) 0x8000 0 0) (fun t => t.hostOut == [0x2D, 0x33, 0x32, 0x37, 0x36, 0x38]) = true ∧
    -- Rule R169.
    after ({ withArgs (start [0x8805]) 0x2000 16 0 with hostIn := [0x68, 0x69, 0x0A], mem := (start [0x8805]).mem.writeByte 0 0x2002 7 }) (fun t => t.mem.readWord 0 0x2000 == 0x6968 && t.mem.readByte 0 0x2002 == 0 && t.reg .r0 == 2 && !t.flags.z) = true ∧
    -- Rule R169: "ab" and max = 3, max - 1 bytes exactly.
    after ({ withArgs (start [0x8805]) 0x2000 3 0 with hostIn := [0x61, 0x62, 0x0A] }) (fun t => t.mem.readWord 0 0x2000 == 0x6261 && t.reg .r0 == 2 && !t.flags.z) = true ∧
    -- Rule R170: 0xBEEF sends "0xbeef".
    after (withArgs (start [0x8806]) 0xBEEF 0 0) (fun t => t.hostOut == [0x30, 0x78, 0x62, 0x65, 0x65, 0x66]) = true ∧
    -- Rule R171, the document's scenario 6.
    after (withArgs (start [0x8807]) 0xFFFF 0 0) (fun t => t.hostOut == [0x36, 0x35, 0x35, 0x33, 0x35] && !t.flags.n && !t.flags.v && !t.flags.c) = true ∧
    -- Rule R172.
    after ((start [0x8808, 0x6948, 0]).setReg .r0 0x1002) (fun t => t.hostOut == [0x48, 0x69, 0x0A]) = true ∧
    -- Rule R173: "  -12" and a newline.
    after ({ withArgs (start [0x8809]) 0 0 0 with hostIn := [0x20, 0x20, 0x2D, 0x31, 0x32, 0x0A] }) (fun t => t.reg .r0 == 0xFFF4 && !t.flags.z) = true ∧
    -- Rule R173, D29: a sign and the end of input: all is read, and no number.
    after ({ withArgs (start [0x8809]) 0 0 0 with hostIn := [0x20, 0x2B] }) (fun t => t.hostIn == [] && t.flags.z) = true ∧
    -- Rule R174: "0x1F".
    after ({ withArgs (start [0x880A]) 0 0 0 with hostIn := [0x30, 0x78, 0x31, 0x46] }) (fun t => t.reg .r0 == 0x1F && !t.flags.z) = true := by decide

/-- Rule R169 with D23: of "abc" with max = 3 the first two bytes are kept by both candidates. -/
theorem test_read_line_too_long : ∀ p, (takeLine p 2 [0x61, 0x62, 0x63, 0x0A]).1 = [0x61, 0x62] := by
  intro p
  cases p <;> decide

/-- `TRAP`: services 20 to 26. -/
theorem test_trap_file_and_bank_services :
    -- Rule R175: a mode outside 0 .. 3 fails.
    after (withArgs (start [0x8814]) 0x2000 4 0) (fun t => t.reg .r0 == 0xFFFF && t.files == []) = true ∧
    -- Rule R176: "abc", two bytes.
    after ({ withArgs (start [0x8815]) 5 0x3000 2 with hostAnswers := [answer true 0 0 [0x61, 0x62, 0x63]], files := [(5, ⟨9, 0⟩)] }) (fun t => t.reg .r0 == 2 && t.mem.readWord 0 0x3000 == 0x6261 && t.files == [(5, ⟨9, 2⟩)] && !t.flags.z) = true ∧
    -- Rule R177: a length of 0 sets Z.
    after ({ withArgs (start [0x8816]) 5 0x3000 0 with hostAnswers := [answer true 0 0 []], files := [(5, ⟨9, 0⟩)] }) (fun t => t.reg .r0 == 0 && t.flags.z) = true ∧
    -- Rule R178.
    after ({ withArgs (start [0x8817]) 5 0 0 with hostAnswers := [answer true 0 0 []], files := [(5, ⟨9, 0⟩)] }) (fun t => t.reg .r0 == 0 && t.files == []) = true ∧
    -- Rule R179: from the end.
    after ({ withArgs (start [0x8818]) 5 0xFFFF 2 with hostAnswers := [answer true 0 10 []], files := [(5, ⟨9, 0⟩)] }) (fun t => t.reg .r0 == 0 && t.files == [(5, ⟨9, 9⟩)]) = true ∧
    -- Rule R180: the low 16 bits.
    after ({ withArgs (start [0x8819]) 5 0 0 with hostAnswers := [answer true 0 0 []], files := [(5, ⟨9, 70000⟩)] }) (fun t => t.reg .r0 == 0x1170) = true ∧
    -- Rule R181.
    after (withArgs (start [0x881A]) 2 0 0) (fun t => t.memBank == 2 && t.reg .r0 == 0) = true := by decide

/-! ## The run loop (rules R210 to R213) -/

/-- Rule R212: a breakpoint stops before the instruction. -/
theorem test_breakpoint :
    (match runWith .callerSteps 9 ((start [0x15C0, 0x04D2, 0]).addBreakpoint 0x1004) with
     | .breakpoint t => t.reg .r0 == 0x04D2 && t.pc == 0x1004 && t.breakHit && t.breakAddr == 0x1004
     | _ => false) = true := by decide

/-- Rule R210: the fatal error ends the run with its report. -/
theorem test_run_fatal : runWith .callerSteps 9 (start [0x00A0]) = .fatal 0x1000 0x00A0 := by decide

/-- Rule R210: a budget of 0 does nothing, also at a breakpoint (decision D14). -/
theorem test_run_budget :
    runWith .callerSteps 0 ((start [0]).addBreakpoint 0x1000) =
      .stepsExhausted ((start [0]).addBreakpoint 0x1000) := by decide

/-- Rule R214: a matching access is logged, with nothing else changed. -/
theorem test_watch_logs_a_store :
    after ((start [0x1009]).setWatch ⟨true, false, 0, 0⟩)
      (fun t => t.watchLog.map (fun l => (l.direction, l.addr, l.size, l.value)) ==
        [(.write, 0, .word, 0)]) = true := by decide

/-! ## Witnesses: for every obligation with hypotheses, a state and operands that meet them -/

/-- Register 1 as an operand. -/
def r1 : Spec := ⟨.register, .r1⟩

/-- `(R2)`. -/
def atR2 : Spec := ⟨.deferred, .r2⟩

/-- `#n`. -/
def imm : Spec := ⟨.autoInc, .r7⟩

/-- A start state with the data bank 2. -/
def inBank2 : State := { start [0x1042] with memBank := 2 }

theorem witness_EncodeOfDecodeIsTheWord : decodeWord 0x0977 = .ok (.jsr .r5 ⟨.index, .r7⟩) := by decide

/-- Both ends of each of the thirteen ranges, and the legal words next to them. -/
theorem witness_IllegalWordsAreTheThirteenRanges :
    [0x0001, 0x000F, 0x0018, 0x003F, 0x0080, 0x00FF, 0x0400, 0x07FF, 0x0A40, 0x0A7F, 0x0B00, 0x0BBF, 0x0D00,
      0x0FFF, 0x7000, 0x87FF, 0x8900, 0x89FF, 0x8A40, 0x8A7F, 0x8B00, 0x8BBF, 0x8C00, 0x8FFF, 0xF000,
      0xFFFF].all illegalWord = true ∧
    [0x0000, 0x0010, 0x0017, 0x0040, 0x007F, 0x0100, 0x03FF, 0x0800, 0x0A3F, 0x0A80, 0x0AFF, 0x0BC0, 0x0CFF,
      0x1000, 0x6FFF, 0x8800, 0x88FF, 0x8A00, 0x8A3F, 0x8A80, 0x8AFF, 0x8BC0, 0x8BFF, 0x9000,
      0xEFFF].any illegalWord = false := by decide

/-- The memory-watch with a range, from `0x10` to `0x20`, or with every access traced. -/
def watching (traceAll : Bool) : State :=
  { State.reset with watch := { enabled := true, traceAll := traceAll, start := 0x10, stop := 0x20 } }

/-- Matched at both ends of the range, not beside it, and anywhere when all is traced. -/
theorem witness_ReadsAreLittleEndianAndChangeNothing :
    State.reset.watch.enabled = false ∧ ¬watchMatches State.reset 0x10 ∧
      watchMatches (watching false) 0x10 ∧ watchMatches (watching false) 0x20 ∧
      ¬watchMatches (watching false) 0x0F ∧ ¬watchMatches (watching false) 0x21 ∧
      watchMatches (watching true) 0x21 := by decide

theorem witness_InstructionsKeepTheOtherBanks :
    (∃ t, exec (.mov r1 atR2) inBank2 = .next t) ∧ (3 : BitVec 2) ≠ 0 ∧ 3 ≠ inBank2.memBank ∧
      inBank2.memBank ≠ 0 ∧ (∀ d, writtenSpec (.mov r1 atR2) = some d → d.codeTarget = false) :=
  ⟨⟨_, rfl⟩, by decide, by decide, by decide, fun d h => by cases h; rfl⟩

theorem witness_StepsKeepTheStateWellFormed :
    (start [0x1042]).wf ∧ ∃ t, step (start [0x1042]) = .next t := ⟨by decide, _, rfl⟩

theorem witness_ResetLeavesTheStatedValues : Reg.r7 ≠ Reg.r6 := by decide

theorem witness_StepRunsTheDecodedInstruction :
    (start [0x1042]).halted = false ∧
      decode ((start [0x1042]).mem.readByte 0 (start [0x1042]).pc ::
        (start [0x1042]).mem.readByte 0 ((start [0x1042]).pc + 1) :: []) =
        .ok (.mov r1 ⟨.register, .r2⟩, []) ∧ (start [0x1042]).watch.enabled = false := by decide

/-- An illegal word, a `JMP` and a `JSR` to a register. -/
theorem witness_StepFaultsExactlyOnUnimplementedWords :
    fatal (start [0x0001]) 0x1000 0x0001 = true ∧ fatal (start [0x0047]) 0x1000 0x0047 = true ∧
      fatal (start [0x0947]) 0x1000 0x0947 = true ∧ illegalWord 0x0001 = true ∧
      jumpToRegister 0x0047 = true ∧ jumpToRegister 0x0947 = true := by decide

theorem lookupKey_map_same {α : Type} (v : α) (l : List Nat) (k : Nat) (h : k ∈ l) :
    lookupKey (l.map fun a => (a, v)) k = some v := by
  induction l with
  | nil => simp at h
  | cons x t ih =>
    by_cases hx : x = k
    · simp [lookupKey, hx]
    · have hk : k ∈ t := by
        rcases List.mem_cons.mp h with h | h
        · exact absurd h.symm hx
        · exact h
      simp [lookupKey, hx, ih hk]

/-- The first `n` bytes all ones: with `n` = 65,536, no string ends in bank 0. -/
def onesUpTo (n : Nat) : State := { State.reset with mem := (List.range n).map fun a => (a, 1) }

theorem onesUpTo_noZero {n : Nat} (hn : 0x10000 ≤ n) (a : Word) :
    (onesUpTo n).mem.readByte (onesUpTo n).memBank a ≠ 0 := by
  have hp : physAddr (onesUpTo n).memBank a = a.toNat := by simp [physAddr, onesUpTo, State.reset]
  have hk : lookupKey (onesUpTo n).mem a.toNat = some 1 :=
    lookupKey_map_same _ _ _ (List.mem_range.mpr (Nat.lt_of_lt_of_le a.isLt hn))
  have hm : (onesUpTo n).mem.readByte (onesUpTo n).memBank a = 1 := by
    unfold Memory.readByte Memory.read
    rw [hp, hk]
    rfl
  rw [hm]
  decide

theorem onesUpTo_refused {n : Nat} (hn : 0x10000 ≤ n) :
    exec (.trap 3) (onesUpTo n) = .refused (.unterminatedString 0) := by
  have hc : cstring 0x10000 (((onesUpTo n).setFlags (serviceFlags (onesUpTo n).flags)).reg .r0)
      ((onesUpTo n).setFlags (serviceFlags (onesUpTo n).flags)) = none :=
    (cstring_bank_none _ _).mpr (onesUpTo_noZero hn)
  show withString servicePuts _ = _
  unfold withString
  rw [hc]
  rfl

theorem witness_OnlyUnterminatedStringsAreRefused :
    ∃ n, (∀ a : Word, (onesUpTo n).mem.readByte (onesUpTo n).memBank a ≠ 0) ∧
      exec (.trap 3) (onesUpTo n) = .refused (.unterminatedString 0) :=
  ⟨0x10000, onesUpTo_noZero (Nat.le_refl _), onesUpTo_refused (Nat.le_refl _)⟩

theorem witness_HaltStopsTheMachine : Reaches State.reset State.reset ∧ decodeWord 0 = .ok .halt :=
  ⟨.start, by decide⟩

theorem witness_ProgramCounterEndsAfterTheWordsConsumed :
    aluSpecs (.mov imm imm) ≠ [] ∧ writtenSpec (.mov imm imm) ≠ some ⟨.register, .r7⟩ ∧
      aluSpecs (.clr ⟨.autoDec, .r7⟩) ≠ [] ∧
      writtenSpec (.clr ⟨.autoDec, .r7⟩) ≠ some ⟨.register, .r7⟩ := by decide

theorem witness_OneRegisterUsedTwice : Reg.r0 ≠ Reg.r6 ∧ Reg.r5 ≠ Reg.r7 := by decide

/-- A register and a memory destination. -/
theorem witness_MovbSignExtendsIntoARegister :
    destination2 .byte imm r1 (start [0]) = .reg .r1 ∧
      destination2 .byte r1 atR2 (start [0]) = .mem .data 0 := by decide

theorem witness_ByteCompareAndLogicUseOneByte :
    (operandByte r1 (operandByte imm (start [0])).2.2).1 = .reg .r1 := by decide

theorem witness_ClearWritesZero : r1.mode = .register := by decide

theorem witness_ByteCountsAndTestKeepTheHighByte : (operandByte r1 (start [0])).1 = .reg .r1 := by decide

/-- A frame's address outside the stored bytes, and a register outside the destination's. -/
theorem witness_DoubleOperandStoresAreFramed :
    ((0, 2) : BitVec 2 × Word) ∉ (destination2 .word r1 atR2 (start [0])).bytes .word (start [0]) ∧
      Reg.r3 ∉ [r1, atR2].flatMap Spec.updates ++ (destination2 .word r1 atR2 (start [0])).registers := by
  decide

theorem witness_SingleOperandStoresAreFramed :
    ((0, 1) : BitVec 2 × Word) ∉ (resolve atR2 .byte (start [0])).1.bytes .byte (start [0]) := by decide

theorem witness_JmpGoesToTheAddress : r1.mode = .register ∧ atR2.mode ≠ .register := by decide

theorem witness_JsrPushesLinksAndJumps :
    r1.mode = .register ∧ atR2.mode ≠ .register ∧ Reg.r5 ≠ Reg.r6 ∧ Reg.r5 ≠ Reg.r7 := by decide

theorem witness_RtsPopsAndReturns : Reg.r5 ≠ Reg.r6 ∧ Reg.r5 ≠ Reg.r7 := by decide

/-- The state `JSR` left is one that `RTS` may find. -/
theorem witness_RtsUndoesJsr :
    Reg.r5 ≠ Reg.r6 ∧ Reg.r5 ≠ Reg.r7 ∧ atR2.mode ≠ .register ∧
      ∃ t, exec (.jsr .r5 atR2) (start [0]) = .next t ∧ ∃ u : State, u.reg .r6 = t.reg .r6 ∧
        u.reg .r5 = t.reg .r5 ∧ u.memBank = t.memBank ∧
        u.mem.readWord u.memBank (u.reg .r6) = t.mem.readWord t.memBank (t.reg .r6) :=
  ⟨by decide, by decide, by decide, _, rfl, _, rfl, rfl, rfl, rfl⟩

theorem witness_UndefinedVectorsDoNothing :
    [0, 11, 19, 27, 255].all (fun v : Nat => v == 0 || (11 ≤ v && v ≤ 19) || 27 ≤ v) = true ∧
      [0, 11, 19, 27, 255].all (fun v : BitVec 8 => (serviceOf v).isNone) = true ∧
      [1, 10, 20, 26].all (fun v : BitVec 8 => (serviceOf v).isSome) = true := by decide

/-- Reset memory is all zero, so a string service finds its NUL. -/
theorem witness_DefinedServicesCompleteInTheirFrame :
    (serviceOf 3).isSome = true ∧ (serviceOf 5).isSome = true ∧ (serviceOf 21).isSome = true ∧
      (serviceOf 26).isSome = true ∧ State.reset.mem.readByte State.reset.memBank 0 = 0 := by decide

/-- The string "Hi" at 0x1002, and the empty string. -/
theorem witness_CharacterOutputReachesTheHost :
    StringAt ((start [0, 0x6948, 0]).setReg .r0 0x1002) 0x1002 [0x48, 0x69] ∧ StringAt (start [0]) 0 [] := by
  refine ⟨⟨by decide, by decide, ?_, by decide⟩, by decide, by decide, fun k h => absurd h (by simp), by decide⟩
  exact fun k h => by
    rcases k with _ | _ | k
    · decide +revert
    · decide +revert
    · simp at h

theorem witness_GetcTakesOneByteOrReportsTheEnd :
    { State.reset with hostIn := [0x41] }.hostIn = 0x41 :: [] ∧ State.reset.hostIn = [] := by decide

/-- A line of max - 1 bytes, the end of input, a line of max bytes and one longer, and max = 0. -/
theorem witness_ReadLineStoresALineThatFits :
    (let s := { State.reset.setReg .r1 3 with hostIn := [0x61, 0x62, 0x0A] }
     (∀ b ∈ [0x61, 0x62], b ≠ (0x0A : Byte)) ∧ [0x61, 0x62].length < (s.reg .r1).toNat ∧
      s.hostIn = [0x61, 0x62] ++ (if true then 0x0A :: [] else [])) ∧
    (let s := State.reset.setReg .r1 1
     ([] : List Byte).length < (s.reg .r1).toNat ∧ 0 < (s.reg .r1).toNat ∧
      s.hostIn = [] ++ (if false then 0x0A :: [] else [])) ∧
    (let s := { State.reset.setReg .r1 2 with hostIn := [0x61, 0x62, 0x0A, 0x78] }
     0 < (s.reg .r1).toNat ∧ (s.reg .r1).toNat ≤ [0x61, 0x62].length ∧
      s.hostIn = [0x61, 0x62] ++ (if true then 0x0A :: [0x78] else [])) ∧
    (let s := { State.reset.setReg .r1 1 with hostIn := [0x61, 0x62] }
     0 < (s.reg .r1).toNat ∧ (s.reg .r1).toNat ≤ [0x61, 0x62].length ∧
      s.hostIn = [0x61, 0x62] ++ (if false then 0x0A :: [] else [])) ∧
    (let s := { State.reset with hostIn := [0x0A] }
     (s.reg .r1).toNat = 0 ∧ s.hostIn = [] ++ (if true then 0x0A :: [] else [])) := by decide

/-- "-32768", the empty input, a sign with no digit, and the letters of "abc". -/
theorem witness_ReadIntParsesASignedDecimal :
    { State.reset with hostIn := [0x20, 0x2D, 0x33, 0x32, 0x37, 0x36, 0x38, 0x0A] }.hostIn =
      List.replicate 1 0x20 ++ [0x2D] ++ digitsText [3, 2, 7, 6, 8] ++ [0x0A] ∧
    (∀ d ∈ [3, 2, 7, 6, 8], d < 10) ∧ -32768 ≤ -(digitsValue 10 [3, 2, 7, 6, 8] : Int) ∧
    (0x0A : Byte).toNat < 0x30 ∧ State.reset.hostIn = List.replicate 0 0x20 ++ [] ++ digitsText [] ++ [] ∧
    { State.reset with hostIn := [0x2B] }.hostIn = List.replicate 0 0x20 ++ [0x2B] ++ digitsText [] ++ [] ∧
    { State.reset with hostIn := [0x61, 0x62, 0x63] }.hostIn =
      List.replicate 0 0x20 ++ [] ++ digitsText [] ++ [0x61, 0x62, 0x63] ∧ 0x39 < (0x61 : Byte).toNat ∧
    letter 0x61 ∧ letter 0x5A ∧ ¬letter 0x40 ∧ ¬letter 0x5B ∧ ¬letter 0x60 ∧ letter 0x7A ∧ ¬letter 0x7B := by
  unfold letter
  decide

/-- "0xFFFF" and "0"; a prefix with no digit; "G", "+", "z" after a space, and the end of input. -/
theorem witness_ReadHexParsesAnUnsignedNumber :
    { State.reset with hostIn := [0x30, 0x78, 0x46, 0x46, 0x46, 0x46, 0x20] }.hostIn =
      [0x30, 0x78] ++ digitsTextUpper [15, 15, 15, 15] ++ [0x20] ∧ (∀ d ∈ [15, 15, 15, 15], d < 16) ∧
    digitsValue 16 [15, 15, 15, 15] < 0x10000 ∧
    { State.reset with hostIn := [0x30] }.hostIn = [] ++ digitsTextUpper [0] ++ [] ∧
    { State.reset with hostIn := [0x30, 0x58, 0x47] }.hostIn = [0x30, 0x58] ++ digitsTextUpper [] ++ [0x47] ∧
    { State.reset with hostIn := [0x47] }.hostIn = List.replicate 0 0x20 ++ [0x47] ∧
    { State.reset with hostIn := [0x2B] }.hostIn = List.replicate 0 0x20 ++ [0x2B] ∧
    { State.reset with hostIn := [0x20, 0x7A] }.hostIn = List.replicate 1 0x20 ++ [0x7A] ∧
    State.reset.hostIn = List.replicate 0 0x20 ++ [] ∧ letter 0x47 ∧ letter 0x7A := by
  unfold letter
  decide

/-- The characters on both sides of each range of hexadecimal digits, the signs, and `z`. -/
theorem witness_hexDigitRanges :
    (∀ c ∈ [0x2F, 0x3A, 0x40, 0x47, 0x60, 0x67, 0x2B, 0x2D, 0x7A], noHexDigit c) ∧
      ∀ c ∈ [0x30, 0x39, 0x41, 0x46, 0x61, 0x66], ¬noHexDigit c := by
  unfold noHexDigit
  decide

/-- The first `n` slots taken: with `n` = 65,535, every slot that there can be. -/
def slotsUpTo (n : Nat) : FileTable := (List.range n).map fun h => (h, ⟨0, 0⟩)

theorem slotsUpTo_firstVacant {n : Nat} (hn : 0xFFFF ≤ n) : (slotsUpTo n).firstVacant = none := by
  cases h : (slotsUpTo n).firstVacant with
  | none => rfl
  | some j =>
    have hv : (slotsUpTo n).file j = none := (FileTable.scan_spec _ _ _ _ _ h).2.2.2.1
    have hf : (slotsUpTo n).file j = some ⟨0, 0⟩ :=
      lookupKey_map_same _ _ _
        (List.mem_range.mpr (Nat.lt_of_lt_of_le (FileTable.firstVacant_lt _ _ h) hn))
    rw [hv] at hf
    cases hf

/-- An empty and a full table. -/
theorem witness_OpenTakesTheFirstVacantSlot :
    FileTable.firstVacant [] = some Config.firstHandle.val ∧ ∃ n, (slotsUpTo n).firstVacant = none :=
  ⟨rfl, 0xFFFF, slotsUpTo_firstVacant (Nat.le_refl _)⟩

/-- A path of `n` bytes at 0x2000. -/
def pathOf (n : Nat) : State :=
  { State.writeBytes State.reset 0x2000 (List.replicate n 0x61) with hostAnswers := [answer true 0 0 []] }

theorem pathOf_stringAt {n : Nat} (hn : n < 0x8000) :
    StringAt (pathOf n) 0x2000 (List.replicate n 0x61) := by
  have hl : (List.replicate n (0x61 : Byte)).length = n := List.length_replicate
  refine ⟨by omega, fun b hb => ?_, ?_, ?_⟩
  · rw [(List.mem_replicate.mp hb).2]
    decide
  · exact fun k h => writeBytes_bytesAt State.reset 0x2000 _ (by omega) k h
  · have hm := writeBytes_memSame State.reset 0x2000 (List.replicate n 0x61) (by omega)
    have hx := hm (pathOf n).memBank (0x2000 + BitVec.ofNat 16 (List.replicate n (0x61 : Byte)).length)
      (fun h => by
        obtain ⟨-, k, hk, hx⟩ := mem_bytesFrom.mp h
        have := word_add_inj (by omega) (by omega) hx
        omega)
    exact hx

/-- An open that the host grants or not, and each way that an open fails: a full table, a path of 1025
bytes, a mode of 4; and a path of 1024 bytes and a mode of 3. -/
theorem witness_OpenReturnsAHandleOrFailure :
    (let s := { State.reset with hostAnswers := [answer true 0 0 []] }
     StringAt s (s.reg .r0) [] ∧ s.hostAnswers = answer true 0 0 [] :: [] ∧
      s.files.firstVacant = some Config.firstHandle.val ∧ ([] : List Byte).length ≤ 1024 ∧
      (s.reg .r1).toNat ≤ 3 ∧ (answer true 0 0 []).ok = true ∧ (answer false 0 0 []).ok = false) ∧
    (∃ n, (slotsUpTo n).firstVacant = none) ∧
    (∃ n, n = 1025 ∧ StringAt (pathOf n) 0x2000 (List.replicate n 0x61)) ∧
    (∃ n, n = 1024 ∧ StringAt (pathOf n) 0x2000 (List.replicate n 0x61)) ∧
    3 < ((State.reset.setReg .r1 4).reg .r1).toNat ∧ ((State.reset.setReg .r1 3).reg .r1).toNat ≤ 3 :=
  ⟨⟨⟨by decide, by decide, fun k h => absurd h (by simp), by decide⟩, rfl, rfl, by decide, by decide,
    by decide, by decide⟩, ⟨0xFFFF, slotsUpTo_firstVacant (Nat.le_refl _)⟩,
    ⟨1025, rfl, pathOf_stringAt (by omega)⟩, ⟨1024, rfl, pathOf_stringAt (by omega)⟩, by decide, by decide⟩

/-- Handle 5 open, and the host's answer to come. -/
def withFile (a : HostAnswer) (r0 r1 r2 : Word) : State :=
  { withArgs (start [0]) r0 r1 r2 with hostAnswers := [a], files := [(5, ⟨9, 3⟩)] }

theorem witness_FileReadAndWriteMoveBytes :
    (withFile (answer true 0 0 [1, 2]) 5 0x2000 2).hostAnswers = answer true 0 0 [1, 2] :: [] ∧
      (withFile (answer true 0 0 [1, 2]) 5 0x2000 2).files.file 5 = some ⟨9, 3⟩ ∧
      (withFile (answer true 0 0 [1, 2]) 6 0x2000 2).files.file 6 = none ∧
      (answer true 0 0 [1, 2]).ok = true ∧ (answer false 0 0 []).ok = false := by decide

/-- A seek by each whence to the start, 3 - 3, 0 + 0 and 7 - 7, and a whence of 3. -/
theorem witness_CloseSeekAndTellAnswerInBand :
    (withFile (answer true 0 7 []) 5 0xFFFD 1).hostAnswers = answer true 0 7 [] :: [] ∧
      (withFile (answer true 0 7 []) 5 0xFFFD 1).files.file 5 = some ⟨9, 3⟩ ∧
      ((0 : Nat) : Int) = ((3 : Nat) : Int) + ((withFile (answer true 0 7 []) 5 0xFFFD 1).reg .r1).toInt ∧
      ((0 : Nat) : Int) = ((0 : Nat) : Int) + ((withFile (answer true 0 7 []) 5 0 0).reg .r1).toInt ∧
      ((0 : Nat) : Int) = ((7 : Nat) : Int) + ((withFile (answer true 0 7 []) 5 0xFFF9 2).reg .r1).toInt ∧
      2 < ((withFile (answer true 0 7 []) 5 0 3).reg .r2).toNat ∧
      (withFile (answer true 0 7 []) 6 0 0).files.file 6 = none ∧ (answer false 0 0 []).ok = false := by decide

theorem witness_BankServiceSelectsTheDataBank :
    (State.reset.reg .r0).toNat ≤ 3 ∧ ((State.reset.setReg .r0 3).reg .r0).toNat ≤ 3 ∧
      3 < ((State.reset.setReg .r0 4).reg .r0).toNat := by decide

theorem witness_OnlyTheListedInstructionsWriteFlags :
    (∃ t, exec (.br 5) State.reset = .next t) ∧ leavesFlags (.br 5) = true ∧
      (∃ t, exec (.mov r1 r1) State.reset = .next t) ∧ leavesCarry (.mov r1 r1) = true ∧
      leavesFlags (.mov r1 r1) = false :=
  ⟨⟨_, rfl⟩, rfl, ⟨_, rfl⟩, rfl, rfl⟩

/-- `HALT` halts, service 26 changes the bank, close a slot's validity, seek a position. -/
theorem witness_ControlStateHasItsOnlyWriters :
    (∃ t, exec .halt State.reset = .next t ∧ t.halted ≠ State.reset.halted) ∧
    (∃ t, exec (.trap 26) (State.reset.setReg .r0 1) = .next t ∧
      t.memBank ≠ (State.reset.setReg .r0 1).memBank) ∧
    (∃ t, exec (.trap 23) (withFile (answer true 0 0 []) 5 0 0) = .next t ∧
      (t.files.file 5).isSome ≠ ((withFile (answer true 0 0 []) 5 0 0).files.file 5).isSome) ∧
    ∃ t, exec (.trap 24) (withFile (answer true 0 0 []) 5 0 0) = .next t ∧
      t.files ≠ (withFile (answer true 0 0 []) 5 0 0).files :=
  ⟨⟨_, rfl, by decide⟩, ⟨_, rfl, by decide⟩, ⟨_, rfl, by decide⟩, ⟨_, rfl, by decide⟩⟩

theorem witness_LoadLaysDownTheImage : [0x1042, (0 : Word)].length ≤ 0x8000 := by decide

/-- A halted CPU, one that is not, one at a breakpoint, and one at an illegal word. -/
theorem witness_RunTestsHaltedThenBudgetThenBreakpoint :
    { State.reset with halted := true }.halted = true ∧ (start [0x1042]).halted = false ∧
      (start [0x1042]).pc ∈ ((start [0x1042]).addBreakpoint 0x1000).breakpoints ∧
      (start [0x1042]).pc ∉ (start [0x1042]).breakpoints ∧ (∃ t, step (start [0x1042]) = .next t) ∧
      step (start [0x00A0]) = .fault (.unimplementedInstruction 0x1000 0x00A0) :=
  ⟨rfl, by decide, by decide, by decide, ⟨_, rfl⟩, rfl⟩

theorem witness_BreakpointsAreASet : ((start [0]).addBreakpoint 0xFFFF).wf := by decide

end Sys2Proof.Tests
end

section
/-! SUPPORT. What each addressing mode resolves to: the target and the registers of modes 1 to 7, the
step and the bank by register, and O15, assembled from them. -/

namespace Sys2Proof.Machine

/-! ## The step, the view and the bank by register -/

theorem delta_eq_ite (z : Size) (n : Reg) :
    delta z n = if z = .byte ∧ n ≠ .r6 ∧ n ≠ .r7 then 1 else 2 := by
  cases z
  · rfl
  · cases n <;> rfl

theorem viewOf_eq_ite (n : Reg) : viewOf n = if n = .r7 then .code else .data := by
  cases n <;> rfl

theorem bank_viewOf (s : State) (n : Reg) :
    s.bank (viewOf n) = if n = .r7 then 0 else s.memBank := by
  cases n <;> rfl

/-- The base register of modes 6 and 7 is read after the displacement was fetched (rule R82). -/
theorem fetchWord_reg (s : State) (n : Reg) :
    s.fetchWord.2.reg n = if n = .r7 then s.reg .r7 + 2 else s.reg n := by
  rw [fetchWord_snd, setReg_reg, pc_eq_reg, logAccess_reg]

/-! ## One law per mode (rules R84 to R90); mode 0 is `resolve_register` -/

section Modes

variable (n : Reg) (z : Size) (s : State)

theorem resolve_deferred : resolve ⟨.deferred, n⟩ z s = (.mem .data (s.reg n), s) := rfl

theorem resolve_autoInc :
    resolve ⟨.autoInc, n⟩ z s = (.mem (viewOf n) (s.reg n), s.setReg n (s.reg n + delta z n)) := rfl

theorem resolve_autoIncDeferred :
    (resolve ⟨.autoIncDeferred, n⟩ z s).1 = .mem .data (s.mem.readWord (s.bank (viewOf n)) (s.reg n)) ∧
      (resolve ⟨.autoIncDeferred, n⟩ z s).2.regs = s.regs.set n (s.reg n + delta z n) := ⟨rfl, rfl⟩

theorem resolve_autoDec :
    resolve ⟨.autoDec, n⟩ z s = (.mem .data (s.reg n - delta z n), s.setReg n (s.reg n - delta z n)) := rfl

/-- The pointer of mode 5 is read at the register's new value. -/
theorem resolve_autoDecDeferred :
    (resolve ⟨.autoDecDeferred, n⟩ z s).1 = .mem .data (s.mem.readWord s.memBank (s.reg n - delta z n)) ∧
      (resolve ⟨.autoDecDeferred, n⟩ z s).2.regs = s.regs.set n (s.reg n - delta z n) := by
  refine ⟨?_, rfl⟩
  simp [resolve, resolveAutoDecDeferred, State.bank]

theorem resolve_index :
    (resolve ⟨.index, n⟩ z s).1 = .mem (viewOf n) (s.fetchWord.2.reg n + s.fetchWord.1) ∧
      (resolve ⟨.index, n⟩ z s).2.regs = s.regs.set .r7 (s.reg .r7 + 2) := ⟨rfl, rfl⟩

theorem resolve_indexDeferred :
    (resolve ⟨.indexDeferred, n⟩ z s).1 =
        .mem .data (s.mem.readWord (s.bank (viewOf n)) (s.fetchWord.2.reg n + s.fetchWord.1)) ∧
      (resolve ⟨.indexDeferred, n⟩ z s).2.regs = s.regs.set .r7 (s.reg .r7 + 2) := ⟨rfl, rfl⟩

end Modes

/-- `resolve_onlyCpu` sharpened: resolving changes neither flags nor memory. -/
theorem resolve_eq_with_regs_watchLog (sp : Spec) (z : Size) (s : State) :
    (resolve sp z s).2 =
      { s with regs := (resolve sp z s).2.regs, watchLog := (resolve sp z s).2.watchLog } := by
  have h := resolve_onlyCpu sp z s
  rwa [OnlyCpuChanged, resolve_flags, resolve_mem] at h

/-! ## The obligation -/

/-- Settles O15: the law of each mode, with the step, the view, the bank and the base register written
as cases on the register. -/
theorem eachModeGivesItsTarget : Obligations.EachModeGivesItsTarget := by
  intro n z s dl own ext base
  have hdelta : delta z n = dl := delta_eq_ite z n
  have hbank : s.bank (viewOf n) = own := bank_viewOf s n
  have hbase : s.fetchWord.2.reg n = base := fetchWord_reg s n
  have hext : s.fetchWord.1 = ext := fetchWord_fst s
  have hinc := resolve_autoInc n z s
  have hincDef := resolve_autoIncDeferred n z s
  have hdec := resolve_autoDec n z s
  have hdecDef := resolve_autoDecDeferred n z s
  have hidx := resolve_index n z s
  have hidxDef := resolve_indexDeferred n z s
  rw [hdelta] at hinc hincDef hdec hdecDef
  rw [viewOf_eq_ite] at hinc
  rw [hbank] at hincDef
  rw [hbase, hext, viewOf_eq_ite] at hidx
  rw [hbase, hext, hbank] at hidxDef
  exact ⟨resolve_register n z s, resolve_deferred n z s, hinc, hincDef, hdec, hdecDef, hidx, hidxDef,
    fun m => resolve_eq_with_regs_watchLog ⟨m, n⟩ z s⟩

end Sys2Proof.Machine
end

section
/-! SUPPORT. The word double-operand instructions that compute: the decoder on an encoded word, what a
sequence of two operands leaves, the flags of a word result, and O19 to O21, assembled from them. -/

namespace Sys2Proof.Machine

/-- Each law of the family `EncodesToItsRow` gives the decoder on that instruction's word. -/
theorem decodeWord_of_encodesToItsRow {i : Instr} (h : Laws.EncodesToItsRow.Statement i) :
    decodeWord (encodeWord i) = .ok i := by
  obtain ⟨r, hr, hsel, hbuild⟩ := h
  rw [decodeWord_of_selects hr hsel, hbuild]

/-! ## What a sequence of two operands leaves (rule R100) -/

section Sequences

variable (ss dd : Spec) (f : Word → Word → Word) (fl : Word → Word → Flags) (s : State)

theorem testWord2_flags :
    (testWord2 ss dd fl s).flags =
      fl (operandWord ss s).2.1 (operandWord dd (operandWord ss s).2.2).2.1 := rfl

theorem testWord2_regs :
    (testWord2 ss dd fl s).regs = (operandWord dd (operandWord ss s).2.2).2.2.regs := rfl

theorem testWord2_mem : (testWord2 ss dd fl s).mem = s.mem := by
  simp [testWord2]

theorem modifyWord2_flags :
    (modifyWord2 ss dd f fl s).flags =
      fl (operandWord ss s).2.1 (operandWord dd (operandWord ss s).2.2).2.1 := rfl

end Sequences

/-! ## The flags of a word result -/

/-- N is bit 15 of a word result. -/
theorem resultFlags_word (res : Word) (v c : Bool) :
    resultFlags res v c = ⟨res.getLsbD 15, res == 0, v, c⟩ := by
  rw [resultFlags, BitVec.msb_eq_getLsbD_last]

theorem logicFlags_word (res : Word) : logicFlags res = ⟨res.getLsbD 15, res == 0, false, false⟩ :=
  resultFlags_word res false false

theorem subFlags_word (s d : Word) :
    subFlags s d = ⟨(d - s).getLsbD 15, d - s == 0, ((d ^^^ s) &&& (d ^^^ (d - s))).getLsbD 15,
      decide (d.toNat < s.toNat)⟩ := by
  rw [subFlags, resultFlags_word, BitVec.msb_eq_getLsbD_last]
  rfl

/-! ## The flags of a sum (rule R106) -/

section Sum

variable {w : Nat} (s d : BitVec w)

theorem addFlags_n : (addFlags s d).n = true ↔ 2 ^ (w - 1) ≤ (s.toNat + d.toNat) % 2 ^ w := by
  simp [addFlags, resultFlags, addResult, BitVec.msb_eq_decide]

theorem addFlags_z : (addFlags s d).z = true ↔ (s.toNat + d.toNat) % 2 ^ w = 0 := by
  simp [addFlags, resultFlags, addResult, ← BitVec.toNat_inj]

/-- Equal signs giving a result of the other sign: the library's signed overflow of a sum. -/
theorem addFlags_v_eq_saddOverflow : (addFlags s d).v = s.saddOverflow d := by
  rw [BitVec.saddOverflow_eq]
  by_cases hw : 0 < w
  · simp only [addFlags, resultFlags, addResult, BitVec.msb_and, BitVec.msb_not, BitVec.msb_xor, hw]
    cases s.msb <;> cases d.msb <;> cases (s + d).msb <;> rfl
  · obtain rfl : w = 0 := by omega
    simp [addFlags, resultFlags, BitVec.of_length_zero]

theorem addFlags_v :
    (addFlags s d).v = true ↔
      s.toInt + d.toInt < -2 ^ (w - 1) ∨ 2 ^ (w - 1) ≤ s.toInt + d.toInt := by
  simp [addFlags_v_eq_saddOverflow, BitVec.saddOverflow, or_comm]

theorem addFlags_c : (addFlags s d).c = true ↔ 2 ^ w ≤ s.toNat + d.toNat := by
  simp [addFlags, resultFlags]

end Sum

/-! ## The obligations -/

/-- Settles O19: the flags are `subFlags` of the two operands, written out by `subFlags_word`. -/
theorem compareAndSubtractAreDestinationMinusSource :
    Obligations.CompareAndSubtractAreDestinationMinusSource := by
  intro ss dd st a b s d fl
  have hfl : subFlags s d = fl := subFlags_word s d
  refine ⟨decodeWord_of_encodesToItsRow (Laws.EncodesToItsRow.cmp ss dd),
    decodeWord_of_encodesToItsRow (Laws.EncodesToItsRow.sub ss dd), ⟨_, rfl, ?_⟩, ⟨_, rfl, ?_⟩⟩
  · exact ⟨(testWord2_flags ss dd subFlags st).trans hfl, testWord2_regs ss dd subFlags st,
      testWord2_mem ss dd subFlags st⟩
  · exact ⟨(modifyWord2_flags ss dd subResult subFlags st).trans hfl,
      modifyWord2_result ss dd subResult subFlags st⟩

/-- Settles O20: each instruction's flags are `logicFlags` of its result. -/
theorem wordLogicClearsOverflowAndCarry : Obligations.WordLogicClearsOverflowAndCarry := by
  intro ss dd st a b s d
  refine ⟨decodeWord_of_encodesToItsRow (Laws.EncodesToItsRow.bit ss dd),
    decodeWord_of_encodesToItsRow (Laws.EncodesToItsRow.bic ss dd),
    decodeWord_of_encodesToItsRow (Laws.EncodesToItsRow.bis ss dd),
    ⟨_, rfl, ?_⟩, ⟨_, rfl, ?_⟩, ⟨_, rfl, ?_⟩⟩
  · exact ⟨testWord2_regs ss dd _ st, testWord2_mem ss dd _ st, logicFlags_word (s &&& d)⟩
  · exact ⟨modifyWord2_result ss dd bicResult _ st, logicFlags_word (bicResult s d)⟩
  · exact ⟨modifyWord2_result ss dd bisResult _ st, logicFlags_word (bisResult s d)⟩

/-- Settles O21: the laws of `addFlags` at width 16. -/
theorem addAddsAndReportsCarryAndOverflow : Obligations.AddAddsAndReportsCarryAndOverflow := by
  intro ss dd st a b s d
  refine ⟨decodeWord_of_encodesToItsRow (Laws.EncodesToItsRow.add ss dd), _, rfl, ?_⟩
  have hresult : (readTargetWord b.1 (modifyWord2 ss dd addResult addFlags st)).1 = s + d :=
    modifyWord2_result ss dd addResult addFlags st
  have hflags : (modifyWord2 ss dd addResult addFlags st).flags = addFlags s d :=
    modifyWord2_flags ss dd addResult addFlags st
  refine ⟨(congrArg BitVec.toNat hresult).trans (BitVec.toNat_add s d), ?_, ?_, ?_, ?_⟩
  · exact hflags ▸ addFlags_n s d
  · exact hflags ▸ addFlags_z s d
  · exact hflags ▸ (addFlags_v s d).trans (by omega)
  · exact hflags ▸ (addFlags_c s d).trans (by omega)

end Sys2Proof.Machine
end

section
/-! SUPPORT. The word single-operand instructions `INC`, `TST`, `ROR` and `ROL`: the flags of an
increment, the sign of a word as a bound, the bits of a rotated word, and O27, O29 and O31, assembled from
them. -/

namespace Sys2Proof.Machine

/-! ## One operand (rule R120) -/

theorem modifyWord1_flags (dd : Spec) (f : Word → Word) (fl : Word → Flags) (s : State) :
    (modifyWord1 dd f fl s).flags = fl (operandWord dd s).2.1 := rfl

/-! ## The flags of an increment (rules R122, R130) -/

section Increment

variable {w : Nat} (d : BitVec w)

theorem incResult_toNat : (incResult d).toNat = (d.toNat + 1) % 2 ^ w := by
  rw [incResult, BitVec.toNat_add]
  simp

/-- The result of an increment is negative from the largest signed operand on, except that the all-ones
operand wraps to 0. -/
theorem incResult_msb (hw : 0 < w) :
    (incResult d).msb = decide (2 ^ (w - 1) - 1 ≤ d.toNat ∧ d.toNat < 2 ^ w - 1) := by
  have hhalf : 2 ^ (w - 1) * 2 = 2 ^ w := Nat.two_pow_pred_mul_two hw
  have hpos : 0 < 2 ^ (w - 1) := Nat.two_pow_pos _
  have hd : d.toNat < 2 ^ w := d.isLt
  rw [BitVec.msb_eq_decide, decide_eq_decide, incResult_toNat]
  by_cases hwrap : d.toNat + 1 = 2 ^ w
  · rw [hwrap, Nat.mod_self]
    omega
  · rw [Nat.mod_eq_of_lt (by omega)]
    omega

theorem incResult_beq_zero : (incResult d == 0) = (d == BitVec.allOnes w) := by
  rw [Bool.eq_iff_iff, beq_iff_eq, beq_iff_eq, incResult, ← BitVec.neg_one_eq_allOnes,
    ← BitVec.zero_sub, BitVec.eq_sub_iff_add_eq]
  rfl

end Increment

theorem incFlags_word (d : Word) (old : Flags) :
    incFlags d old =
      ⟨decide (0x7FFF ≤ d.toNat ∧ d.toNat < 0xFFFF), d == 0xFFFF, d == 0x7FFF, old.c⟩ := by
  rw [incFlags, resultFlags, incResult_msb d (by decide), incResult_beq_zero]
  rfl

/-! ## The flags of a tested word (rule R124) -/

theorem word_sign_eq_decide (d : Word) : d.getLsbD 15 = decide (0x8000 ≤ d.toNat) :=
  (BitVec.msb_eq_getLsbD_last d).symm.trans (BitVec.msb_eq_decide d)

/-! ## The bits of a rotated word (rules R125, R126) -/

section Rotate

variable (c : Bool) (d : Word)

/-- `ROR` sets bit 15 from C and every other bit from the bit above it. -/
theorem rorResult_getLsbD (k : Nat) :
    (rorResult c d).getLsbD k = if k = 15 then c else d.getLsbD (k + 1) := by
  have htop : (0x8000#16).getLsbD k = decide (k = 15) := by
    rw [show 0x8000#16 = BitVec.twoPow 16 15 from rfl, BitVec.getLsbD_twoPow]
    simp [eq_comm]
  by_cases hk : k = 15
  · subst hk
    cases c <;> simp [rorResult]
  · cases c <;> simp [rorResult, htop, hk, Nat.add_comm]

theorem rolResult_getLsbD_zero : (rolResult c d).getLsbD 0 = c := by
  cases c <;> simp [rolResult]

/-- `ROL` sets every bit above bit 0 from the bit below it. -/
theorem rolResult_getLsbD_succ {k : Nat} (hk : k < 15) :
    (rolResult c d).getLsbD (k + 1) = d.getLsbD k := by
  have hk' : k + 1 < 16 := by omega
  rw [BitVec.getLsbD_eq_getElem (show k < 16 by omega)]
  cases c <;> simp [rolResult, hk']

end Rotate

theorem shiftFlags_word (res : Word) (c : Bool) :
    shiftFlags res c = ⟨res.getLsbD 15, res == 0, res.getLsbD 15 ^^ c, c⟩ := by
  rw [shiftFlags, resultFlags_word, BitVec.msb_eq_getLsbD_last]

/-! ## The obligations -/

/-- Settles O27: the flags are `incFlags` of the operand, written out by `incFlags_word`. -/
theorem incrementLeavesCarry : Obligations.IncrementLeavesCarry := by
  intro dd s b
  refine ⟨decodeWord_of_encodesToItsRow (Laws.EncodesToItsRow.inc dd), _, rfl, ?_, ?_⟩
  · exact (congrArg BitVec.toNat (modifyWord1_result dd incResult _ s)).trans
      (incResult_toNat b.2.1)
  · exact (modifyWord1_flags dd _ _ s).trans (incFlags_word b.2.1 s.flags)

/-- Settles O29: `TST` keeps the state its operand left, but for the flags. -/
theorem testWritesOnlyFlags : Obligations.TestWritesOnlyFlags := by
  intro dd s b
  refine ⟨decodeWord_of_encodesToItsRow (Laws.EncodesToItsRow.tst dd), _, rfl,
    setFlags_regs _ _, operandWord_mem dd s, ?_⟩
  rw [← word_sign_eq_decide]
  exact logicFlags_word b.2.1

/-- Settles O31: both store their rotated word, so each bit of what is read back is a bit of
`rorResult` or `rolResult`. -/
theorem rotatesMoveTheCarryThrough : Obligations.RotatesMoveTheCarryThrough := by
  intro dd s b d c
  refine ⟨decodeWord_of_encodesToItsRow (Laws.EncodesToItsRow.ror dd),
    decodeWord_of_encodesToItsRow (Laws.EncodesToItsRow.rol dd), ⟨_, rfl, ?_⟩, ⟨_, rfl, ?_⟩⟩
  · intro r
    have hr : r = rorResult c d := modifyWord1_result dd (rorResult c) _ s
    rw [hr]
    refine ⟨fun k hk => ?_, rorResult_getLsbD c d 15, ?_⟩
    · rw [rorResult_getLsbD, if_neg (by omega)]
    · rw [modifyWord1_flags, shiftFlags_word, rorResult_getLsbD s.flags.c _ 15, if_pos rfl]
  · intro r
    have hr : r = rolResult c d := modifyWord1_result dd (rolResult c) _ s
    rw [hr]
    refine ⟨fun k hk => rolResult_getLsbD_succ c d hk, rolResult_getLsbD_zero c d, ?_⟩
    rw [modifyWord1_flags, shiftFlags_word, rolResult_getLsbD_succ s.flags.c _ (k := 14) (by decide)]

end Sys2Proof.Machine
end

section
/-! SUPPORT. The branches `BR`, `BNE` and `BEQ`: where a taken branch goes, when `BNE` is taken,
and O35, assembled from them. -/

namespace Sys2Proof.Machine

/-! ## The target and the condition of a branch (rule R140) -/

/-- The target that `branchIf` goes to: twice the signed offset from the program counter, modulo 2^16. -/
theorem branchTarget_toNat (off : BitVec 8) (pc : Word) :
    ((pc + 2 * off.signExtend 16).toNat : Int) = (pc.toNat + 2 * off.toInt) % 65536 := by
  have htarget : pc + 2 * off.signExtend 16 = BitVec.ofInt 16 (pc.toNat + 2 * off.toInt) := by
    rw [BitVec.ofInt_add, BitVec.ofInt_mul, BitVec.ofInt_natCast, BitVec.ofNat_toNat,
      BitVec.setWidth_eq]
    rfl
  rw [htarget, BitVec.toNat_ofInt]
  exact Int.toNat_of_nonneg (Int.emod_nonneg _ (by decide))

/-- The condition of `BNE` is that a bit is clear (rule R142). -/
theorem branchIf_not (bit : Bool) (off : BitVec 8) (s : State) :
    branchIf (!bit) off s =
      if bit = false then s.setReg .r7 (s.pc + 2 * off.signExtend 16) else s := by
  cases bit <;> rfl

/-! ## The obligation -/

/-- Settles O35: a taken branch sets r[7] to the target of `branchTarget_toNat`, and one that is not taken
keeps the state. -/
theorem branchesGoTwiceTheSignedOffset : Obligations.BranchesGoTwiceTheSignedOffset := by
  intro off s
  refine ⟨decodeWord_of_encodesToItsRow (Laws.EncodesToItsRow.br off),
    decodeWord_of_encodesToItsRow (Laws.EncodesToItsRow.bne off),
    decodeWord_of_encodesToItsRow (Laws.EncodesToItsRow.beq off),
    _, branchTarget_toNat off s.pc, rfl, ?_, rfl⟩
  exact congrArg Host.Outcome.next (branchIf_not s.flags.z off s)

end Sys2Proof.Machine
end

section
/-! SUPPORT. The decoder and the encoder as inverses, the opcode map as ranges of words, and O1 to O4,
assembled from them. -/

namespace Sys2Proof.Machine

/-! ## Every instruction's word selects its row -/

/-- The family `EncodesToItsRow`, for an instruction as a variable. -/
theorem encodesToItsRow (i : Instr) : Laws.EncodesToItsRow.Statement i :=
  match i with
  | .mov a d => Laws.EncodesToItsRow.mov a d
  | .cmp a d => Laws.EncodesToItsRow.cmp a d
  | .bit a d => Laws.EncodesToItsRow.bit a d
  | .bic a d => Laws.EncodesToItsRow.bic a d
  | .bis a d => Laws.EncodesToItsRow.bis a d
  | .add a d => Laws.EncodesToItsRow.add a d
  | .sub a d => Laws.EncodesToItsRow.sub a d
  | .movb a d => Laws.EncodesToItsRow.movb a d
  | .cmpb a d => Laws.EncodesToItsRow.cmpb a d
  | .bitb a d => Laws.EncodesToItsRow.bitb a d
  | .bicb a d => Laws.EncodesToItsRow.bicb a d
  | .bisb a d => Laws.EncodesToItsRow.bisb a d
  | .clr d => Laws.EncodesToItsRow.clr d
  | .inc d => Laws.EncodesToItsRow.inc d
  | .dec d => Laws.EncodesToItsRow.dec d
  | .tst d => Laws.EncodesToItsRow.tst d
  | .ror d => Laws.EncodesToItsRow.ror d
  | .rol d => Laws.EncodesToItsRow.rol d
  | .asr d => Laws.EncodesToItsRow.asr d
  | .asl d => Laws.EncodesToItsRow.asl d
  | .clrb d => Laws.EncodesToItsRow.clrb d
  | .incb d => Laws.EncodesToItsRow.incb d
  | .decb d => Laws.EncodesToItsRow.decb d
  | .tstb d => Laws.EncodesToItsRow.tstb d
  | .br o => Laws.EncodesToItsRow.br o
  | .bne o => Laws.EncodesToItsRow.bne o
  | .beq o => Laws.EncodesToItsRow.beq o
  | .jmp d => Laws.EncodesToItsRow.jmp d
  | .jsr r d => Laws.EncodesToItsRow.jsr r d
  | .rts r => Laws.EncodesToItsRow.rts r
  | .halt => Laws.EncodesToItsRow.halt
  | .trap v => Laws.EncodesToItsRow.trap v

theorem decodeWord_encodeWord (i : Instr) : decodeWord (encodeWord i) = .ok i :=
  decodeWord_of_encodesToItsRow (encodesToItsRow i)

/-! ## The fields of a word put back where they were -/

/-- The word `2 ^ n - 1` has its `n` low bits set. -/
theorem getLsbD_lowMask (n k : Nat) (hn : n ≤ 16) :
    (BitVec.ofNat 16 (2 ^ n - 1)).getLsbD k = decide (k < n) := by
  rw [BitVec.getLsbD_ofNat, Nat.testBit_two_pow_sub_one, ← Bool.decide_and, decide_eq_decide]
  omega

/-- A field of three bits, put back at its place, is the word with every other bit cleared. -/
theorem field_put_back (w : Word) (k : Nat) :
    (w.extractLsb' k 3).setWidth 16 <<< k = w &&& (BitVec.ofNat 16 (2 ^ 3 - 1) <<< k) := by
  refine BitVec.eq_of_getLsbD_eq fun j hj => ?_
  simp only [BitVec.getLsbD_shiftLeft, BitVec.getLsbD_setWidth, BitVec.getLsbD_extractLsb',
    BitVec.getLsbD_and, getLsbD_lowMask 3 _ (by decide)]
  by_cases hk : j < k
  · simp [hk]
  · rw [Nat.add_sub_cancel' (Nat.le_of_not_lt hk)]
    simp [hk, hj, Nat.lt_of_le_of_lt (Nat.sub_le j k) hj, Bool.and_comm]

theorem dstSpec_bits (w : Word) : (dstSpec w).bits = w &&& 0x003F := by
  have h0 := field_put_back w 0
  simp only [BitVec.shiftLeft_zero] at h0
  rw [Spec.bits, dstSpec, Mode.bits_ofBits, Reg.bits_ofBits, field_put_back w 3, h0,
    ← BitVec.and_or_distrib_left]
  rfl

theorem srcSpec_bits (w : Word) : (srcSpec w).bits <<< 6 = w &&& 0x0FC0 := by
  rw [Spec.bits, srcSpec, Mode.bits_ofBits, Reg.bits_ofBits, BitVec.shiftLeft_or_distrib,
    ← BitVec.shiftLeft_add, field_put_back w 9, field_put_back w 6, ← BitVec.and_or_distrib_left]
  rfl

theorem linkReg_bits (w : Word) : (linkReg w).bits.setWidth 16 <<< 6 = w &&& 0x01C0 := by
  rw [linkReg, Reg.bits_ofBits, field_put_back w 6]
  rfl

theorem returnReg_bits (w : Word) : (returnReg w).bits.setWidth 16 = w &&& 0x0007 := by
  have h0 := field_put_back w 0
  simp only [BitVec.shiftLeft_zero] at h0
  rw [returnReg, Reg.bits_ofBits, h0]
  rfl

theorem lowField_bits (w : Word) : (lowField w).setWidth 16 = w &&& 0x00FF := by
  refine BitVec.eq_of_getLsbD_eq fun j hj => ?_
  rw [lowField, BitVec.getLsbD_setWidth, BitVec.getLsbD_extractLsb', BitVec.getLsbD_and,
    show (0x00FF : Word) = BitVec.ofNat 16 (2 ^ 8 - 1) from rfl, getLsbD_lowMask 8 j (by decide)]
  simp [hj, Bool.and_comm]

/-! ## A word that selects a row is the encoding of what the row builds -/

/-- A row builds only instructions whose encoding is the word they were built from. -/
def OpcodeRow.Inverts (r : OpcodeRow) : Prop :=
  ∀ w, r.selects w = true → encodeWord (r.build w) = w

theorem selects_eq {r : OpcodeRow} {w : Word} (h : r.selects w = true) : w &&& r.mask = r.pattern :=
  beq_iff_eq.mp h

theorem rowD_inverts {m : String} {p : Word} {c : Spec → Spec → Instr}
    (he : ∀ a d, encodeWord (c a d) = formatD p a d) : OpcodeRow.Inverts (rowD m p c) := fun w h => by
  have hp : w &&& 0xF000 = p := selects_eq h
  calc encodeWord (c (srcSpec w) (dstSpec w))
      = (w &&& 0xF000) ||| (w &&& 0x0FC0) ||| (w &&& 0x003F) := by
        rw [he, formatD, srcSpec_bits, dstSpec_bits, hp]
    _ = w &&& 0xFFFF := by rw [← BitVec.and_or_distrib_left, ← BitVec.and_or_distrib_left]; rfl
    _ = w := BitVec.and_allOnes

theorem rowS_inverts {m : String} {p : Word} {c : Spec → Instr}
    (he : ∀ d, encodeWord (c d) = formatS p d) : OpcodeRow.Inverts (rowS m p c) := fun w h => by
  have hp : w &&& 0xFFC0 = p := selects_eq h
  calc encodeWord (c (dstSpec w))
      = (w &&& 0xFFC0) ||| (w &&& 0x003F) := by rw [he, formatS, dstSpec_bits, hp]
    _ = w &&& 0xFFFF := by rw [← BitVec.and_or_distrib_left]; rfl
    _ = w := BitVec.and_allOnes

theorem rowB_inverts {m : String} {p : Word} {c : BitVec 8 → Instr}
    (he : ∀ f, encodeWord (c f) = formatB p f) : OpcodeRow.Inverts (rowB m p c) := fun w h => by
  have hp : w &&& 0xFF00 = p := selects_eq h
  calc encodeWord (c (lowField w))
      = (w &&& 0xFF00) ||| (w &&& 0x00FF) := by rw [he, formatB, lowField_bits, hp]
    _ = w &&& 0xFFFF := by rw [← BitVec.and_or_distrib_left]; rfl
    _ = w := BitVec.and_allOnes

theorem rowJsr_inverts :
    OpcodeRow.Inverts ⟨"JSR", 0x0800, 0xFE00, fun w => .jsr (linkReg w) (dstSpec w)⟩ := fun w h => by
  have hp : w &&& 0xFE00 = 0x0800 := selects_eq h
  calc encodeWord (.jsr (linkReg w) (dstSpec w))
      = (w &&& 0xFE00) ||| (w &&& 0x01C0) ||| (w &&& 0x003F) := by
        rw [encodeWord, formatJ, linkReg_bits, dstSpec_bits, hp]
    _ = w &&& 0xFFFF := by rw [← BitVec.and_or_distrib_left, ← BitVec.and_or_distrib_left]; rfl
    _ = w := BitVec.and_allOnes

theorem rowRts_inverts :
    OpcodeRow.Inverts ⟨"RTS", 0x0010, 0xFFF8, fun w => .rts (returnReg w)⟩ := fun w h => by
  have hp : w &&& 0xFFF8 = 0x0010 := selects_eq h
  calc encodeWord (.rts (returnReg w))
      = (w &&& 0xFFF8) ||| (w &&& 0x0007) := by rw [encodeWord, formatR, returnReg_bits, hp]
    _ = w &&& 0xFFFF := by rw [← BitVec.and_or_distrib_left]; rfl
    _ = w := BitVec.and_allOnes

theorem rowHalt_inverts : OpcodeRow.Inverts ⟨"HALT", 0x0000, 0xFFFF, fun _ => .halt⟩ := fun _ h =>
  (selects_eq h).symm.trans BitVec.and_allOnes

theorem opcodeRows_invert : ∀ r ∈ opcodeRows, OpcodeRow.Inverts r := by
  simp only [opcodeRows, List.cons_append, List.nil_append, List.forall_mem_cons]
  refine ⟨rowD_inverts ?_, rowD_inverts ?_, rowD_inverts ?_, rowD_inverts ?_, rowD_inverts ?_,
    rowD_inverts ?_, rowD_inverts ?_, rowD_inverts ?_, rowD_inverts ?_, rowD_inverts ?_,
    rowD_inverts ?_, rowD_inverts ?_, rowS_inverts ?_, rowS_inverts ?_, rowS_inverts ?_,
    rowS_inverts ?_, rowS_inverts ?_, rowS_inverts ?_, rowS_inverts ?_, rowS_inverts ?_,
    rowS_inverts ?_, rowS_inverts ?_, rowS_inverts ?_, rowS_inverts ?_, rowB_inverts ?_,
    rowB_inverts ?_, rowB_inverts ?_, rowS_inverts ?_, rowJsr_inverts, rowRts_inverts,
    rowHalt_inverts, rowB_inverts ?_, by simp⟩ <;> intros <;> rfl

theorem encodeWord_of_decodeWord {w : Word} {i : Instr} (h : decodeWord w = .ok i) : encodeWord i = w := by
  obtain ⟨r, hr, hsel, rfl⟩ := decodeWord_ok h
  exact opcodeRows_invert r hr w hsel

/-- Decoding and encoding are inverse to each other. -/
theorem decodeWord_eq_ok_iff {w : Word} {i : Instr} : decodeWord w = .ok i ↔ encodeWord i = w :=
  ⟨encodeWord_of_decodeWord, fun h => h ▸ decodeWord_encodeWord i⟩

/-! ## The rows as ranges of words (rule R66) -/

/-- Clearing the bits below bit `k` rounds a word down to a multiple of `2 ^ k`. -/
theorem and_highMask_toNat (w : Word) (k : Nat) :
    (w &&& (BitVec.allOnes 16 <<< k)).toNat = w.toNat / 2 ^ k * 2 ^ k := by
  have hshift : w &&& (BitVec.allOnes 16 <<< k) = (w >>> k) <<< k := by
    refine BitVec.eq_of_getLsbD_eq fun j hj => ?_
    simp only [BitVec.getLsbD_and, BitVec.getLsbD_shiftLeft, BitVec.getLsbD_allOnes,
      BitVec.getLsbD_ushiftRight]
    by_cases hk : j < k
    · simp [hk]
    · rw [Nat.add_sub_cancel' (Nat.le_of_not_lt hk)]
      simp [hk, hj, Nat.lt_of_le_of_lt (Nat.sub_le j k) hj]
  rw [hshift, BitVec.toNat_shiftLeft, BitVec.toNat_ushiftRight, Nat.shiftRight_eq_div_pow,
    Nat.shiftLeft_eq, Nat.mod_eq_of_lt (Nat.lt_of_le_of_lt (Nat.div_mul_le_self _ _) w.isLt)]

/-- The words that a row selects whose mask clears the bits below bit `k`: `2 ^ k` words in a row. -/
theorem selects_iff_range {r : OpcodeRow} (k : Nat) (w : Word) (hm : r.mask = BitVec.allOnes 16 <<< k)
    (hp : r.pattern.toNat % 2 ^ k = 0) :
    r.selects w = true ↔ r.pattern.toNat ≤ w.toNat ∧ w.toNat < r.pattern.toNat + 2 ^ k := by
  have hpos : 0 < 2 ^ k := Nat.two_pow_pos k
  obtain ⟨q, hq⟩ := Nat.dvd_of_mod_eq_zero hp
  rw [OpcodeRow.selects, beq_iff_eq, hm, ← BitVec.toNat_inj, and_highMask_toNat, hq, Nat.mul_comm,
    Nat.mul_right_inj (Nat.ne_of_gt hpos), Nat.div_eq_iff hpos, Nat.mul_comm q]
  omega

section Ranges

variable {m : String} {p w : Word}

theorem rowD_selects {c : Spec → Spec → Instr} (hp : p.toNat % 0x1000 = 0) :
    (rowD m p c).selects w = true ↔ p.toNat ≤ w.toNat ∧ w.toNat < p.toNat + 0x1000 :=
  selects_iff_range 12 w rfl hp

theorem rowS_selects {c : Spec → Instr} (hp : p.toNat % 0x40 = 0) :
    (rowS m p c).selects w = true ↔ p.toNat ≤ w.toNat ∧ w.toNat < p.toNat + 0x40 :=
  selects_iff_range 6 w rfl hp

theorem rowB_selects {c : BitVec 8 → Instr} (hp : p.toNat % 0x100 = 0) :
    (rowB m p c).selects w = true ↔ p.toNat ≤ w.toNat ∧ w.toNat < p.toNat + 0x100 :=
  selects_iff_range 8 w rfl hp

theorem rowJsr_selects {c : Word → Instr} :
    (OpcodeRow.mk m 0x0800 0xFE00 c).selects w = true ↔ 0x0800 ≤ w.toNat ∧ w.toNat < 0x0A00 :=
  selects_iff_range 9 w rfl (show (0x0800 : Word).toNat % 2 ^ 9 = 0 by decide)

theorem rowRts_selects {c : Word → Instr} :
    (OpcodeRow.mk m 0x0010 0xFFF8 c).selects w = true ↔ 0x0010 ≤ w.toNat ∧ w.toNat < 0x0018 :=
  selects_iff_range 3 w rfl (show (0x0010 : Word).toNat % 2 ^ 3 = 0 by decide)

theorem rowHalt_selects {c : Word → Instr} :
    (OpcodeRow.mk m 0x0000 0xFFFF c).selects w = true ↔ 0x0000 ≤ w.toNat ∧ w.toNat < 0x0001 :=
  selects_iff_range 0 w rfl (by rfl)

end Ranges

/-- The thirteen illegal ranges and the ranges of the 32 rows share no word and leave none out. -/
theorem illegalWord_iff_no_row (w : Word) :
    illegalWord w = true ↔ ∀ r ∈ opcodeRows, r.selects w = false := by
  have hw := w.isLt
  simp (disch := decide) only [opcodeRows, List.cons_append, List.nil_append, List.forall_mem_cons,
    ← Bool.not_eq_true, rowD_selects, rowS_selects, rowB_selects, rowJsr_selects, rowRts_selects, rowHalt_selects,
    illegalWord, List.any_cons, List.any_nil, Bool.or_eq_true, Bool.and_eq_true,
    decide_eq_true_eq]
  simp only [Bool.false_eq_true, or_false, BitVec.ofNat_eq_ofNat, BitVec.toNat_ofNat, Nat.reducePow,
    Nat.reduceMod, Nat.reduceAdd, List.not_mem_nil, IsEmpty.forall_iff, implies_true, and_true]
  omega

theorem illegalWord_iff_error (w : Word) :
    illegalWord w = true ↔ decodeWord w = .error (.unimplementedEncoding w) :=
  (illegalWord_iff_no_row w).trans ⟨decodeWord_of_none, fun h => (decodeWord_error h).2⟩

theorem illegalWord_false_iff_ok (w : Word) : illegalWord w = false ↔ ∃ i, decodeWord w = .ok i := by
  rw [← Bool.not_eq_true, illegalWord_iff_error]
  cases hd : decodeWord w with
  | ok i => simp
  | error e => simp [(decodeWord_error hd).1]

/-! ## The obligations -/

/-- Settles O1: the two bytes join to the word, and the word decodes to its instruction. -/
theorem decodeOfEncodeIsTheInstruction : Obligations.DecodeOfEncodeIsTheInstruction := by
  intro i rest
  simp only [encode, List.cons_append, List.nil_append, decode, joinBytes_low_high,
    decodeWord_encodeWord]

/-- Settles O2: each row inverts, so no bit of the word is lost. -/
theorem encodeOfDecodeIsTheWord : Obligations.EncodeOfDecodeIsTheWord :=
  fun _ _ => encodeWord_of_decodeWord

/-- Settles O3: the illegal ranges are what the ranges of the rows leave out. -/
theorem illegalWordsAreTheThirteenRanges : Obligations.IllegalWordsAreTheThirteenRanges :=
  fun w => ⟨illegalWord_iff_error w, illegalWord_false_iff_ok w⟩

/-- Settles O4: each word is the encoding of its instruction. -/
theorem specWordsDecodeToTheirInstructions : Obligations.SpecWordsDecodeToTheirInstructions := by
  refine ⟨?_, ?_, ?_, ?_, ?_, ?_, ?_, ?_, ?_⟩ <;> exact decodeWord_eq_ok_iff.mpr rfl

end Sys2Proof.Machine
end

section
/-! SUPPORT. Reads and writes of memory, the load, the run loop and the breakpoint set: O5, O6, O8, O10
and O57 to O60, assembled from the laws of memory. -/

namespace Sys2Proof.Machine

/-! ## One access -/

/-- The byte after `a` of the same bank, at its physical address (rule R35). -/
theorem physAddr_add_one (b : BitVec 2) (a : Word) :
    physAddr b (a + 1) = b.toNat * 0x10000 + (a.toNat + 1) % 0x10000 := by
  rw [physAddr, BitVec.toNat_add]
  rfl

theorem watches_of_disabled {s : State} (h : s.watch.enabled = false) (k : Access) (a : Word) :
    s.watches k a = false := by
  simp [State.watches, h]

/-- A disabled memory-watch logs nothing, also with every access traced (decision D27). -/
theorem logAccess_of_disabled {s : State} (h : s.watch.enabled = false) (k : Access) (d : Direction)
    (a : Word) (z : Size) (v : Word) : s.logAccess k d a z v = s := by
  rw [State.logAccess, watches_of_disabled h, if_neg Bool.false_ne_true]

/-- Settles O5: a read answers its bytes and leaves the state that `logAccess` leaves. -/
theorem readsAreLittleEndianAndChangeNothing : Obligations.ReadsAreLittleEndianAndChangeNothing := by
  intro s v a k
  have hword : (s.readWord v a k).1 =
      (s.mem.read (physAddr (s.bank v) a)).setWidth 16 |||
        ((s.mem.read (physAddr (s.bank v) (a + 1))).setWidth 16 <<< 8) := joinBytes_eq_or _ _
  rw [physAddr_add_one] at hword
  refine ⟨rfl, hword, rfl, rfl, fun h => ⟨logAccess_of_disabled h .., logAccess_of_disabled h ..⟩, ?_, ?_⟩
  · rintro rfl
    exact ⟨logAccess_operand .., logAccess_operand ..⟩
  · rintro rfl
    exact ⟨logAccess_fetch .., logAccess_fetch ..⟩

/-- A word write, at physical addresses: the byte at `a` and the one after it are two places. -/
theorem Memory.read_writeWord (m : Memory) (b : BitVec 2) (a w : Word) (pa : Nat) :
    (m.writeWord b a w).read pa =
      if pa = physAddr b a then lowByte w else if pa = physAddr b (a + 1) then highByte w else m.read pa := by
  have hne : physAddr b a ≠ physAddr b (a + 1) := fun h => word_add_one_ne a (physAddr_inj h).2.symm
  rw [Memory.writeWord, Memory.writeByte, Memory.writeByte, Memory.read_write, Memory.read_write]
  by_cases h : pa = physAddr b a
  · rw [h, if_neg hne, if_pos rfl, if_pos rfl]
  · rw [if_neg h, if_neg h]

/-- Settles O6: memory by `Memory.read_write` and `Memory.read_writeWord`, the log by `logAccess_operand`. -/
theorem writesChangeExactlyTheirBytes : Obligations.WritesChangeExactlyTheirBytes := by
  intro s v a w b pa
  have hword := Memory.read_writeWord s.mem (s.bank v) a w pa
  rw [physAddr_add_one] at hword
  exact ⟨Memory.read_write s.mem _ b pa, hword, rfl, rfl, logAccess_operand s .write a .byte _,
    logAccess_operand s .write a .word w⟩

/-! ## Reset -/

/-- Settles O8: every list of the reset state is empty. -/
theorem resetStateIsWellFormed : Obligations.ResetStateIsWellFormed :=
  ⟨Memory.wf_empty, ⟨List.Pairwise.nil, by simp [State.reset]⟩, List.Pairwise.nil⟩

theorem reset_reg {n : Reg} (h : n ≠ .r6) : State.reset.reg n = 0 := by
  cases n
  case r6 => exact absurd rfl h
  all_goals rfl

/-- Settles O10: `resetCpu` is the reset state but for the host's streams. -/
theorem resetLeavesTheStatedValues : Obligations.ResetLeavesTheStatedValues :=
  ⟨fun _ => ⟨rfl, rfl, fun _ h => reset_reg h, rfl, rfl, rfl, fun _ _ => rfl, rfl, rfl, rfl, rfl, rfl, rfl,
      rfl, rfl, rfl⟩,
    rfl, rfl, fun _ h => reset_reg h, rfl, rfl, rfl, fun _ _ => rfl, rfl, rfl, rfl, rfl⟩

/-! ## Load (rule R232) -/

theorem MemSameOutside.mono {k l : List (BitVec 2 × Word)} {s t : State} (h : MemSameOutside k s t)
    (hl : ∀ p ∈ k, p ∈ l) : MemSameOutside l s t := fun b a hn => h b a fun hk => hn (hl _ hk)

theorem writeWord_memSame (s : State) (v : View) (a w : Word) :
    MemSameOutside (bytesFrom (s.bank v) a 2) s (s.writeWord v a w) := by
  refine (writeTargetWord_memSame (.mem v a) w s).mono ?_
  simp [Target.bytes, bytesFrom, List.range_succ]

/-- A longer buffer holds a shorter one that begins at its place `n`. -/
theorem bytesFrom_shift {b c : BitVec 2} {a x : Word} {n k : Nat}
    (h : (c, x) ∈ bytesFrom b (a + BitVec.ofNat 16 n) k) : (c, x) ∈ bytesFrom b a (n + k) := by
  obtain ⟨rfl, j, hj, rfl⟩ := mem_bytesFrom.mp h
  exact mem_bytesFrom.mpr ⟨rfl, n + j, by omega, by rw [BitVec.ofNat_add, BitVec.add_assoc]⟩

theorem loadWords_onlyCpu (s : State) (a : Word) (words : List Word) :
    OnlyCpuChanged s (s.loadWords a words) := by
  induction words generalizing s a with
  | nil => rfl
  | cons w t ih => exact OnlyCpuChanged.trans (t := s.writeWord .code a w) rfl (ih _ _)

theorem loadWords_regs_flags (s : State) (a : Word) (words : List Word) :
    (s.loadWords a words).regs = s.regs ∧ (s.loadWords a words).flags = s.flags := by
  induction words generalizing s a with
  | nil => exact ⟨rfl, rfl⟩
  | cons w t ih => exact ih (s.writeWord .code a w) (a + 2)

theorem loadWords_memSame (s : State) (a : Word) (words : List Word) :
    MemSameOutside (bytesFrom 0 a (2 * words.length)) s (s.loadWords a words) := by
  induction words generalizing s a with
  | nil => exact memSameOutside_of_eq rfl
  | cons w t ih =>
    refine ((writeWord_memSame s .code a w).trans (ih _ (a + 2))).mono fun p hp => ?_
    rw [List.length_cons, Nat.mul_succ, Nat.add_comm]
    rcases List.mem_append.mp hp with h | h
    · obtain ⟨hb, j, hj, hx⟩ := mem_bytesFrom.mp h
      exact mem_bytesFrom.mpr ⟨hb, j, by omega, hx⟩
    · exact bytesFrom_shift h

/-- Each word of an image of at most 2^15 words reads back at its place. -/
theorem loadWords_readWord (s : State) (a : Word) (words : List Word) (hl : words.length ≤ 0x8000) (k : Nat)
    (h : k < words.length) :
    (s.loadWords a words).mem.readWord 0 (a + 2 * BitVec.ofNat 16 k) = words[k] := by
  induction words generalizing s a k with
  | nil => exact absurd h (by simp)
  | cons w t ih =>
    rw [List.length_cons] at hl h
    rw [State.loadWords]
    cases k with
    | succ k =>
      have ha : a + 2 * BitVec.ofNat 16 (k + 1) = a + 2 + 2 * BitVec.ofNat 16 k := by
        rw [BitVec.ofNat_add, BitVec.mul_add, BitVec.add_assoc, BitVec.add_comm 2]
        rfl
      rw [ha]
      exact ih _ _ (by omega) k (by omega)
    | zero =>
      have hout : ∀ j, j < 2 → (0, a + BitVec.ofNat 16 j) ∉ bytesFrom 0 (a + 2) (2 * t.length) := by
        intro j hj hm
        obtain ⟨-, i, hi, he⟩ := mem_bytesFrom.mp hm
        rw [show a + 2 = a + BitVec.ofNat 16 2 from rfl, BitVec.add_assoc, ← BitVec.ofNat_add] at he
        have := word_add_inj (by omega) (by omega) he
        omega
      have hsame := loadWords_memSame (s.writeWord .code a w) (a + 2) t
      have h0 := hsame 0 a (by simpa using hout 0 (by decide))
      have h1 := hsame 0 (a + 1) (hout 1 (by decide))
      rw [show a + 2 * BitVec.ofNat 16 0 = a by simp, Memory.readWord, h0, h1]
      exact Memory.readWord_writeWord_same s.mem 0 a w

/-- Settles O57: the words by `loadWords_readWord`, the frame by `loadWords_memSame`. -/
theorem loadLaysDownTheImage : Obligations.LoadLaysDownTheImage := by
  intro s start words hl t
  obtain ⟨hregs, hflags⟩ := loadWords_regs_flags s start words
  refine ⟨loadWords_readWord s start words hl, setReg_reg_same _ _ _, fun n hn => ?_, hflags,
    loadWords_memSame s start words, (loadWords_onlyCpu s start words).trans rfl⟩
  rw [show t = (s.loadWords start words).setReg .r7 start from rfl,
    setReg_reg_ne _ _ (by simpa using hn), State.reg, hregs]
  rfl

/-! ## The run loop (rule R210) -/

theorem runLoop_halted {s : State} (h : s.halted = true) (skip : Bool) (n : Nat) :
    runLoop skip n s = .halted s := by
  cases n <;> simp [runLoop, h]

theorem runLoop_zero {s : State} (h : s.halted = false) (skip : Bool) :
    runLoop skip 0 s = .stepsExhausted s := by
  simp [runLoop, h]

theorem runLoop_breakpoint {s : State} (h : s.halted = false) (hb : s.pc ∈ s.breakpoints) (n : Nat) :
    runLoop false (n + 1) s = .breakpoint s.hitBreakpoint := by
  rw [runLoop, if_neg (by simp [h]), if_pos (by simpa using hb)]

section Step

variable {s : State} (h : s.halted = false) (hb : s.pc ∉ s.breakpoints) (n : Nat)
include h hb

theorem runLoop_next {t : State} (ht : step s = .next t) : runLoop false (n + 1) s = runLoop false n t := by
  rw [runLoop, if_neg (by simp [h]), if_neg (by simpa using hb), ht]

theorem runLoop_fault {pc0 w : Word} (hf : step s = .fault (.unimplementedInstruction pc0 w)) :
    runLoop false (n + 1) s = .fatal pc0 w := by
  rw [runLoop, if_neg (by simp [h]), if_neg (by simpa using hb), hf]

theorem runLoop_refused {r : Refusal} (hr : step s = .refused r) : runLoop false (n + 1) s = .refused r := by
  rw [runLoop, if_neg (by simp [h]), if_neg (by simpa using hb), hr]

end Step

/-- Settles O58, by induction on the first budget: the two loops make the same tests and steps until it is
used up. -/
theorem aRunMayBeContinued : Obligations.ARunMayBeContinued := by
  intro m n
  simp only [runWith]
  induction m with
  | zero =>
    intro s
    rw [Nat.zero_add]
    cases h : s.halted with
    | true => rw [runLoop_halted h, runLoop_halted h]
    | false => rw [runLoop_zero h]
  | succ m ih =>
    intro s
    rw [Nat.succ_add]
    cases h : s.halted with
    | true => rw [runLoop_halted h, runLoop_halted h]
    | false =>
      by_cases hb : s.pc ∈ s.breakpoints
      · rw [runLoop_breakpoint h hb, runLoop_breakpoint h hb]
      · cases hs : step s with
        | next t => rw [runLoop_next h hb _ hs, runLoop_next h hb _ hs, ih t]
        | fault f => rw [runLoop_fault h hb _ hs, runLoop_fault h hb _ hs]
        | refused r => rw [runLoop_refused h hb _ hs, runLoop_refused h hb _ hs]

/-- Settles O59: the tests of `runLoop` in their order. -/
theorem runTestsHaltedThenBudgetThenBreakpoint : Obligations.RunTestsHaltedThenBudgetThenBreakpoint := by
  refine fun n s => ⟨fun h p => ?_, fun h p => ?_, fun h hb => runLoop_breakpoint h hb n,
    fun h hb t ht => runLoop_next h hb n ht, fun h hb pc0 w hf => runLoop_fault h hb n hf⟩
  · cases p <;> exact runLoop_halted h _ n
  · cases p
    · exact runLoop_zero h false
    · exact runLoop_zero h true

/-! ## The breakpoint set -/

/-- Settles O60: an insertion by its two laws, a removal as a filter. -/
theorem breakpointsAreASet : Obligations.BreakpointsAreASet := by
  intro s a b
  refine ⟨mem_insertBreakpoint s.breakpoints a b, ?_, fun ⟨hm, hf, hb⟩ =>
    ⟨⟨hm, hf, insertBreakpoint_rises a hb⟩, ⟨hm, hf, hb.filter _⟩⟩⟩
  simp [State.removeBreakpoint, and_comm]

end Sys2Proof.Machine
end

section
/-! SUPPORT. One step: the fetch, the invariant, the faults and refusals of each instruction, and the
halt; O9 and O11 to O14, assembled from them. -/

namespace Sys2Proof.Machine

/-! ## The fetch that begins a step (rule R36) -/

/-- The fetch moves the program counter, fixes pc0 and may log a line, and nothing else. -/
theorem fetchInstr_eq (s : State) :
    s.fetchInstr.2 =
      { s with pc0 := s.pc, regs := s.fetchInstr.2.regs, watchLog := s.fetchInstr.2.watchLog } := rfl

theorem fetchInstr_wf {s : State} (h : s.wf) : s.fetchInstr.2.wf := h

/-- The step that runs an instruction reads its word as two bytes, the low one first (rule R37). -/
theorem decodeWord_of_decode {lo hi : Byte} {i : Instr} {rest : List Byte}
    (h : decode (lo :: hi :: rest) = .ok (i, rest)) : decodeWord (joinBytes lo hi) = .ok i := by
  rw [decode] at h
  cases hd : decodeWord (joinBytes lo hi) with
  | error e => simp [hd] at h
  | ok j => simpa [hd] using h

/-- Settles O11: the state after the fetch is `fetchInstr`'s. -/
theorem stepRunsTheDecodedInstruction : Obligations.StepRunsTheDecodedInstruction := by
  intro s i rest hh hd
  refine ⟨s.fetchInstr.2, step_decoded hh (decodeWord_of_decode hd), setReg_reg_same _ _ _,
    fun n hn => setReg_reg_ne _ _ hn, fetchInstr_eq s, fun hw => ?_⟩
  have hlog := congrArg State.watchLog (logAccess_of_disabled (s := { s with pc0 := s.pc }) hw .fetch .read
    s.pc .word (s.mem.readWord 0 s.pc))
  exact hlog

/-! ## The invariant -/

/-- Every instruction keeps the canonical forms. -/
theorem exec_keeps_wf {i : Instr} {s t : State} (h : exec i s = .next t) (hs : s.wf) : t.wf := by
  obtain ⟨hm, hf, hb⟩ := hs
  by_cases htrap : ∃ v, i = .trap v
  · obtain ⟨v, rfl⟩ := htrap
    obtain ⟨-, rfl⟩ | ⟨w, -, hframe, hmem, hfiles, -⟩ := execTrap_cases h
    · exact ⟨hm, hf, hb⟩
    · exact ⟨hmem hm, hfiles hf, by rw [hframe.breakpoints]; exact hb⟩
  by_cases hhalt : i = .halt
  · subst hhalt
    cases h
    exact ⟨hm, hf, hb⟩
  · obtain ⟨honly, hmem⟩ := exec_onlyCpu h (fun v hv => htrap ⟨v, hv⟩) hhalt
    exact ⟨hmem hm, by rw [honly.files]; exact hf, by rw [honly.breakpoints]; exact hb⟩

/-- Settles O9: a step is nothing, or an instruction after a fetch that touches none of the three lists. -/
theorem stepsKeepTheStateWellFormed : Obligations.StepsKeepTheStateWellFormed := by
  intro s t hs h
  obtain ⟨-, rfl⟩ | ⟨-, i, -, hi⟩ := step_next_cases h
  · exact hs
  · exact exec_keeps_wf hi (fetchInstr_wf hs)

/-! ## What an instruction answers -/

theorem next_ne_fault {s : State} {f : Fault} :
    (.next s : Host.Outcome State Fault Refusal) ≠ .fault f := nofun

theorem next_ne_refused {s : State} {r : Refusal} :
    (.next s : Host.Outcome State Fault Refusal) ≠ .refused r := nofun

/-- A jump to a register has no address and faults (decision D4); otherwise it completes. -/
theorem execJmp_outcome (d : Spec) (s : State) :
    (d.hasAddress = true ∧ ∃ t, execJmp d s = .next t) ∨
      (d.hasAddress = false ∧
        execJmp d s = .fault (.unimplementedInstruction s.pc0 (encodeWord (.jmp d)))) := by
  cases h : d.hasAddress with
  | true =>
    obtain ⟨v, a, ha⟩ := resolve_hasAddress h .word s
    exact .inl ⟨rfl, _, execJmp_mem ha⟩
  | false => exact .inr ⟨rfl, by simp only [execJmp, resolve_noAddress h]; rfl⟩

theorem execJsr_outcome (r : Reg) (d : Spec) (s : State) :
    (d.hasAddress = true ∧ ∃ t, execJsr r d s = .next t) ∨
      (d.hasAddress = false ∧
        execJsr r d s = .fault (.unimplementedInstruction s.pc0 (encodeWord (.jsr r d)))) := by
  cases h : d.hasAddress with
  | true =>
    obtain ⟨v, a, ha⟩ := resolve_hasAddress h .word s
    exact .inl ⟨rfl, _, execJsr_mem ha⟩
  | false => exact .inr ⟨rfl, by simp only [execJsr, resolve_noAddress h]; rfl⟩

/-- The services whose input is a string (rule R164). -/
def Service.takesString (w : Service) : Bool :=
  match w with
  | .puts | .println | .openFile => true
  | _ => false

/-- A string service refuses exactly when the data bank holds no zero byte. -/
theorem withString_refused_iff (f : List Byte → State → State) (s : State) (r : Refusal) :
    withString f s = .refused r ↔
      r = .unterminatedString (s.reg .r0) ∧ ∀ a : Word, s.mem.readByte s.memBank a ≠ 0 := by
  rw [← cstring_bank_none (s.reg .r0), withString]
  cases cstring 0x10000 (s.reg .r0) s with
  | none => simp [eq_comm]
  | some q => simp

theorem runService_refused_iff (w : Service) (s : State) (r : Refusal) :
    runService w s = .refused r ↔
      w.takesString = true ∧ r = .unterminatedString (s.reg .r0) ∧
        ∀ a : Word, s.mem.readByte s.memBank a ≠ 0 := by
  cases w
  case puts | println | openFile => simp [runService, Service.takesString, withString_refused_iff]
  all_goals simp [runService, Service.takesString]

/-- No service faults. -/
theorem runService_not_fault (w : Service) (s : State) (f : Fault) : runService w s ≠ .fault f := by
  have string : ∀ g, withString g s ≠ .fault f := fun g h => by
    obtain ⟨l, k, hk⟩ | ⟨hk, -⟩ := withString_cases g s <;> rw [hk] at h <;> cases h
  cases w
  case puts | println | openFile => exact string _
  all_goals exact next_ne_fault

theorem execTrap_not_fault (v : BitVec 8) (s : State) (f : Fault) : execTrap v s ≠ .fault f := by
  rw [execTrap]
  cases serviceOf v with
  | none => exact next_ne_fault
  | some w => exact runService_not_fault w _ f

/-- An instruction faults exactly when it is a jump to a register (rule R52, decision D4). -/
theorem exec_fault_iff (i : Instr) (s : State) (f : Fault) :
    exec i s = .fault f ↔
      f = .unimplementedInstruction s.pc0 (encodeWord i) ∧ i.wellFormed = false := by
  cases i
  case jmp d =>
    obtain ⟨hd, t, ht⟩ | ⟨hd, ht⟩ := execJmp_outcome d s <;>
      simp [exec, Instr.wellFormed, hd, ht, eq_comm]
  case jsr r d =>
    obtain ⟨hd, t, ht⟩ | ⟨hd, ht⟩ := execJsr_outcome r d s <;>
      simp [exec, Instr.wellFormed, hd, ht, eq_comm]
  case trap v => simp [exec, Instr.wellFormed, execTrap_not_fault]
  all_goals exact ⟨fun h => absurd h next_ne_fault, fun h => absurd h.2 Bool.noConfusion⟩

/-! ## The words of a jump to a register -/

/-- A word whose mode field, bits 5:3, is clear has a mode 0 destination. -/
theorem dstSpec_hasAddress {w : Word} (h : w.extractLsb' 3 3 = 0) : (dstSpec w).hasAddress = false := by
  rw [dstSpec, h]
  rfl

/-- A word that a coarser mask still sends to its pattern. -/
theorem and_mask_of_and {w m n p q : Word} (h : w &&& m = p) (hn : m &&& n = n) (hq : p &&& n = q) :
    w &&& n = q := by
  rw [← hn, ← BitVec.and_assoc, h, hq]

theorem extract_of_and {w m p : Word} (h : w &&& m = p) (hm : m.extractLsb' 3 3 = BitVec.allOnes 3) :
    w.extractLsb' 3 3 = p.extractLsb' 3 3 := by
  rw [← h, BitVec.extractLsb'_and, hm, BitVec.and_allOnes]

theorem jumpToRegister_decode {w : Word} (h : jumpToRegister w = true) :
    ∃ i, decodeWord w = .ok i ∧ i.wellFormed = false := by
  rw [jumpToRegister, Bool.or_eq_true, beq_iff_eq, beq_iff_eq] at h
  rcases h with h | h
  · have hsel : (rowS "JMP" 0x0040 .jmp).selects w = true :=
      beq_iff_eq.mpr (and_mask_of_and h rfl rfl)
    exact ⟨_, decodeWord_of_selects (by simp [opcodeRows]) hsel,
      dstSpec_hasAddress (extract_of_and h rfl)⟩
  · have hsel : OpcodeRow.selects
        ⟨"JSR", 0x0800, 0xFE00, fun w => .jsr (linkReg w) (dstSpec w)⟩ w = true :=
      beq_iff_eq.mpr (and_mask_of_and h rfl rfl)
    exact ⟨_, decodeWord_of_selects (by simp [opcodeRows]) hsel,
      dstSpec_hasAddress (extract_of_and h rfl)⟩

theorem Spec.eq_register {d : Spec} (h : d.hasAddress = false) : d = ⟨.register, d.reg⟩ := by
  obtain ⟨m, n⟩ := d
  cases m
  · rfl
  all_goals cases h

theorem jumpToRegister_encodeWord {i : Instr} (h : i.wellFormed = false) :
    jumpToRegister (encodeWord i) = true := by
  cases i
  case jmp d =>
    rw [Spec.eq_register (d := d) h]
    cases d.reg <;> rfl
  case jsr r d =>
    rw [Spec.eq_register (d := d) h]
    cases r <;> cases d.reg <;> rfl
  all_goals cases h

/-- The words of rule R201 are those of the instructions that are not well-formed. -/
theorem jumpToRegister_iff {w : Word} {i : Instr} (h : decodeWord w = .ok i) :
    jumpToRegister w = true ↔ i.wellFormed = false := by
  refine ⟨fun hj => ?_, fun hi => encodeWord_of_decodeWord h ▸ jumpToRegister_encodeWord hi⟩
  obtain ⟨j, hd, hj⟩ := jumpToRegister_decode hj
  cases h.symm.trans hd
  exact hj

/-- Settles O12: a word that does not decode faults by its range, and one that does by `exec_fault_iff`. -/
theorem stepFaultsExactlyOnUnimplementedWords : Obligations.StepFaultsExactlyOnUnimplementedWords := by
  intro s f
  cases hh : s.halted with
  | true => simp [step, hh]
  | false =>
    cases hd : decodeWord (s.mem.readWord 0 s.pc) with
    | error e =>
      have hill : illegalWord (s.mem.readWord 0 s.pc) = true :=
        (illegalWord_iff_error _).mpr (by rw [hd, (decodeWord_error hd).1])
      rw [step_illegal hh hd, hill]
      simp [@eq_comm _ f]
    | ok i =>
      have hlegal : illegalWord (s.mem.readWord 0 s.pc) = false := (illegalWord_false_iff_ok _).mpr ⟨i, hd⟩
      rw [step_decoded hh hd, exec_fault_iff, fetchInstr_pc0, encodeWord_of_decodeWord hd, hlegal,
        jumpToRegister_iff hd]
      simp

/-! ## Refusals -/

theorem serviceOf_takesString (v : BitVec 8) :
    (serviceOf v).any Service.takesString = true ↔ v = 3 ∨ v = 8 ∨ v = 20 := by
  revert v
  decide

theorem execTrap_refused_iff (v : BitVec 8) (s : State) (r : Refusal) :
    execTrap v s = .refused r ↔
      r = .unterminatedString (s.reg .r0) ∧ (v = 3 ∨ v = 8 ∨ v = 20) ∧
        ∀ a : Word, s.mem.readByte s.memBank a ≠ 0 := by
  rw [← serviceOf_takesString, execTrap]
  cases serviceOf v with
  | none => simp
  | some w => exact (runService_refused_iff w (s.setFlags (serviceFlags s.flags)) r).trans and_left_comm

/-- Settles O13: only `TRAP` refuses, and of its services only those that take a string. -/
theorem onlyUnterminatedStringsAreRefused : Obligations.OnlyUnterminatedStringsAreRefused := by
  intro i s r
  cases i
  case trap v =>
    simp only [Instr.trap.injEq]
    exact execTrap_refused_iff v s r
  case jmp d =>
    obtain ⟨-, t, ht⟩ | ⟨-, ht⟩ := execJmp_outcome d s <;> simp [exec, ht]
  case jsr l d =>
    obtain ⟨-, t, ht⟩ | ⟨-, ht⟩ := execJsr_outcome l d s <;> simp [exec, ht]
  all_goals exact ⟨fun h => absurd h next_ne_refused, by rintro ⟨-, h | h | h, -⟩ <;> cases h⟩

/-! ## The halt (rule R153) -/

theorem reaches_of_halted {s u : State} (hs : s.halted = true) (h : Reaches s u) : u = s := by
  induction h with
  | start => rfl
  | next _ hstep ih =>
    subst ih
    simp only [step, hs, if_true, Host.Outcome.next.injEq] at hstep
    exact hstep.symm

/-- Settles O14: 0 is the encoding of `HALT`, and a halted CPU steps to itself. -/
theorem haltStopsTheMachine : Obligations.HaltStopsTheMachine :=
  ⟨fun _ => decodeWord_eq_ok_iff.trans eq_comm,
    fun _ => ⟨_, rfl, rfl, fun _ => reaches_of_halted rfl⟩⟩

end Sys2Proof.Machine
end

section
/-! SUPPORT. What no instruction reads and what few write: each instruction commutes with erasing the debug
state and with changing N and V; O53 to O56, assembled from that and from the frames of Laws/Step.lean. -/

namespace Sys2Proof.Machine

/-! ## A change of state carried through an outcome -/

/-- The outcome with its next state changed by `g`; a stop stays the stop it is. -/
def onNext (g : State → State) (o : Host.Outcome State Fault Refusal) : Host.Outcome State Fault Refusal :=
  match o with
  | .next s => .next (g s)
  | .fault f => .fault f
  | .refused r => .refused r

@[simp] theorem onNext_next (g : State → State) (s : State) : onNext g (.next s) = .next (g s) := rfl

/-! ## Erasing the debug state -/

section Erase

variable (s : State)

theorem modifyWord2_withoutDebug (ss dd : Spec) (f : Word → Word → Word) (fl : Word → Word → Flags) :
    modifyWord2 ss dd f fl s.withoutDebug = (modifyWord2 ss dd f fl s).withoutDebug := by
  simp only [modifyWord2, operandWord_withoutDebug, writeTargetWord_withoutDebug]
  rfl

theorem testWord2_withoutDebug (ss dd : Spec) (fl : Word → Word → Flags) :
    testWord2 ss dd fl s.withoutDebug = (testWord2 ss dd fl s).withoutDebug := by
  simp only [testWord2, operandWord_withoutDebug]
  rfl

theorem modifyByte2_withoutDebug (ss dd : Spec) (f : Byte → Byte → Byte) (fl : Byte → Byte → Flags) :
    modifyByte2 ss dd f fl s.withoutDebug = (modifyByte2 ss dd f fl s).withoutDebug := by
  simp only [modifyByte2, operandByte_withoutDebug, writeTargetByte_withoutDebug]
  rfl

theorem testByte2_withoutDebug (ss dd : Spec) (fl : Byte → Byte → Flags) :
    testByte2 ss dd fl s.withoutDebug = (testByte2 ss dd fl s).withoutDebug := by
  simp only [testByte2, operandByte_withoutDebug]
  rfl

theorem modifyWord1_withoutDebug (dd : Spec) (f : Word → Word) (fl : Word → Flags) :
    modifyWord1 dd f fl s.withoutDebug = (modifyWord1 dd f fl s).withoutDebug := by
  simp only [modifyWord1, operandWord_withoutDebug, writeTargetWord_withoutDebug]
  rfl

theorem modifyByte1_withoutDebug (dd : Spec) (f : Byte → Byte) (fl : Byte → Flags) :
    modifyByte1 dd f fl s.withoutDebug = (modifyByte1 dd f fl s).withoutDebug := by
  simp only [modifyByte1, operandByte_withoutDebug, writeTargetByte_withoutDebug]
  rfl

theorem branchIf_withoutDebug (c : Bool) (off : BitVec 8) :
    branchIf c off s.withoutDebug = (branchIf c off s).withoutDebug := by
  cases c <;> rfl

theorem execJmp_withoutDebug (d : Spec) :
    execJmp d s.withoutDebug = onNext State.withoutDebug (execJmp d s) := by
  simp only [execJmp, resolve_withoutDebug]
  cases (resolve d .word s).1 <;> rfl

theorem linkValue_withoutDebug (r : Reg) : linkValue r s.withoutDebug = linkValue r s := by
  cases r <;> rfl

theorem execJsr_withoutDebug (r : Reg) (d : Spec) :
    execJsr r d s.withoutDebug = onNext State.withoutDebug (execJsr r d s) := by
  simp only [execJsr, resolve_withoutDebug, linkValue_withoutDebug]
  cases (resolve d .word s).1 <;> rfl

/-! ### Services -/

theorem withString_withoutDebug {f : List Byte → State → State}
    (hf : ∀ l t, f l (State.withoutDebug t) = (f l t).withoutDebug) :
    withString f s.withoutDebug = onNext State.withoutDebug (withString f s) := by
  have hr : s.withoutDebug.reg .r0 = s.reg .r0 := rfl
  rw [withString, withString, hr, cstring_withoutDebug]
  cases cstring 0x10000 (s.reg .r0) s with
  | none => rfl
  | some q => exact congrArg Host.Outcome.next (hf q.1 q.2)

theorem serviceGetc_withoutDebug : serviceGetc s.withoutDebug = (serviceGetc s).withoutDebug := by
  have hc : s.withoutDebug.inChar = (s.inChar.1, s.inChar.2.withoutDebug) := rfl
  rw [serviceGetc, serviceGetc, hc]
  cases s.inChar.1 <;> rfl

theorem serviceReadLine_withoutDebug :
    serviceReadLine s.withoutDebug = (serviceReadLine s).withoutDebug := by
  have hr : ∀ n, s.withoutDebug.reg n = s.reg n := fun _ => rfl
  have hw := writeBytes_withoutDebug { s with hostIn := (lineRead (s.reg .r1) s.hostIn).2.1 } (s.reg .r0)
    (lineRead (s.reg .r1) s.hostIn).1
  simp only [serviceReadLine, hr]
  split
  · exact congrArg (fun t : State => (t.setReg .r0 _).setZ _) hw
  · exact congrArg (fun t : State => ((t.writeByte .data _ 0).setReg .r0 _).setZ _) hw

theorem numberResult_withoutDebug (v : Option Word) :
    numberResult v s.withoutDebug = (numberResult v s).withoutDebug := by
  cases v <;> rfl

theorem failed_withoutDebug : s.withoutDebug.failed = s.failed.withoutDebug := rfl

theorem openFileOf_withoutDebug : s.withoutDebug.openFileOf = s.openFileOf := rfl

theorem reg_withoutDebug (n : Reg) : s.withoutDebug.reg n = s.reg n := rfl

theorem serviceOpen_withoutDebug (l : List Byte) :
    serviceOpen l s.withoutDebug = (serviceOpen l s).withoutDebug := by
  have hf : s.withoutDebug.files.firstVacant = s.files.firstVacant := rfl
  simp only [serviceOpen, reg_withoutDebug, callHost_withoutDebug, hf]
  split
  · cases s.files.firstVacant with
    | none => rfl
    | some h =>
      dsimp only
      split <;> rfl
  · rfl

theorem serviceReadFile_withoutDebug :
    serviceReadFile s.withoutDebug = (serviceReadFile s).withoutDebug := by
  simp only [serviceReadFile, reg_withoutDebug, openFileOf_withoutDebug, callHost_withoutDebug]
  cases s.openFileOf with
  | none => rfl
  | some f =>
    dsimp only
    split
    · exact congrArg₂ State.result (writeBytes_withoutDebug (State.setFile _ _) _ _) rfl
    · rfl

theorem serviceWriteFile_withoutDebug :
    serviceWriteFile s.withoutDebug = (serviceWriteFile s).withoutDebug := by
  simp only [serviceWriteFile, reg_withoutDebug, openFileOf_withoutDebug, readBytes_withoutDebug,
    callHost_withoutDebug]
  cases s.openFileOf with
  | none => rfl
  | some f =>
    dsimp only
    split <;> rfl

theorem serviceClose_withoutDebug : serviceClose s.withoutDebug = (serviceClose s).withoutDebug := by
  simp only [serviceClose, reg_withoutDebug, openFileOf_withoutDebug, callHost_withoutDebug]
  cases s.openFileOf with
  | none => rfl
  | some f =>
    dsimp only
    split <;> rfl

theorem serviceSeek_withoutDebug : serviceSeek s.withoutDebug = (serviceSeek s).withoutDebug := by
  simp only [serviceSeek, reg_withoutDebug, openFileOf_withoutDebug, callHost_withoutDebug]
  cases s.openFileOf with
  | none => rfl
  | some f =>
    dsimp only
    split
    · split <;> rfl
    · rfl

theorem serviceTell_withoutDebug : serviceTell s.withoutDebug = (serviceTell s).withoutDebug := by
  simp only [serviceTell, openFileOf_withoutDebug, callHost_withoutDebug]
  cases s.openFileOf with
  | none => rfl
  | some f =>
    dsimp only
    split <;> rfl

theorem serviceBank_withoutDebug : serviceBank s.withoutDebug = (serviceBank s).withoutDebug := by
  by_cases h : (s.reg .r0).ule 3
  · rw [serviceBank, serviceBank, reg_withoutDebug, if_pos h, if_pos h]
    rfl
  · rw [serviceBank, serviceBank, reg_withoutDebug, if_neg h, if_neg h]
    rfl

theorem runService_withoutDebug (w : Service) :
    runService w s.withoutDebug = onNext State.withoutDebug (runService w s) := by
  cases w
  case puts => exact withString_withoutDebug s fun _ _ => rfl
  case println => exact withString_withoutDebug s fun _ _ => rfl
  case openFile => exact withString_withoutDebug s fun l t => serviceOpen_withoutDebug t l
  case getc => exact congrArg Host.Outcome.next (serviceGetc_withoutDebug s)
  case readLine => exact congrArg Host.Outcome.next (serviceReadLine_withoutDebug s)
  case readInt => exact congrArg Host.Outcome.next (numberResult_withoutDebug { s with hostIn := _ } _)
  case readHex => exact congrArg Host.Outcome.next (numberResult_withoutDebug { s with hostIn := _ } _)
  case readFile => exact congrArg Host.Outcome.next (serviceReadFile_withoutDebug s)
  case writeFile => exact congrArg Host.Outcome.next (serviceWriteFile_withoutDebug s)
  case closeFile => exact congrArg Host.Outcome.next (serviceClose_withoutDebug s)
  case seekFile => exact congrArg Host.Outcome.next (serviceSeek_withoutDebug s)
  case tellFile => exact congrArg Host.Outcome.next (serviceTell_withoutDebug s)
  case bank => exact congrArg Host.Outcome.next (serviceBank_withoutDebug s)
  case putc | printSigned | printHex | printUnsigned => rfl

theorem execTrap_withoutDebug (v : BitVec 8) :
    execTrap v s.withoutDebug = onNext State.withoutDebug (execTrap v s) := by
  rw [execTrap, execTrap]
  cases serviceOf v with
  | none => rfl
  | some w => exact runService_withoutDebug (s.setFlags (serviceFlags s.flags)) w

/-! ### Every instruction -/

/-- No instruction observes the debug state. -/
theorem exec_withoutDebug (i : Instr) :
    exec i s.withoutDebug = onNext State.withoutDebug (exec i s) := by
  cases i
  case mov a d =>
    simp only [exec, execMov, operandWord_withoutDebug, resolve_withoutDebug, writeTargetWord_withoutDebug]
    rfl
  case movb a d =>
    simp only [exec, execMovb, operandByte_withoutDebug, resolve_withoutDebug, writeTargetSext_withoutDebug]
    rfl
  case clr d =>
    simp only [exec, execClr, resolve_withoutDebug, writeTargetWord_withoutDebug]
    rfl
  case clrb d =>
    simp only [exec, execClrb, resolve_withoutDebug, writeTargetByte_withoutDebug]
    rfl
  case tst d =>
    simp only [exec, execTst, operandWord_withoutDebug]
    rfl
  case tstb d =>
    simp only [exec, execTstb, operandByte_withoutDebug]
    rfl
  case cmp a d | bit a d => exact congrArg Host.Outcome.next (testWord2_withoutDebug s a d _)
  case cmpb a d | bitb a d => exact congrArg Host.Outcome.next (testByte2_withoutDebug s a d _)
  case bic a d | bis a d | add a d | sub a d =>
    exact congrArg Host.Outcome.next (modifyWord2_withoutDebug s a d _ _)
  case bicb a d | bisb a d => exact congrArg Host.Outcome.next (modifyByte2_withoutDebug s a d _ _)
  case inc d | dec d | ror d | rol d | asr d | asl d =>
    exact congrArg Host.Outcome.next (modifyWord1_withoutDebug s d _ _)
  case incb d | decb d => exact congrArg Host.Outcome.next (modifyByte1_withoutDebug s d _ _)
  case br o | bne o | beq o => exact congrArg Host.Outcome.next (branchIf_withoutDebug s _ o)
  case jmp d => exact execJmp_withoutDebug s d
  case jsr r d => exact execJsr_withoutDebug s r d
  case rts r => cases r <;> rfl
  case halt => rfl
  case trap v => exact execTrap_withoutDebug s v

theorem step_withoutDebug : step s.withoutDebug = onNext State.withoutDebug (step s) := by
  cases hh : s.halted with
  | true =>
    have hh' : s.withoutDebug.halted = true := hh
    simp [step, hh, hh']
  | false =>
    have hh' : s.withoutDebug.halted = false := hh
    cases hd : decodeWord (s.mem.readWord 0 s.pc) with
    | error e => rw [step_illegal hh hd, step_illegal (s := s.withoutDebug) hh' hd]; rfl
    | ok i =>
      rw [step_decoded hh hd, step_decoded (s := s.withoutDebug) hh' hd, fetchInstr_withoutDebug]
      exact exec_withoutDebug _ i

end Erase

/-- Settles O56: a step commutes with erasing the debug state. -/
theorem noStepObservesTheDebugState : Obligations.NoStepObservesTheDebugState := by
  intro s
  rw [step_withoutDebug]
  cases step s with
  | next t => exact ⟨t.withoutDebug, rfl, rfl⟩
  | fault f => rfl
  | refused r => rfl

/-! ## Changing N and V -/

section ChangeNV

variable (s : State) (n v : Bool)

/-- The common sequences set all four flags from operands that do not depend on N and V. -/
theorem modifyWord2_withNV (ss dd : Spec) (f : Word → Word → Word) (fl : Word → Word → Flags) :
    modifyWord2 ss dd f fl (s.withNV n v) = modifyWord2 ss dd f fl s := by
  simp only [modifyWord2, operandWord_withNV, writeTargetWord_withNV, setFlags_withNV]

theorem testWord2_withNV (ss dd : Spec) (fl : Word → Word → Flags) :
    testWord2 ss dd fl (s.withNV n v) = testWord2 ss dd fl s := by
  simp only [testWord2, operandWord_withNV, setFlags_withNV]

theorem modifyByte2_withNV (ss dd : Spec) (f : Byte → Byte → Byte) (fl : Byte → Byte → Flags) :
    modifyByte2 ss dd f fl (s.withNV n v) = modifyByte2 ss dd f fl s := by
  simp only [modifyByte2, operandByte_withNV, writeTargetByte_withNV, setFlags_withNV]

theorem testByte2_withNV (ss dd : Spec) (fl : Byte → Byte → Flags) :
    testByte2 ss dd fl (s.withNV n v) = testByte2 ss dd fl s := by
  simp only [testByte2, operandByte_withNV, setFlags_withNV]

theorem modifyWord1_withNV (dd : Spec) (f : Word → Word) (fl : Word → Flags) :
    modifyWord1 dd f fl (s.withNV n v) = modifyWord1 dd f fl s := by
  simp only [modifyWord1, operandWord_withNV, writeTargetWord_withNV, setFlags_withNV]

theorem modifyByte1_withNV (dd : Spec) (f : Byte → Byte) (fl : Byte → Flags) :
    modifyByte1 dd f fl (s.withNV n v) = modifyByte1 dd f fl s := by
  simp only [modifyByte1, operandByte_withNV, writeTargetByte_withNV, setFlags_withNV]

/-- An instruction that writes flags does the same whatever N and V were. -/
theorem exec_withNV_of_writes {i : Instr} (h : leavesFlags i = false) :
    exec i (s.withNV n v) = exec i s := by
  cases i
  case mov a d =>
    simp only [exec, execMov, operandWord_withNV, resolve_withNV, writeTargetWord_withNV, setFlags_withNV]
    rfl
  case movb a d =>
    simp only [exec, execMovb, operandByte_withNV, resolve_withNV, writeTargetSext_withNV, setFlags_withNV]
    rfl
  case clr d => simp only [exec, execClr, resolve_withNV, writeTargetWord_withNV, setFlags_withNV]
  case clrb d => simp only [exec, execClrb, resolve_withNV, writeTargetByte_withNV, setFlags_withNV]
  case tst d => simp only [exec, execTst, operandWord_withNV, setFlags_withNV]
  case tstb d => simp only [exec, execTstb, operandByte_withNV, setFlags_withNV]
  case cmp a d | bit a d => exact congrArg Host.Outcome.next (testWord2_withNV s n v a d _)
  case cmpb a d | bitb a d => exact congrArg Host.Outcome.next (testByte2_withNV s n v a d _)
  case bic a d | bis a d | add a d | sub a d =>
    exact congrArg Host.Outcome.next (modifyWord2_withNV s n v a d _ _)
  case bicb a d | bisb a d => exact congrArg Host.Outcome.next (modifyByte2_withNV s n v a d _ _)
  case inc d | dec d | ror d | rol d | asr d | asl d =>
    exact congrArg Host.Outcome.next (modifyWord1_withNV s n v d _ _)
  case incb d | decb d => exact congrArg Host.Outcome.next (modifyByte1_withNV s n v d _ _)
  case trap vec =>
    cases hw : serviceOf vec with
    | none => simp [leavesFlags, hw] at h
    | some w => simp only [exec, execTrap, hw, serviceStart_withNV]
  all_goals cases h

theorem branchIf_withNV (c : Bool) (off : BitVec 8) :
    branchIf c off (s.withNV n v) = (branchIf c off s).withNV n v := by
  cases c <;> rfl

/-- An instruction that writes no flag carries N and V along. -/
theorem exec_withNV_of_leaves {i : Instr} (h : leavesFlags i = true) :
    exec i (s.withNV n v) = onNext (State.withNV · n v) (exec i s) := by
  cases i
  case br o | bne o | beq o => exact congrArg Host.Outcome.next (branchIf_withNV s n v _ o)
  case jmp d =>
    simp only [exec, execJmp, resolve_withNV]
    cases (resolve d .word s).1 <;> rfl
  case jsr r d =>
    simp only [exec, execJsr, resolve_withNV]
    cases (resolve d .word s).1
    · rfl
    · cases r <;> rfl
  case rts r => cases r <;> rfl
  case halt => rfl
  case trap vec =>
    have hw : serviceOf vec = none := Option.isNone_iff_eq_none.mp h
    simp only [exec, execTrap, hw]
    rfl
  all_goals cases h

/-- The step of a state with other N and V: the same, or the same with N and V carried along. -/
theorem step_withNV :
    step (s.withNV n v) = step s ∨ step (s.withNV n v) = onNext (State.withNV · n v) (step s) := by
  cases hh : s.halted with
  | true =>
    have hh' : (s.withNV n v).halted = true := hh
    exact .inr (by simp [step, hh, hh'])
  | false =>
    have hh' : (s.withNV n v).halted = false := hh
    cases hd : decodeWord (s.mem.readWord 0 s.pc) with
    | error e => exact .inl (by rw [step_illegal hh hd, step_illegal (s := s.withNV n v) hh' hd]; rfl)
    | ok i =>
      rw [step_decoded hh hd, step_decoded (s := s.withNV n v) hh' hd, fetchInstr_withNV]
      cases hf : leavesFlags i with
      | true => exact .inr (exec_withNV_of_leaves _ n v hf)
      | false => exact .inl (exec_withNV_of_writes _ n v hf)

end ChangeNV

/-- Settles O55: N and V are carried along, or written over as in the step of the state itself. -/
theorem noStepReadsNOrV : Obligations.NoStepReadsNOrV := by
  intro s n v
  rcases step_withNV s n v with h | h <;> rw [h]
  · cases step s with
    | next t => exact ⟨t.flags.n, t.flags.v, rfl⟩
    | fault f => rfl
    | refused r => rfl
  · cases step s with
    | next t => exact ⟨n, v, rfl⟩
    | fault f => rfl
    | refused r => rfl

/-! ## Which flags an instruction writes (rule R18) -/

theorem branchIf_flags (c : Bool) (off : BitVec 8) (s : State) : (branchIf c off s).flags = s.flags := by
  cases c <;> rfl

theorem exec_flags_of_leaves {i : Instr} {s t : State} (h : exec i s = .next t)
    (hf : leavesFlags i = true) : t.flags = s.flags := by
  cases i
  case br o | bne o | beq o =>
    cases h
    exact branchIf_flags _ o s
  case jmp d =>
    obtain ⟨hd, -⟩ | ⟨-, hd⟩ := execJmp_outcome d s
    · obtain ⟨v, a, ha⟩ := resolve_hasAddress hd .word s
      cases (execJmp_mem ha).symm.trans h
      exact resolve_flags d .word s
    · cases hd.symm.trans h
  case jsr r d =>
    obtain ⟨hd, -⟩ | ⟨-, hd⟩ := execJsr_outcome r d s
    · obtain ⟨v, a, ha⟩ := resolve_hasAddress hd .word s
      cases (execJsr_mem ha).symm.trans h
      exact resolve_flags d .word s
    · cases hd.symm.trans h
  case rts r | halt =>
    cases h
    rfl
  case trap v =>
    obtain ⟨-, rfl⟩ | ⟨w, hw, -⟩ := execTrap_cases h
    · rfl
    · simp [leavesFlags, hw] at hf
  all_goals cases hf

theorem exec_carry_of_leaves {i : Instr} {s t : State} (h : exec i s = .next t)
    (hc : leavesCarry i = true) : t.flags.c = s.flags.c := by
  cases i
  case mov | movb | inc | incb | dec | decb =>
    cases h
    rfl
  all_goals cases hc

/-- Settles O53: the flags that stay by the two lemmas above, the others by `exec_withNV_of_writes`. -/
theorem onlyTheListedInstructionsWriteFlags : Obligations.OnlyTheListedInstructionsWriteFlags :=
  fun _ s _ h => ⟨exec_flags_of_leaves h, exec_carry_of_leaves h,
    fun hw n v => (exec_withNV_of_writes s n v hw).trans h⟩

/-! ## The writers of the control state -/

/-- The vector that names a service (rule R160). -/
def Service.vector (w : Service) : BitVec 8 :=
  match w with
  | .putc => 1
  | .getc => 2
  | .puts => 3
  | .printSigned => 4
  | .readLine => 5
  | .printHex => 6
  | .printUnsigned => 7
  | .println => 8
  | .readInt => 9
  | .readHex => 10
  | .openFile => 20
  | .readFile => 21
  | .writeFile => 22
  | .closeFile => 23
  | .seekFile => 24
  | .tellFile => 25
  | .bank => 26

theorem vector_of_serviceOf {v : BitVec 8} {w : Service} (h : serviceOf v = some w) : v = w.vector := by
  have hall : ∀ v, (serviceOf v).all (fun w => v == w.vector) = true := by decide
  simpa [h] using hall v

/-- What no `TRAP` changes of the control state, and the services that change the rest. -/
theorem execTrap_control {v : BitVec 8} {s t : State} (h : execTrap v s = .next t) :
    t.halted = s.halted ∧ (t.memBank ≠ s.memBank → v = 26) ∧
      ((∃ j, (t.files.file j).isSome ≠ (s.files.file j).isSome) → v = 20 ∨ v = 23) ∧
      (t.files ≠ s.files → 20 ≤ v.toNat ∧ v.toNat ≤ 24) ∧
      t.breakpoints = s.breakpoints ∧ t.breakHit = s.breakHit ∧ t.breakAddr = s.breakAddr ∧
      t.watch = s.watch ∧ t.pc0 = s.pc0 := by
  obtain ⟨-, rfl⟩ | ⟨w, hw, hframe, -, -, -, hbank, hvalid, hfiles⟩ := execTrap_cases h
  · simp
  · cases vector_of_serviceOf hw
    refine ⟨hframe.halted, fun hne => ?_, fun ⟨j, hj⟩ => ?_, fun hne => ?_, hframe.breakpoints,
      hframe.breakHit, hframe.breakAddr, hframe.watch, hframe.pc0⟩
    · rw [not_imp_comm.mp hbank hne]
      rfl
    · by_contra hv
      rw [not_or] at hv
      refine hj (hvalid ?_ ?_ j)
      · rintro rfl
        exact hv.1 rfl
      · rintro rfl
        exact hv.2 rfl
    · have hmem := not_imp_comm.mp hfiles hne
      simp only [List.mem_cons, List.not_mem_nil, or_false] at hmem
      rcases hmem with rfl | rfl | rfl | rfl | rfl <;> decide

/-- Settles O54: `TRAP` by `execTrap_control`, `HALT` by what it is, the others by `exec_onlyCpu`. -/
theorem controlStateHasItsOnlyWriters : Obligations.ControlStateHasItsOnlyWriters := by
  intro i s t h
  by_cases htrap : ∃ v, i = .trap v
  · obtain ⟨v, rfl⟩ := htrap
    obtain ⟨hhalted, hbank, hvalid, hfiles, hdebug⟩ := execTrap_control h
    refine ⟨fun hne => absurd hhalted hne, fun hne => by rw [hbank hne], fun hne => ?_, fun hne => ?_,
      hdebug⟩
    · exact (hvalid hne).imp (congrArg Instr.trap) (congrArg Instr.trap)
    · exact ⟨v, rfl, hfiles hne⟩
  by_cases hhalt : i = .halt
  · subst hhalt
    cases h
    simp
  · obtain ⟨honly, -⟩ := exec_onlyCpu h (fun v hv => htrap ⟨v, hv⟩) hhalt
    have hbreakHit : t.breakHit = s.breakHit := by rw [honly]
    have hbreakAddr : t.breakAddr = s.breakAddr := by rw [honly]
    refine ⟨fun hne => absurd honly.halted hne, fun hne => absurd honly.memBank hne, fun ⟨j, hj⟩ => ?_,
      fun hne => absurd honly.files hne, honly.breakpoints, hbreakHit, hbreakAddr, honly.watch, honly.pc0⟩
    exact absurd (by rw [honly.files]) hj

end Sys2Proof.Machine
end

section
/-! SUPPORT. What the instructions of `41_double_operand.md` and `42_single_operand.md` change: one frame per
instruction, and O16, O25, O33 and O34, assembled from them. -/

namespace Sys2Proof.Machine

/-! ## Resolving a second operand -/

theorem resolved2_word_regs (ss dd : Spec) (s : State) (n : Reg) (hn : n ∉ [ss, dd].flatMap Spec.updates) :
    (resolved2 .word ss dd s).reg n = s.reg n :=
  (operandWord_reg dd _ n).symm.trans (operandsWord_regs ss dd s n hn)

theorem resolved2_byte_regs (ss dd : Spec) (s : State) (n : Reg) (hn : n ∉ [ss, dd].flatMap Spec.updates) :
    (resolved2 .byte ss dd s).reg n = s.reg n :=
  (operandByte_reg dd _ n).symm.trans (operandsByte_regs ss dd s n hn)

theorem resolved2_word_pc (ss dd : Spec) (s : State) :
    (resolved2 .word ss dd s).reg .r7 = s.reg .r7 + ss.pcShift + dd.pcShift := by
  rw [resolved2, resolve_pc, operandWord_pc]

theorem resolved2_byte_pc (ss dd : Spec) (s : State) :
    (resolved2 .byte ss dd s).reg .r7 = s.reg .r7 + ss.pcShift + dd.pcShift := by
  rw [resolved2, resolve_pc, operandByte_pc]

/-! ## The instructions that do not read their destination (decision D22) -/

theorem execMov_frame (ss dd : Spec) (s : State) :
    ∃ t, execMov ss dd s = .next t ∧
      StoreFrame [ss, dd] (destination2 .word ss dd s) .word (resolved2 .word ss dd s) s t :=
  ⟨_, rfl, storeFrame_word _ _ _ ((operandWord_onlyCpu ss s).trans (resolve_onlyCpu dd .word _)) (by simp)
    (fun _ => rfl) (resolved2_word_regs ss dd s)⟩

theorem execMovb_frame (ss dd : Spec) (s : State) :
    ∃ t, execMovb ss dd s = .next t ∧
      StoreFrame [ss, dd] (destination2 .byte ss dd s) .byte (resolved2 .byte ss dd s) s t :=
  ⟨_, rfl, storeFrame_sext _ _ _ ((operandByte_onlyCpu ss s).trans (resolve_onlyCpu dd .byte _)) (by simp)
    (fun _ => rfl) (resolved2_byte_regs ss dd s)⟩

theorem execClr_frame (dd : Spec) (s : State) :
    ∃ t, execClr dd s = .next t ∧
      StoreFrame [dd] (resolve dd .word s).1 .word (resolve dd .word s).2 s t :=
  ⟨_, rfl, storeFrame_word _ _ _ (resolve_onlyCpu dd .word s) (by simp) (fun _ => rfl)
    fun n hn => resolve_regs dd .word s n (by simpa using hn)⟩

theorem execClrb_frame (dd : Spec) (s : State) :
    ∃ t, execClrb dd s = .next t ∧
      StoreFrame [dd] (resolve dd .byte s).1 .byte (resolve dd .byte s).2 s t :=
  ⟨_, rfl, storeFrame_byte _ _ _ (resolve_onlyCpu dd .byte s) (by simp) (fun _ => rfl)
    fun n hn => resolve_regs dd .byte s n (by simpa using hn)⟩

/-! ## The instructions that test one operand -/

theorem execTst_frame (dd : Spec) (s : State) : ∃ t, execTst dd s = .next t ∧ NoStoreFrame [dd] s t :=
  ⟨_, rfl, fun n hn => operandWord_regs dd s n (by simpa using hn), memSameOutside_of_eq (by simp),
    (operandWord_onlyCpu dd s).trans rfl⟩

theorem execTstb_frame (dd : Spec) (s : State) : ∃ t, execTstb dd s = .next t ∧ NoStoreFrame [dd] s t :=
  ⟨_, rfl, fun n hn => operandByte_regs dd s n (by simpa using hn), memSameOutside_of_eq (by simp),
    (operandByte_onlyCpu dd s).trans rfl⟩

/-! ## The frames as obligations -/

/-- Settles O25: `MOV` and `MOVB` by their own frames, the others by their common sequence. -/
theorem doubleOperandStoresAreFramed : Obligations.DoubleOperandStoresAreFramed := by
  intro ss dd s
  simp only [List.forall_mem_cons, List.not_mem_nil, false_imp_iff, implies_true, and_true]
  exact ⟨⟨execMov_frame ss dd s, ⟨_, rfl, modifyWord2_frame ss dd _ _ s⟩,
      ⟨_, rfl, modifyWord2_frame ss dd _ _ s⟩, ⟨_, rfl, modifyWord2_frame ss dd _ _ s⟩,
      ⟨_, rfl, modifyWord2_frame ss dd _ _ s⟩⟩,
    execMovb_frame ss dd s, ⟨_, rfl, modifyByte2_frame ss dd _ _ s⟩,
    ⟨_, rfl, modifyByte2_frame ss dd _ _ s⟩⟩

/-- Settles O33: `CLR` and `CLRB` by their own frames, the others by their common sequence. -/
theorem singleOperandStoresAreFramed : Obligations.SingleOperandStoresAreFramed := by
  intro dd s
  simp only [List.forall_mem_cons, List.not_mem_nil, false_imp_iff, implies_true, and_true]
  exact ⟨⟨execClr_frame dd s, ⟨_, rfl, modifyWord1_frame dd _ _ s⟩, ⟨_, rfl, modifyWord1_frame dd _ _ s⟩,
      ⟨_, rfl, modifyWord1_frame dd _ _ s⟩, ⟨_, rfl, modifyWord1_frame dd _ _ s⟩,
      ⟨_, rfl, modifyWord1_frame dd _ _ s⟩, ⟨_, rfl, modifyWord1_frame dd _ _ s⟩⟩,
    execClrb_frame dd s, ⟨_, rfl, modifyByte1_frame dd _ _ s⟩, ⟨_, rfl, modifyByte1_frame dd _ _ s⟩⟩

/-- Settles O34: the two-operand tests by their common sequence, `TST` and `TSTB` by their own frames. -/
theorem testsStoreNothing : Obligations.TestsStoreNothing := by
  intro ss dd s
  simp only [List.forall_mem_cons, List.not_mem_nil, false_imp_iff, implies_true, and_true]
  exact ⟨⟨⟨_, rfl, testWord2_frame ss dd _ s⟩, ⟨_, rfl, testWord2_frame ss dd _ s⟩,
      ⟨_, rfl, testByte2_frame ss dd _ s⟩, ⟨_, rfl, testByte2_frame ss dd _ s⟩⟩,
    execTst_frame dd s, execTstb_frame dd s⟩

/-! ## The instructions of files 41 and 42 as two kinds -/

/-- The program counter that an instruction's specs leave (rule R51). -/
def pcAfterSpecs (i : Instr) (s : State) : Word :=
  s.reg .r7 + ((aluSpecs i).map Spec.pcShift).foldl (· + ·) 0

/-- An instruction that writes a spec completes with a store through that spec's target, resolved in a
state after which the program counter has passed the words consumed. -/
def StoresThrough (i : Instr) (dd : Spec) (s : State) : Prop :=
  ∃ z u t, exec i s = .next t ∧
    StoreFrame (aluSpecs i) (resolve dd z u).1 z (resolve dd z u).2 s t ∧
    (resolve dd z u).2.reg .r7 = pcAfterSpecs i s

/-- An instruction of files 41 and 42 that writes no spec completes with its operands' registers. -/
def StoresNothing (i : Instr) (s : State) : Prop :=
  ∃ t, exec i s = .next t ∧ NoStoreFrame (aluSpecs i) s t ∧ t.reg .r7 = pcAfterSpecs i s

section Kinds

variable {i : Instr} {ss dd : Spec} {s : State}

theorem pcAfterSpecs_two (h : aluSpecs i = [ss, dd]) :
    pcAfterSpecs i s = s.reg .r7 + ss.pcShift + dd.pcShift := by
  simp [pcAfterSpecs, h, BitVec.add_assoc]

theorem pcAfterSpecs_one (h : aluSpecs i = [dd]) : pcAfterSpecs i s = s.reg .r7 + dd.pcShift := by
  simp [pcAfterSpecs, h]

theorem storesThrough_word2 (ha : aluSpecs i = [ss, dd])
    (h : ∃ t, exec i s = .next t ∧
      StoreFrame [ss, dd] (destination2 .word ss dd s) .word (resolved2 .word ss dd s) s t) :
    StoresThrough i dd s := by
  obtain ⟨t, ht, hframe⟩ := h
  exact ⟨.word, (operandWord ss s).2.2, t, ht, ha ▸ hframe,
    (resolved2_word_pc ss dd s).trans (pcAfterSpecs_two ha).symm⟩

theorem storesThrough_byte2 (ha : aluSpecs i = [ss, dd])
    (h : ∃ t, exec i s = .next t ∧
      StoreFrame [ss, dd] (destination2 .byte ss dd s) .byte (resolved2 .byte ss dd s) s t) :
    StoresThrough i dd s := by
  obtain ⟨t, ht, hframe⟩ := h
  exact ⟨.byte, (operandByte ss s).2.2, t, ht, ha ▸ hframe,
    (resolved2_byte_pc ss dd s).trans (pcAfterSpecs_two ha).symm⟩

theorem storesThrough_one {z : Size} (ha : aluSpecs i = [dd])
    (h : ∃ t, exec i s = .next t ∧ StoreFrame [dd] (resolve dd z s).1 z (resolve dd z s).2 s t) :
    StoresThrough i dd s := by
  obtain ⟨t, ht, hframe⟩ := h
  exact ⟨z, s, t, ht, ha ▸ hframe, (resolve_pc dd z s).trans (pcAfterSpecs_one ha).symm⟩

theorem exec_storesThrough (h : writtenSpec i = some dd) : StoresThrough i dd s := by
  cases i
  case mov a d | bic a d | bis a d | add a d | sub a d =>
    cases h
    exact storesThrough_word2 rfl ((doubleOperandStoresAreFramed a dd s).1 _ (by simp))
  case movb a d | bicb a d | bisb a d =>
    cases h
    exact storesThrough_byte2 rfl ((doubleOperandStoresAreFramed a dd s).2 _ (by simp))
  case clr d | inc d | dec d | ror d | rol d | asr d | asl d =>
    cases h
    exact storesThrough_one rfl ((singleOperandStoresAreFramed dd s).1 _ (by simp))
  case clrb d | incb d | decb d =>
    cases h
    exact storesThrough_one rfl ((singleOperandStoresAreFramed dd s).2 _ (by simp))
  all_goals cases h

theorem exec_storesNothing (h : writtenSpec i = none) (ha : aluSpecs i ≠ []) : StoresNothing i s := by
  cases i
  case cmp a d | bit a d =>
    refine ⟨_, rfl, testWord2_frame a d _ s, ?_⟩
    rw [pcAfterSpecs_two rfl, ← operandWord_pc, ← operandWord_pc]
    rfl
  case cmpb a d | bitb a d =>
    refine ⟨_, rfl, testByte2_frame a d _ s, ?_⟩
    rw [pcAfterSpecs_two rfl, ← operandByte_pc, ← operandByte_pc]
    rfl
  case tst d =>
    obtain ⟨t, ht, hframe⟩ := execTst_frame d s
    cases ht
    exact ⟨_, rfl, hframe, (operandWord_pc d s).trans (pcAfterSpecs_one rfl).symm⟩
  case tstb d =>
    obtain ⟨t, ht, hframe⟩ := execTstb_frame d s
    cases ht
    exact ⟨_, rfl, hframe, (operandByte_pc d s).trans (pcAfterSpecs_one rfl).symm⟩
  case br | bne | beq | jmp | jsr | rts | halt | trap => exact absurd rfl ha
  all_goals cases h

/-- Only a mode 0 spec has r[7] itself for its target. -/
theorem r7_not_target {z : Size} (h : dd ≠ ⟨.register, .r7⟩) :
    Reg.r7 ∉ (resolve dd z s).1.registers := by
  cases hd : dd.hasAddress with
  | true =>
    obtain ⟨v, a, ha⟩ := resolve_hasAddress hd z s
    simp [ha, Target.registers]
  | false =>
    rw [resolve_noAddress hd]
    intro hmem
    rw [Target.registers, List.mem_singleton] at hmem
    exact h ((Spec.eq_register hd).trans (by rw [← hmem]))

end Kinds

/-- Settles O16: a store leaves r[7] as resolving the specs did unless its target is r[7]. -/
theorem programCounterEndsAfterTheWordsConsumed : Obligations.ProgramCounterEndsAfterTheWordsConsumed := by
  intro i s ha hw
  cases hd : writtenSpec i with
  | none =>
    obtain ⟨t, ht, -, hpc⟩ := exec_storesNothing hd ha
    exact ⟨t, ht, hpc⟩
  | some dd =>
    obtain ⟨z, u, t, ht, ⟨hregs, -⟩, hpc⟩ := exec_storesThrough (s := s) hd
    have hne : dd ≠ ⟨.register, .r7⟩ := fun h => hw (hd.trans (by rw [h]))
    exact ⟨t, ht, (hregs .r7 (r7_not_target hne)).trans hpc⟩

end Sys2Proof.Machine
end

section
/-! SUPPORT. The results and flags of the double- and single-operand instructions: `MOV` and `MOVB`, the
byte instructions, subtraction, decrement, clear and the arithmetic shifts; O17, O18, O22 to O24, O26, O28,
O30 and O32, assembled from them. -/

namespace Sys2Proof.Machine

/-! ## Flags of a result, by width -/

/-- N is bit 7 of a byte result. -/
theorem resultFlags_byte (res : Byte) (v c : Bool) :
    resultFlags res v c = ⟨res.getLsbD 7, res == 0, v, c⟩ := by
  rw [resultFlags, BitVec.msb_eq_getLsbD_last]

theorem logicFlags_byte (res : Byte) : logicFlags res = ⟨res.getLsbD 7, res == 0, false, false⟩ :=
  resultFlags_byte res false false

theorem subFlags_byte (s d : Byte) :
    subFlags s d = ⟨(d - s).getLsbD 7, d - s == 0, ((d ^^^ s) &&& (d ^^^ (d - s))).getLsbD 7,
      decide (d.toNat < s.toNat)⟩ := by
  rw [subFlags, resultFlags_byte, BitVec.msb_eq_getLsbD_last]
  rfl

/-! ## Overflow of subtraction, increment and decrement (rule R113) -/

section Overflow

variable {w : Nat} (s d : BitVec w)

/-- Unlike signs and a result of the source's sign: the library's signed overflow of a difference. -/
theorem subFlags_v_eq_ssubOverflow : (subFlags s d).v = d.ssubOverflow s := by
  rw [BitVec.ssubOverflow_eq]
  by_cases hw : 0 < w
  · simp only [subFlags, resultFlags, subResult, BitVec.msb_and, BitVec.msb_xor]
    cases s.msb <;> cases d.msb <;> cases (d - s).msb <;> rfl
  · obtain rfl : w = 0 := by omega
    simp [subFlags, resultFlags, BitVec.of_length_zero]

theorem subFlags_v :
    (subFlags s d).v = true ↔
      d.toInt - s.toInt < -2 ^ (w - 1) ∨ 2 ^ (w - 1) ≤ d.toInt - s.toInt := by
  simp [subFlags_v_eq_ssubOverflow, BitVec.ssubOverflow, or_comm]

theorem subFlags_c : (subFlags s d).c = true ↔ d.toNat < s.toNat := by
  simp [subFlags, resultFlags, BitVec.ult]

theorem subResult_toNat :
    ((subResult s d).toNat : Int) = (d.toNat - s.toNat : Int) % (2 ^ w : Nat) := by
  have hwrap : ((2 ^ w : Nat) : Int) - s.toNat + d.toNat = d.toNat - s.toNat + (2 ^ w : Nat) := by ring
  rw [subResult, BitVec.toNat_sub, Int.natCast_emod, Int.natCast_add, Int.ofNat_sub (Nat.le_of_lt s.isLt),
    hwrap, Int.add_emod_right]

theorem maxSigned_eq_intMax : maxSigned w = BitVec.intMax w := by
  have hlt : 2 ^ (w - 1) - 1 < 2 ^ w :=
    Nat.lt_of_lt_of_le (Nat.sub_lt (Nat.two_pow_pos _) Nat.one_pos)
      (Nat.pow_le_pow_right Nat.two_pos (Nat.sub_le w 1))
  apply BitVec.eq_of_toNat_eq
  rw [maxSigned, BitVec.toNat_ofNat, BitVec.toNat_intMax, Nat.mod_eq_of_lt hlt]

theorem minSigned_eq_intMin : minSigned w = BitVec.intMin w := by
  apply BitVec.eq_of_toNat_eq
  rw [minSigned, BitVec.toNat_ofNat, BitVec.toNat_intMin]

/-- An increment overflows exactly at the largest signed number. -/
theorem incFlags_v (old : Flags) : (incFlags d old).v = true ↔ 2 ^ (w - 1) ≤ d.toInt + 1 := by
  have hlt := BitVec.toInt_lt (x := d)
  rw [show (incFlags d old).v = (d == maxSigned w) from rfl, beq_iff_eq, maxSigned_eq_intMax,
    ← BitVec.toInt_inj, BitVec.toInt_intMax]
  omega

/-- A decrement overflows exactly at the smallest signed number. -/
theorem decFlags_v (hw : 0 < w) (old : Flags) : (decFlags d old).v = true ↔ d.toInt - 1 < -2 ^ (w - 1) := by
  have hle := BitVec.le_toInt d
  rw [show (decFlags d old).v = (d == minSigned w) from rfl, beq_iff_eq, minSigned_eq_intMin,
    ← BitVec.toInt_inj, BitVec.toInt_intMin_of_pos hw]
  omega

end Overflow

/-- Settles O24: the laws of subtraction, increment and decrement at widths 16 and 8. -/
theorem overflowMeansTheIntegerResultDoesNotFit :
    Obligations.OverflowMeansTheIntegerResultDoesNotFit := by
  refine ⟨fun s d => ⟨?_, subFlags_c s d, subResult_toNat s d⟩,
    fun s d => ⟨?_, subFlags_c s d, subResult_toNat s d⟩,
    fun d f => ⟨?_, ?_, rfl, rfl⟩, fun d f => ⟨?_, ?_, rfl, rfl⟩⟩
  · exact (subFlags_v s d).trans (by omega)
  · exact (subFlags_v s d).trans (by omega)
  · exact (incFlags_v d f).trans (by omega)
  · exact (decFlags_v d (by decide) f).trans (by omega)
  · exact (incFlags_v d f).trans (by omega)
  · exact (decFlags_v d (by decide) f).trans (by omega)

/-! ## The flags of a decrement and of a tested byte (rules R123, R130 to R132) -/

section Decrement

variable {w : Nat} (d : BitVec w)

theorem decResult_toNat : (decResult d).toNat = (d.toNat + (2 ^ w - 1)) % 2 ^ w := by
  have hadd : decResult d = d + BitVec.allOnes w := by
    rw [← BitVec.neg_one_eq_allOnes]
    exact sub_eq_add_neg d 1
  rw [hadd, BitVec.toNat_add, BitVec.toNat_allOnes]

/-- The result of a decrement is negative for 0, which wraps, and from the smallest signed operand on,
except for that operand itself. -/
theorem decResult_msb (hw : 0 < w) :
    (decResult d).msb = decide (d.toNat = 0 ∨ 2 ^ (w - 1) < d.toNat) := by
  have hhalf : 2 ^ (w - 1) * 2 = 2 ^ w := Nat.two_pow_pred_mul_two hw
  have hpos : 0 < 2 ^ (w - 1) := Nat.two_pow_pos _
  have hd : d.toNat < 2 ^ w := d.isLt
  rw [BitVec.msb_eq_decide, decide_eq_decide, decResult_toNat]
  by_cases hzero : d.toNat = 0
  · rw [hzero, Nat.zero_add, Nat.mod_eq_of_lt (by omega)]
    omega
  · rw [show d.toNat + (2 ^ w - 1) = d.toNat - 1 + 2 ^ w by omega, Nat.add_mod_right,
      Nat.mod_eq_of_lt (by omega)]
    omega

theorem decResult_beq_zero : (decResult d == 0) = (d == 1) := by
  rw [Bool.eq_iff_iff, beq_iff_eq, beq_iff_eq, decResult]
  exact sub_eq_zero

end Decrement

theorem decFlags_word (d : Word) (old : Flags) :
    decFlags d old = ⟨decide (d.toNat = 0 ∨ 0x8000 < d.toNat), d == 1, d == 0x8000, old.c⟩ := by
  rw [decFlags, resultFlags, decResult_msb d (by decide), decResult_beq_zero]
  rfl

theorem decFlags_byte (d : Byte) (old : Flags) :
    decFlags d old = ⟨decide (d.toNat = 0 ∨ 0x80 < d.toNat), d == 1, d == 0x80, old.c⟩ := by
  rw [decFlags, resultFlags, decResult_msb d (by decide), decResult_beq_zero]
  rfl

theorem incFlags_byte (d : Byte) (old : Flags) :
    incFlags d old = ⟨decide (0x7F ≤ d.toNat ∧ d.toNat < 0xFF), d == 0xFF, d == 0x7F, old.c⟩ := by
  rw [incFlags, resultFlags, incResult_msb d (by decide), incResult_beq_zero]
  rfl

theorem byte_sign_eq_decide (d : Byte) : d.getLsbD 7 = decide (0x80 ≤ d.toNat) :=
  (BitVec.msb_eq_getLsbD_last d).symm.trans (BitVec.msb_eq_decide d)

/-! ## What a byte sequence leaves (rules R92, R100, R120) -/

/-- The high byte of a word, in its place. -/
theorem joinBytes_and_high (b : Byte) (w : Word) : joinBytes b (highByte w) &&& 0xFF00 = w &&& 0xFF00 := by
  refine BitVec.eq_of_getLsbD_eq fun k hk => ?_
  rw [show (0xFF00 : Word) = BitVec.allOnes 16 <<< 8 from rfl, joinBytes, highByte]
  simp only [BitVec.getLsbD_and, BitVec.getLsbD_append, BitVec.getLsbD_extractLsb', BitVec.getLsbD_shiftLeft]
  by_cases h : k < 8
  · simp [h]
  · simp [h, Nat.add_sub_cancel' (Nat.le_of_not_lt h), show k - 8 < 8 by omega]

theorem joinBytes_zero_high (w : Word) : joinBytes 0 (highByte w) = w &&& 0xFF00 := by
  apply BitVec.eq_of_toNat_eq
  rw [show (0xFF00 : Word) = BitVec.allOnes 16 <<< 8 from rfl, and_highMask_toNat, joinBytes,
    BitVec.toNat_append, highByte, BitVec.extractLsb'_toNat]
  simp [Nat.shiftLeft_eq, Nat.shiftRight_eq_div_pow]
  omega

/-- The byte of a register operand is its low one (decision D2). -/
theorem operandByte_reg_value {sp : Spec} {s : State} {n : Reg} (h : (operandByte sp s).1 = .reg n) :
    (operandByte sp s).2.1 = ((operandByte sp s).2.2.reg n).extractLsb' 0 8 := by
  have hr : (resolve sp .byte s).1 = .reg n := h
  simp only [operandByte, hr]
  rfl

/-- A byte stored in a register leaves its high byte. -/
theorem writeTargetByte_reg_high {t : Target} {n : Reg} (h : t = .reg n) (b : Byte) (s : State) :
    (writeTargetByte t b s).reg n &&& 0xFF00 = s.reg n &&& 0xFF00 := by
  subst h
  rw [writeTargetByte, setReg_reg_same, joinBytes_and_high]

section ByteSequences

variable (ss dd : Spec) (s : State)

theorem testByte2_flags (fl : Byte → Byte → Flags) :
    (testByte2 ss dd fl s).flags =
      fl (operandByte ss s).2.1 (operandByte dd (operandByte ss s).2.2).2.1 := rfl

theorem testByte2_regs (fl : Byte → Byte → Flags) :
    (testByte2 ss dd fl s).regs = (operandByte dd (operandByte ss s).2.2).2.2.regs := rfl

theorem testByte2_mem (fl : Byte → Byte → Flags) : (testByte2 ss dd fl s).mem = s.mem := by
  simp [testByte2]

theorem modifyByte2_flags (f : Byte → Byte → Byte) (fl : Byte → Byte → Flags) :
    (modifyByte2 ss dd f fl s).flags =
      fl (operandByte ss s).2.1 (operandByte dd (operandByte ss s).2.2).2.1 := rfl

theorem modifyByte2_high (f : Byte → Byte → Byte) (fl : Byte → Byte → Flags) (n : Reg)
    (h : (operandByte dd (operandByte ss s).2.2).1 = .reg n) :
    (modifyByte2 ss dd f fl s).reg n &&& 0xFF00 =
      (operandByte dd (operandByte ss s).2.2).2.2.reg n &&& 0xFF00 :=
  writeTargetByte_reg_high h _ _

theorem modifyByte1_flags (f : Byte → Byte) (fl : Byte → Flags) :
    (modifyByte1 dd f fl s).flags = fl (operandByte dd s).2.1 := rfl

theorem modifyByte1_high (f : Byte → Byte) (fl : Byte → Flags) (n : Reg)
    (h : (operandByte dd s).1 = .reg n) :
    (modifyByte1 dd f fl s).reg n &&& 0xFF00 = (operandByte dd s).2.2.reg n &&& 0xFF00 :=
  writeTargetByte_reg_high h _ _

end ByteSequences

/-! ## The arithmetic shifts (rules R127, R128) -/

/-- Keeping the sign bit and shifting the others down is the library's signed shift. -/
theorem asrResult_eq_sshiftRight (d : Word) : asrResult d = d.sshiftRight 1 := by
  refine BitVec.eq_of_getLsbD_eq fun k hk => ?_
  rw [show asrResult d = d &&& BitVec.twoPow 16 15 ||| d >>> 1 from rfl, BitVec.getLsbD_sshiftRight,
    BitVec.msb_eq_getLsbD_last]
  simp only [BitVec.getLsbD_or, BitVec.getLsbD_and, BitVec.getLsbD_twoPow, BitVec.getLsbD_ushiftRight]
  by_cases h : k = 15
  · subst h
    simp
  · simp [Ne.symm h, show 1 + k < 16 by omega, show ¬ 16 ≤ k by omega]

theorem asrResult_toInt (d : Word) : (asrResult d).toInt = d.toInt / 2 := by
  rw [asrResult_eq_sshiftRight, BitVec.toInt_sshiftRight, Int.shiftRight_eq_div_pow]
  rfl

theorem aslResult_toNat (d : Word) : (aslResult d).toNat = 2 * d.toNat % 0x10000 := by
  rw [aslResult, BitVec.toNat_shiftLeft, Nat.shiftLeft_eq, Nat.mul_comm]

/-- The sign of a doubled word is the bit below the sign. -/
theorem aslResult_getLsbD_sign (d : Word) : (aslResult d).getLsbD 15 = d.getLsbD 14 := by
  simp [aslResult]

theorem word_beq_zero_eq_decide (d : Word) : (d == 0) = decide (d.toNat = 0) := by
  rw [Bool.eq_iff_iff, beq_iff_eq, decide_eq_true_eq, ← BitVec.toNat_inj]
  rfl

theorem asrResult_getLsbD_sign (d : Word) : (asrResult d).getLsbD 15 = d.getLsbD 15 := by
  have hmsb : (asrResult d).msb = d.msb := by rw [asrResult_eq_sshiftRight, BitVec.msb_sshiftRight]
  rwa [BitVec.msb_eq_getLsbD_last, BitVec.msb_eq_getLsbD_last] at hmsb

/-- The shifted word is 0 for 0 and 1 only. -/
theorem asrResult_beq_zero (d : Word) : (asrResult d == 0) = decide (d.toNat < 2) := by
  have hd := BitVec.toInt_eq_toNat_cond d
  rw [Bool.eq_iff_iff, beq_iff_eq, decide_eq_true_eq, ← BitVec.toInt_inj, asrResult_toInt,
    show (0 : Word).toInt = 0 from rfl]
  have := d.isLt
  split at hd <;> omega

/-- Doubling overflows exactly when the sign and the bit below it differ. -/
theorem double_overflow_iff (d : Word) :
    (d.getLsbD 14 ^^ d.getLsbD 15) = true ↔ 2 * d.toInt < -32768 ∨ 32767 < 2 * d.toInt := by
  have hd := BitVec.toInt_eq_toNat_cond d
  have := d.isLt
  rw [← aslResult_getLsbD_sign, word_sign_eq_decide, word_sign_eq_decide, aslResult_toNat, Bool.xor_iff_ne,
    ne_eq, decide_eq_decide]
  split at hd <;> omega

/-! ## The obligations -/

/-- Settles O18: what is written is read back, and the flags are `movFlags` of it. -/
theorem movMovesTheSourceWord : Obligations.MovMovesTheSourceWord := by
  intro ss dd st s
  refine ⟨decodeWord_encodeWord (.mov ss dd), _, rfl, ?_, resultFlags_word s false st.flags.c⟩
  rw [readTargetWord_setFlags]
  exact readTargetWord_write _ _ _

/-- Settles O17, event by event: what each spec reads, steps and addresses. -/
theorem oneRegisterUsedTwice : Obligations.OneRegisterUsedTwice := by
  intro n s h6 h7 r
  have hview : viewOf n = .data := by rw [viewOf_eq_ite, if_neg h7]
  have hstep : r + 2 + 2 = r + 4 := BitVec.add_assoc r 2 2
  refine ⟨⟨_, rfl, ?_, ?_⟩, ⟨_, rfl, ?_, ?_⟩, ⟨_, rfl, ?_⟩, ⟨_, rfl, ?_⟩, ⟨_, rfl, ?_, ?_⟩,
    ⟨_, rfl, ?_⟩⟩
  · simp [operandWord, resolve, resolveAutoInc, readTargetWord, writeTargetWord, hview,
      Memory.readWord_writeWord_same, r]
  · simp [operandWord, resolve, resolveAutoInc, readTargetWord, writeTargetWord, delta, r]
  · simp [operandWord, resolve, resolveAutoDec, readTargetWord, writeTargetWord, delta,
      Memory.readWord_writeWord_same, r]
  · simp [operandWord, resolve, resolveAutoDec, readTargetWord, writeTargetWord, delta, r]
  · simp [operandWord, resolve, resolveAutoInc, readTargetWord, writeTargetWord, hview, r]
  · simp [operandWord, resolve, resolveAutoInc, readTargetWord, writeTargetWord, modifyWord2, addResult,
      hview, delta, r]
  · simp [operandWord, resolve, resolveAutoInc, readTargetWord, writeTargetWord, hview, delta,
      Memory.readWord_writeWord_same, r]
  · simpa [operandWord, resolve, resolveAutoInc, readTargetWord, writeTargetWord, delta] using hstep
  · simp [operandWord, resolve, readTargetWord, writeTargetWord, modifyWord2, addResult, r]

/-- The sign extension of a byte, as a case on its sign bit (rule R9). -/
theorem sext8_eq_ite (b : Byte) :
    sext8 b = if b.getLsbD 7 then 0xFF00 ||| b.setWidth 16 else b.setWidth 16 := by
  revert b
  decide

/-- Settles O22: a register by `sext8_eq_ite`, a byte of memory by reading back what was written. -/
theorem movbSignExtendsIntoARegister : Obligations.MovbSignExtendsIntoARegister := by
  intro ss dd st s
  refine ⟨decodeWord_encodeWord (.movb ss dd), _, rfl, resultFlags_byte s false st.flags.c, ?_⟩
  rw [destination2]
  cases (resolve dd .byte (operandByte ss st).2.2).1 with
  | reg n => exact (setReg_reg_same _ n _).trans (sext8_eq_ite s)
  | mem v a => simp [writeTargetSext, Memory.readByte_writeByte, s]

/-- Settles O23: `subFlags` or `logicFlags` of the two bytes, and the target by the common sequences. -/
theorem byteCompareAndLogicUseOneByte : Obligations.ByteCompareAndLogicUseOneByte := by
  intro ss dd st a b s d
  refine ⟨decodeWord_encodeWord (.cmpb ss dd), decodeWord_encodeWord (.bitb ss dd),
    decodeWord_encodeWord (.bicb ss dd), decodeWord_encodeWord (.bisb ss dd),
    fun n hn => operandByte_reg_value hn, ⟨_, rfl, ?_⟩, ⟨_, rfl, ?_⟩, ⟨_, rfl, ?_⟩, ⟨_, rfl, ?_⟩⟩
  · exact ⟨testByte2_regs ss dd st _, testByte2_mem ss dd st _, subFlags_byte s d⟩
  · exact ⟨testByte2_regs ss dd st _, testByte2_mem ss dd st _, logicFlags_byte (s &&& d)⟩
  · exact ⟨modifyByte2_result ss dd bicResult _ st, logicFlags_byte (bicResult s d),
      modifyByte2_high ss dd st _ _⟩
  · exact ⟨modifyByte2_result ss dd bisResult _ st, logicFlags_byte (bisResult s d),
      modifyByte2_high ss dd st _ _⟩

/-- Settles O26: 0 is written and read back; a register keeps its high byte above it. -/
theorem clearWritesZero : Obligations.ClearWritesZero := by
  intro dd s
  refine ⟨decodeWord_encodeWord (.clr dd), decodeWord_encodeWord (.clrb dd), ⟨_, rfl, ?_, rfl⟩,
    ⟨_, rfl, ?_, rfl, fun hm => ?_⟩⟩
  · rw [readTargetWord_setFlags]
    exact readTargetWord_write _ _ _
  · rw [readTargetByte_setFlags]
    exact readTargetByte_write _ _ _
  · have hd : dd.hasAddress = false := by rw [Spec.hasAddress, hm]
    rw [resolve_noAddress hd]
    exact (setReg_reg_same s dd.reg _).trans (joinBytes_zero_high _)

/-- Settles O28: the flags are `decFlags` of the operand, written out by `decFlags_word`. -/
theorem decrementLeavesCarry : Obligations.DecrementLeavesCarry := by
  intro dd s b
  refine ⟨decodeWord_encodeWord (.dec dd), _, rfl, ?_, ?_⟩
  · exact (congrArg BitVec.toNat (modifyWord1_result dd decResult _ s)).trans (decResult_toNat b.2.1)
  · exact (modifyWord1_flags dd _ _ s).trans (decFlags_word b.2.1 s.flags)

/-- Settles O30: the byte forms of O27 to O29. -/
theorem byteCountsAndTestKeepTheHighByte : Obligations.ByteCountsAndTestKeepTheHighByte := by
  intro dd s b
  refine ⟨decodeWord_encodeWord (.incb dd), decodeWord_encodeWord (.decb dd),
    decodeWord_encodeWord (.tstb dd), fun n hn => operandByte_reg_value hn, ⟨_, rfl, ?_⟩, ⟨_, rfl, ?_⟩,
    ⟨_, rfl, setFlags_regs _ _, operandByte_mem dd s, ?_⟩⟩
  · exact ⟨(congrArg BitVec.toNat (modifyByte1_result dd incResult _ s)).trans (incResult_toNat b.2.1),
      modifyByte1_high dd s _ _, incFlags_byte b.2.1 s.flags⟩
  · exact ⟨(congrArg BitVec.toNat (modifyByte1_result dd decResult _ s)).trans (decResult_toNat b.2.1),
      modifyByte1_high dd s _ _, decFlags_byte b.2.1 s.flags⟩
  · rw [← byte_sign_eq_decide]
    exact logicFlags_byte b.2.1

/-- Settles O32: the flags are `shiftFlags` of the shifted word. -/
theorem shiftsHalveAndDouble : Obligations.ShiftsHalveAndDouble := by
  intro dd s b d
  have hasr : (modifyWord1 dd asrResult (fun d => shiftFlags (asrResult d) (d.getLsbD 0)) s).flags =
      ⟨d.getLsbD 15, decide (d.toNat < 2), d.getLsbD 15 ^^ d.getLsbD 0, d.getLsbD 0⟩ := by
    rw [modifyWord1_flags, shiftFlags_word, asrResult_getLsbD_sign, asrResult_beq_zero]
  have hasl : (modifyWord1 dd aslResult (fun d => shiftFlags (aslResult d) (d.getLsbD 15)) s).flags =
      ⟨d.getLsbD 14, decide (2 * d.toNat % 0x10000 = 0), d.getLsbD 14 ^^ d.getLsbD 15, d.getLsbD 15⟩ := by
    rw [modifyWord1_flags, shiftFlags_word, aslResult_getLsbD_sign, word_beq_zero_eq_decide,
      aslResult_toNat]
  refine ⟨decodeWord_encodeWord (.asr dd), decodeWord_encodeWord (.asl dd), ⟨_, rfl, ?_⟩, ⟨_, rfl, ?_⟩⟩
  · rw [hasr]
    exact ⟨(congrArg BitVec.toInt (modifyWord1_result dd asrResult _ s)).trans (asrResult_toInt d),
      rfl, rfl, rfl, rfl⟩
  · rw [hasl]
    exact ⟨(congrArg BitVec.toNat (modifyWord1_result dd aslResult _ s)).trans (aslResult_toNat d),
      rfl, rfl, rfl, rfl, double_overflow_iff d⟩

end Sys2Proof.Machine
end

section
/-! SUPPORT. `JMP`, `JSR` and `RTS`: the registers and memory that the push, the pop and the jump leave; O36 to
O39, assembled from them. -/

namespace Sys2Proof.Machine

/-! ## The push of `JSR` and the pop of `RTS` -/

theorem pushWord_reg (v : Word) (s : State) (n : Reg) :
    (pushWord v s).reg n = if n = .r6 then s.reg .r6 - 2 else s.reg n := by
  rw [pushWord, writeWord_reg, setReg_reg, sp_eq_reg]

theorem pushWord_mem (v : Word) (s : State) :
    (pushWord v s).mem = s.mem.writeWord s.memBank (s.reg .r6 - 2) v := rfl

/-- The state `JSR` leaves from the state `r` with its destination resolved to the address `a`. -/
def jsrState (link : Reg) (a : Word) (r : State) : State :=
  ((pushWord (linkValue link r) r).setReg link (pushWord (linkValue link r) r).pc).setReg .r7 a

theorem jsrState_link {link : Reg} (h : link ≠ .r7) (a : Word) (r : State) :
    (jsrState link a r).reg link = r.reg .r7 := by
  rw [jsrState, setReg_reg_ne _ _ h, setReg_reg_same, pc_eq_reg, pushWord_reg, if_neg (by decide)]

theorem jsrState_sp {link : Reg} (h : link ≠ .r6) (a : Word) (r : State) :
    (jsrState link a r).reg .r6 = r.reg .r6 - 2 := by
  rw [jsrState, setReg_reg_ne _ _ (by decide), setReg_reg_ne _ _ h.symm, pushWord_reg, if_pos rfl]

theorem jsrState_regs (link : Reg) (a : Word) (r : State) :
    RegsSameOutside [link, .r6, .r7] r (jsrState link a r) := fun n hn => by
  simp only [List.mem_cons, List.not_mem_nil, or_false, not_or] at hn
  obtain ⟨hlink, h6, h7⟩ := hn
  rw [jsrState, setReg_reg_ne _ _ h7, setReg_reg_ne _ _ hlink, pushWord_reg, if_neg h6]

theorem jsrState_mem (link : Reg) (a : Word) (r : State) :
    (jsrState link a r).mem = r.mem.writeWord r.memBank (r.reg .r6 - 2) (linkValue link r) := rfl

/-- The pushed word lies at the new stack pointer in the data bank (decision D5). -/
theorem jsrState_pushed (link : Reg) (a : Word) (r : State) :
    (jsrState link a r).mem.readWord r.memBank (r.reg .r6 - 2) = linkValue link r :=
  Memory.readWord_writeWord_same _ _ _ _

theorem jsrState_memSame (link : Reg) (a : Word) (r : State) :
    MemSameOutside [(r.memBank, r.reg .r6 - 2), (r.memBank, r.reg .r6 - 2 + 1)] r (jsrState link a r) :=
  writeTargetWord_memSame (.mem .data (r.reg .r6 - 2)) (linkValue link r) r

/-- The state `RTS` leaves (rule R152). -/
def rtsState (link : Reg) (s : State) : State :=
  let p := (s.readWord .data s.sp).2.setReg link (s.readWord .data s.sp).1
  (p.setReg .r6 (p.sp + 2)).setReg .r7 (s.reg link)

theorem rtsState_pc (link : Reg) (s : State) : (rtsState link s).reg .r7 = s.reg link :=
  setReg_reg_same _ _ _

/-- The stack pointer after the pop: the link assignment comes first, so `RTS R6` counts from the popped
word. -/
theorem rtsState_sp (link : Reg) (s : State) :
    (rtsState link s).reg .r6 =
      (if link = .r6 then s.mem.readWord s.memBank (s.reg .r6) else s.reg .r6) + 2 := by
  rw [rtsState, setReg_reg_ne _ _ (by decide), setReg_reg_same, sp_eq_reg, setReg_reg]
  simp only [eq_comm (a := Reg.r6)]
  rfl

theorem rtsState_link {link : Reg} (h6 : link ≠ .r6) (h7 : link ≠ .r7) (s : State) :
    (rtsState link s).reg link = s.mem.readWord s.memBank (s.reg .r6) := by
  rw [rtsState, setReg_reg_ne _ _ h7, setReg_reg_ne _ _ h6, setReg_reg_same]
  rfl

theorem rtsState_regs (link : Reg) (s : State) : RegsSameOutside [link, .r6, .r7] s (rtsState link s) :=
  fun n hn => by
    simp only [List.mem_cons, List.not_mem_nil, or_false, not_or] at hn
    obtain ⟨hlink, h6, h7⟩ := hn
    rw [rtsState, setReg_reg_ne _ _ h7, setReg_reg_ne _ _ h6, setReg_reg_ne _ _ hlink]
    rfl

/-! ## The obligations -/

/-- Settles O36: `execJmp` by its two cases, and the frame of `resolve`. -/
theorem jmpGoesToTheAddress : Obligations.JmpGoesToTheAddress := by
  intro dd s
  refine ⟨decodeWord_encodeWord (.jmp dd), fun h => execJmp_register h, fun h => ?_⟩
  obtain ⟨v, a, ha⟩ := resolve_hasAddress (hasAddress_of_mode h) .word s
  have hpc : RegsSameOutside [.r7] (resolve dd .word s).2 ((resolve dd .word s).2.setReg .r7 a) :=
    fun n hn => setReg_reg_ne _ _ (by simpa using hn)
  refine ⟨v, a, _, ha, execJmp_mem ha, rfl, setReg_reg_same _ _ _, hpc, ?_,
    memSameOutside_of_eq (resolve_mem dd .word s), (resolve_onlyCpu dd .word s).trans rfl,
    resolve_flags dd .word s⟩
  exact ((resolve_regs dd .word s).trans hpc).mono (by simp [or_comm])

/-- Settles O37: `execJsr` leaves `jsrState` of the resolved state. -/
theorem jsrPushesLinksAndJumps : Obligations.JsrPushesLinksAndJumps := by
  intro link dd s
  refine ⟨decodeWord_encodeWord (.jsr link dd), fun h => execJsr_register h, fun h => ?_⟩
  obtain ⟨v, a, ha⟩ := resolve_hasAddress (hasAddress_of_mode h) .word s
  refine ⟨v, a, jsrState link a (resolve dd .word s).2, ha, execJsr_mem ha, ?_⟩
  intro r top
  have hbank : r.memBank = s.memBank := resolve_memBank dd .word s
  have hpushed := jsrState_pushed link a r
  have hmem := jsrState_memSame link a r
  rw [hbank] at hpushed hmem
  refine ⟨setReg_reg_same _ _ _, fun h7 => jsrState_link h7 a r, fun h6 => jsrState_sp h6 a r,
    jsrState_regs link a r, fun h6 => hpushed.trans (linkValue_of_ne h6 r), fun h6 => ?_,
    (memSameOutside_of_eq (l := []) (resolve_mem dd .word s)).trans hmem,
    (resolve_onlyCpu dd .word s).trans rfl, resolve_flags dd .word s⟩
  subst h6
  exact (linkValue_r6 r).imp hpushed.trans hpushed.trans

/-- Settles O38: `execRts` leaves `rtsState`. -/
theorem rtsPopsAndReturns : Obligations.RtsPopsAndReturns := by
  intro link s
  refine ⟨decodeWord_encodeWord (.rts link), rtsState link s, rfl, rtsState_pc link s, fun h6 => ?_,
    fun h6 => ?_, fun h6 h7 => rtsState_link h6 h7 s, rtsState_regs link s, memSameOutside_of_eq rfl, rfl, rfl⟩
  · rw [rtsState_sp, if_pos h6]
  · rw [rtsState_sp, if_neg h6]

/-- Settles O39: what `RTS` pops is what `JSR` pushed, since the stack word and the registers agree. -/
theorem rtsUndoesJsr : Obligations.RtsUndoesJsr := by
  intro link dd s h6 h7 hd
  obtain ⟨v, a, ha⟩ := resolve_hasAddress (hasAddress_of_mode hd) .word s
  have hlink := jsrState_link h7 a (resolve dd .word s).2
  have hsp := jsrState_sp h6 a (resolve dd .word s).2
  have hpushed := (jsrState_pushed link a (resolve dd .word s).2).trans (linkValue_of_ne h6 _)
  rw [resolve_pc] at hlink
  refine ⟨_, execJsr_mem ha, hlink, fun u hu6 hulink _ hword => ⟨rtsState link u, rfl, ?_, ?_, ?_⟩⟩
  · exact (rtsState_pc link u).trans (hulink.trans hlink)
  · rw [rtsState_sp, if_neg h6, hu6]
    exact (congrArg (· + 2) hsp).trans (BitVec.sub_add_cancel _ _)
  · rw [rtsState_link h6 h7, hword]
    exact (congrArg (Memory.readWord _ _) hsp).trans hpushed

end Sys2Proof.Machine
end

section
/-! SUPPORT. The character, number and bank services: what each answers in r[0], Z and the host's streams; O40,
O42 to O47 and O52, assembled from them. -/

namespace Sys2Proof.Machine

/-! ## The dispatcher (rules R160, R162) -/

/-- The state a defined service starts from. -/
def serviceStart (s : State) : State := s.setFlags (serviceFlags s.flags)

theorem serviceStart_reg (s : State) (n : Reg) : (serviceStart s).reg n = s.reg n := rfl

theorem exec_trap_of_service {v : BitVec 8} {w : Service} (h : serviceOf v = some w) (s : State) :
    exec (.trap v) s = runService w (serviceStart s) := by
  rw [exec, execTrap, h]
  rfl

theorem serviceOf_isSome_iff (v : BitVec 8) :
    (serviceOf v).isSome = true ↔ (1 ≤ v.toNat ∧ v.toNat ≤ 10) ∨ (20 ≤ v.toNat ∧ v.toNat ≤ 26) := by
  revert v
  decide

/-- Settles O40: a vector outside the two ranges names no service. -/
theorem undefinedVectorsDoNothing : Obligations.UndefinedVectorsDoNothing := by
  intro v s
  refine ⟨decodeWord_encodeWord (.trap v), serviceOf_isSome_iff v, fun hv => ?_⟩
  have hnone : serviceOf v = none := by
    rw [← Option.not_isSome_iff_eq_none, serviceOf_isSome_iff]
    omega
  rw [exec, execTrap, hnone]

/-! ## Characters and printed text (rules R165 to R172) -/

/-- Settles O42: the two string services on the string the data bank holds. -/
theorem characterOutputReachesTheHost : Obligations.CharacterOutputReachesTheHost := by
  refine fun s l => ⟨⟨_, rfl, rfl, rfl⟩, fun h => ?_⟩
  have h' : StringAt (serviceStart s) ((serviceStart s).reg .r0) l := h
  obtain ⟨k, hputs⟩ := withString_of_stringAt servicePuts h'
  obtain ⟨j, hprintln⟩ := withString_of_stringAt servicePrintln h'
  exact ⟨⟨_, hputs, rfl, rfl⟩, ⟨_, hprintln, rfl, rfl⟩⟩

/-- The text of a signed word: a sign and the digits of the magnitude. -/
theorem signedText_eq (v : Word) :
    signedText v = (if v.toInt < 0 then [0x2D] else []) ++ digitsText (digits 10 4 v.toInt.natAbs) := by
  rw [signedText, BitVec.msb_eq_toInt, ← map_digitChar]
  by_cases h : v.toInt < 0
  · simp [h, decimalText]
  · have habs : v.toInt.natAbs = v.toNat := by
      rw [BitVec.toInt_eq_toNat_of_msb (by simpa [BitVec.msb_eq_toInt] using h)]
      rfl
    simp [h, decimalText, habs]

/-- Settles O43: the digits of `digits_spec`, for numbers of at most five decimal or four hexadecimal
digits. -/
theorem printedNumbersDenoteTheRegister : Obligations.PrintedNumbersDenoteTheRegister := by
  intro s
  have hnat : (s.reg .r0).toNat < 2 ^ 16 := (s.reg .r0).isLt
  have habs : (s.reg .r0).toInt.natAbs < 10 ^ 5 := by
    have := BitVec.toInt_lt (x := s.reg .r0)
    have := BitVec.le_toInt (s.reg .r0)
    omega
  obtain ⟨hsPlain, hsValue, -⟩ := digits_spec 10 (by decide) 4 _ habs
  obtain ⟨hhPlain, hhValue, -⟩ := digits_spec 16 (by decide) 3 (s.reg .r0).toNat hnat
  obtain ⟨huPlain, huValue, -⟩ := digits_spec 10 (by decide) 4 (s.reg .r0).toNat (by omega)
  refine ⟨⟨_, _, rfl, hsPlain, hsValue, rfl, ?_⟩, ⟨_, _, rfl, hhPlain, hhValue, rfl, ?_⟩,
    ⟨_, _, rfl, huPlain, huValue, rfl, ?_⟩⟩
  · show s.hostOut ++ signedText (s.reg .r0) = _
    rw [signedText_eq, List.append_assoc]
  · show s.hostOut ++ hexText (s.reg .r0) = _
    rw [hexText, map_digitChar, List.append_assoc]
    rfl
  · show s.hostOut ++ decimalText (s.reg .r0).toNat = _
    rw [decimalText, map_digitChar]

/-- Settles O44: input left or at its end. -/
theorem getcTakesOneByteOrReportsTheEnd : Obligations.GetcTakesOneByteOrReportsTheEnd := by
  intro s
  refine ⟨serviceGetc (serviceStart s), rfl, fun c rest h => ?_, fun h => ?_⟩
  · have hc : (serviceStart s).inChar = (some c, { serviceStart s with hostIn := rest }) := by
      rw [State.inChar, show (serviceStart s).hostIn = c :: rest from h]
      rfl
    rw [serviceGetc, hc]
    exact ⟨rfl, rfl, rfl⟩
  · have hc : (serviceStart s).inChar = (none, { serviceStart s with hostIn := [] }) := by
      rw [State.inChar, show (serviceStart s).hostIn = [] from h]
      rfl
    rw [serviceGetc, hc]
    exact ⟨rfl, rfl, rfl⟩

/-! ## Reading a line (rule R169) -/

/-- Of a line that a newline or the end of input ends, at most `cap` bytes are taken; a line that fits is
consumed, and of a longer one what is left is the policy's. -/
theorem takeLine_line (p : ReadlineOverflow) (cap : Nat) (line rest : List Byte) (newline : Bool)
    (h : ∀ b ∈ line, b ≠ 0x0A) :
    let tail := if newline then 0x0A :: rest else []
    let after := if newline then rest else []
    (takeLine p cap (line ++ tail)).1 = line.take cap ∧
      (line.length ≤ cap → (takeLine p cap (line ++ tail)).2 = after) ∧
      (cap < line.length → (takeLine p cap (line ++ tail)).2 = after ∨
        (takeLine p cap (line ++ tail)).2 = line.drop cap ++ tail) := by
  intro tail after
  by_cases hc : line.length ≤ cap
  · have htake : takeLine p cap (line ++ tail) = (line, after) := by
      cases newline with
      | true => exact takeLine_newline p cap line rest h hc
      | false => exact (congrArg _ (List.append_nil line)).trans (takeLine_eof p cap line h hc)
    rw [htake, List.take_of_length_le hc]
    exact ⟨rfl, fun _ => rfl, fun hlt => absurd hc (Nat.not_le_of_lt hlt)⟩
  · obtain ⟨hstored, hleft⟩ := takeLine_long p cap line tail h (Nat.lt_of_not_le hc)
    have hdrop : dropLine (line ++ tail) = after := by
      rw [dropLine_line line tail h]
      cases newline <;> rfl
    exact ⟨hstored, fun hle => absurd hle hc, fun _ => hleft.imp_left (·.trans hdrop)⟩

/-- With room for the NUL at least, service 5 takes a line of `max - 1` bytes at most. -/
theorem lineRead_of_pos {max : Word} (h : max ≠ 0) (input : List Byte) :
    lineRead max input =
      ((takeLine Config.readlineOverflow (max.toNat - 1) input).1,
        (takeLine Config.readlineOverflow (max.toNat - 1) input).2, !input.isEmpty) := by
  rw [lineRead, decide_eq_false h, Bool.false_and, if_neg Bool.false_ne_true]

theorem writeBytes_concat (s : State) (a : Word) (l : List Byte) (b : Byte) :
    s.writeBytes a (l ++ [b]) = (s.writeBytes a l).writeByte .data (a + BitVec.ofNat 16 l.length) b := by
  induction l generalizing s a with
  | nil => rw [List.length_nil, word_add_zero]; rfl
  | cons c t ih =>
    rw [List.length_cons, word_add_succ]
    exact ih (s.writeByte .data a c) (a + 1)

theorem lineRead_zero (input : List Byte) : (lineRead 0 input).1 = [] :=
  List.eq_nil_of_length_eq_zero (Nat.le_zero.mp (lineRead_length 0 input))

section ReadLine

variable (s : State)

theorem serviceReadLine_r0 :
    (serviceReadLine s).reg .r0 = BitVec.ofNat 16 (lineRead (s.reg .r1) s.hostIn).1.length :=
  (setZ_reg _ _ _).trans (setReg_reg_same _ _ _)

theorem serviceReadLine_z :
    (serviceReadLine s).flags.z =
      (!(lineRead (s.reg .r1) s.hostIn).2.2 &&
        BitVec.ofNat 16 (lineRead (s.reg .r1) s.hostIn).1.length == 0) := rfl

theorem serviceReadLine_hostIn :
    (serviceReadLine s).hostIn = (lineRead (s.reg .r1) s.hostIn).2.1 := by
  rw [serviceReadLine]
  split <;> simp

/-- With max = 0 no byte of memory is written (log 11). -/
theorem serviceReadLine_mem_zero (h : s.reg .r1 = 0) : (serviceReadLine s).mem = s.mem := by
  rw [serviceReadLine, if_pos h, h, lineRead_zero]
  rfl

/-- With max > 0 the bytes taken and a NUL after them are stored, and nothing else. -/
theorem serviceReadLine_mem_pos (h : s.reg .r1 ≠ 0) :
    (serviceReadLine s).mem =
      (State.writeBytes { s with hostIn := (lineRead (s.reg .r1) s.hostIn).2.1 } (s.reg .r0)
        ((lineRead (s.reg .r1) s.hostIn).1 ++ [0])).mem := by
  rw [writeBytes_concat, serviceReadLine, if_neg h]
  rfl

end ReadLine

/-- Z reports an input that ended before any character. -/
theorem readLine_z_iff (line rest : List Byte) (newline : Bool) (cap : Nat) :
    (!(!(line ++ if newline then 0x0A :: rest else []).isEmpty) &&
        BitVec.ofNat 16 (line.take cap).length == 0) = true ↔ line = [] ∧ newline = false := by
  cases line <;> cases newline <;> simp

/-- Settles O45: the bytes taken by `takeLine_line`, stored with a NUL as one buffer. -/
theorem readLineStoresALineThatFits : Obligations.ReadLineStoresALineThatFits := by
  intro s line rest newline hline hin max stored after
  have hbank : (serviceReadLine (serviceStart s)).memBank = s.memBank :=
    (serviceReadLine_frame (serviceStart s)).2.1
  refine ⟨serviceReadLine (serviceStart s), rfl, ?_⟩
  rw [serviceReadLine_r0, serviceReadLine_z, serviceReadLine_hostIn, serviceStart_reg,
    show (serviceStart s).hostIn = s.hostIn from rfl]
  by_cases h0 : s.reg .r1 = 0
  · have hmax : max = 0 := congrArg BitVec.toNat h0
    have hpos : ¬ 0 < max := by omega
    have hstored : stored = [] := by simp [stored, hmax]
    rw [h0, lineRead_zero, hstored]
    exact ⟨rfl, fun _ => ⟨serviceReadLine_mem_zero (serviceStart s) h0, rfl⟩, fun h => absurd h hpos,
      fun h => absurd h (by omega), fun h => absurd h hpos⟩
  · have hpos : 0 < max := Nat.pos_of_ne_zero fun h => h0 (BitVec.eq_of_toNat_eq h)
    obtain ⟨hstored, hfits, hlong⟩ :=
      takeLine_line Config.readlineOverflow (max - 1) line rest newline hline
    have hmem := serviceReadLine_mem_pos (serviceStart s) h0
    rw [serviceStart_reg, show (serviceStart s).hostIn = s.hostIn from rfl, lineRead_of_pos h0, hin,
      hstored] at hmem
    rw [lineRead_of_pos h0, hin, hstored]
    have hlen : (stored ++ [0]).length ≤ 0x10000 := by
      have := (s.reg .r1).isLt
      simp only [List.length_append, List.length_singleton, stored, List.length_take]
      omega
    refine ⟨rfl, fun h => absurd h (Nat.ne_of_gt hpos),
      fun _ => ⟨readLine_z_iff line rest newline (max - 1), fun k hk => ?_, fun b a hn => ?_⟩,
      fun hlt => hfits (by omega), fun _ hle => hlong (by omega)⟩
    · rw [hmem, hbank]
      exact (writeBytes_read _ _ _ hlen _ _).2 k hk rfl rfl
    · rw [hmem]
      exact writeBytes_memSame _ _ _ hlen b a (by rw [List.length_append]; exact hn)

/-! ## Reading a number (rules R173, R174) -/

theorem numberResult_some (w : Word) (s : State) :
    (numberResult (some w) s).reg .r0 = w ∧ (numberResult (some w) s).flags.z = false ∧
      (numberResult (some w) s).hostIn = s.hostIn := ⟨rfl, rfl, rfl⟩

theorem numberResult_none (s : State) :
    (numberResult none s).flags.z = true ∧ (numberResult none s).hostIn = s.hostIn := ⟨rfl, rfl⟩

theorem intWord_toNat {v : Int} (h1 : -32768 ≤ v) (h2 : v ≤ 65535) :
    ((intWord v).toNat : Int) = v % 65536 := by
  rw [intWord, if_pos ⟨h1, h2⟩, BitVec.toNat_ofInt]
  exact Int.toNat_of_nonneg (Int.emod_nonneg _ (by decide))

theorem hexWord_toNat {v : Nat} (h : v < 0x10000) : (hexWord v).toNat = v := by
  rw [hexWord, if_pos (Nat.le_of_lt_succ h), BitVec.toNat_ofNat, Nat.mod_eq_of_lt h]

theorem serviceReadInt_eq {s : State} {v : Option Int} {left : List Byte}
    (h : readInt s.hostIn = (v, left)) :
    serviceReadInt s = numberResult (v.map intWord) { s with hostIn := left } := by
  rw [serviceReadInt, h]

theorem serviceReadHex_eq {s : State} {v : Option Nat} {left : List Byte}
    (h : readHex s.hostIn = (v, left)) :
    serviceReadHex s = numberResult (v.map hexWord) { s with hostIn := left } := by
  rw [serviceReadHex, h]

/-- Settles O46: the parse with a number and without one. -/
theorem readIntParsesASignedDecimal : Obligations.ReadIntParsesASignedDecimal := by
  intro s spaces sign ds rest hsign hds hrest hin value noNumber
  refine ⟨serviceReadInt (serviceStart s), rfl, ?_⟩
  have hin' : (serviceStart s).hostIn = List.replicate spaces 0x20 ++ sign ++ digitsText ds ++ rest := hin
  cases ds with
  | cons d ds =>
    rw [serviceReadInt_eq ((congrArg readInt hin').trans (readInt_number hsign hds hrest))]
    exact ⟨fun _ => ⟨rfl, intWord_toNat⟩, fun h => absurd h.1 (List.cons_ne_nil d ds),
      fun _ => afterParse_cases 10 _ rest⟩
  | nil =>
    by_cases hno : noNumber
    · have hin'' : (serviceStart s).hostIn = List.replicate spaces 0x20 ++ sign ++ rest :=
        hin'.trans (congrArg (· ++ rest) (List.append_nil _))
      rw [serviceReadInt_eq ((congrArg readInt hin'').trans (readInt_noNumber hsign hrest hno.2))]
      exact ⟨fun h => absurd rfl h, fun _ => rfl, fun _ => afterParse_cases 10 _ rest⟩
    · exact ⟨fun h => absurd rfl h, fun h => absurd h hno,
        fun h => absurd h (not_or.mpr ⟨fun h => h rfl, hno⟩)⟩

/-- The answer of service 10 to what `readHex` reads. -/
theorem exec_readHex {s : State} {input : List Byte} (h : s.hostIn = input) :
    exec (.trap 10) s =
      .next (numberResult ((readHex input).1.map hexWord)
        { serviceStart s with hostIn := (readHex input).2 }) := by
  rw [← h]
  rfl

/-- Settles O47: the parses of `readHex` on digits, on a bare prefix, and with no number. -/
theorem readHexParsesAnUnsignedNumber : Obligations.ReadHexParsesAnUnsignedNumber := by
  refine fun s rest => ⟨fun pre ds hpre hds hrest hin => ⟨fun hne hx => ?_, fun hnil hne => ?_⟩,
    fun spaces hrest hin => ?_⟩
  · obtain ⟨d, ds, rfl⟩ := List.exists_cons_of_ne_nil hne
    rw [exec_readHex hin, readHex_number hpre hds hrest hx]
    exact ⟨_, rfl, rfl, afterParse_cases 16 _ rest, hexWord_toNat⟩
  · subst hnil
    rw [exec_readHex (hin.trans (congrArg (· ++ rest) (List.append_nil pre)))]
    refine ⟨_, rfl, ?_⟩
    rcases readHex_barePrefix (hpre.resolve_left hne) hrest with h | h
    · rw [h]
      exact .inl rfl
    · rw [h]
      exact .inr ⟨rfl, rfl⟩
  · obtain ⟨hnone, hleft⟩ := readHex_noNumber (k := spaces) hrest
    rw [exec_readHex hin, hnone]
    refine ⟨_, rfl, rfl, fun h0 => ?_⟩
    subst h0
    show (readHex rest).2 = rest ∨ (readHex rest).2 = rest.tail
    rw [hleft rfl]
    exact afterParse_cases 16 rest rest

/-! ## The bank (rule R181) -/

theorem outOfRangeBank_cases (r0 : Word) (old : BitVec 2) :
    outOfRangeBank r0 old = old ∨ outOfRangeBank r0 old = r0.extractLsb' 0 2 := by
  rw [outOfRangeBank]
  cases Config.bankSelectOutOfRange
  · exact .inr rfl
  · exact .inl rfl
  · exact .inl rfl

/-- Settles O52: r[0] in range, and each value of the OPEN parameter above it. -/
theorem bankServiceSelectsTheDataBank : Obligations.BankServiceSelectsTheDataBank := by
  intro s
  have hlow : ((s.reg .r0).extractLsb' 0 2).toNat = (s.reg .r0).toNat % 4 := by
    rw [BitVec.extractLsb'_toNat, Nat.shiftRight_zero]
  refine ⟨serviceBank (serviceStart s), rfl, fun h => ?_, fun h => ?_⟩
  · have hle : ((serviceStart s).reg .r0).ule 3 = true := decide_eq_true h
    rw [serviceBank, if_pos hle]
    exact ⟨hlow.trans (Nat.mod_eq_of_lt (by omega)), rfl⟩
  · have hgt : ¬ ((serviceStart s).reg .r0).ule 3 = true :=
      fun hle => absurd (of_decide_eq_true hle) (Nat.not_le_of_lt h)
    rw [serviceBank, if_neg hgt]
    exact (outOfRangeBank_cases (s.reg .r0) s.memBank).imp id fun hb => (congrArg BitVec.toNat hb).trans hlow

end Sys2Proof.Machine
end

section
/-! SUPPORT. The file services 20 to 25: the slot that open takes, and what each leaves in the file table,
memory, r[0] and Z for the host's answer; O48 to O51, assembled from them. -/

namespace Sys2Proof.Machine

/-! ## The first vacant slot (rule R187) -/

/-- Settles O48: the laws of the scan. -/
theorem openTakesTheFirstVacantSlot : Obligations.OpenTakesTheFirstVacantSlot := by
  refine fun t => ⟨fun h hh => ?_, fun hnone k hlo hhi => ?_⟩
  · obtain ⟨hlo, hhi, -, hvacant, htaken⟩ := FileTable.scan_spec t _ _ _ _ hh
    exact ⟨hlo, hhi, FileTable.firstVacant_lt t h hh, hvacant,
      fun k h1 h2 => Option.isSome_iff_ne_none.mpr (htaken k h1 h2)⟩
  · exact Option.isSome_iff_ne_none.mpr (FileTable.firstVacant_none hnone k hlo hhi)

/-! ## The host's scripted answer (log 4) -/

/-- The state once the host was asked for `c` and its next scripted answer is used up. -/
def State.asked (s : State) (c : FileCall) (rest : List HostAnswer) : State :=
  { s with hostAnswers := rest, hostCalls := s.hostCalls ++ [c] }

theorem asked_reg (s : State) (c : FileCall) (rest : List HostAnswer) (n : Reg) :
    (s.asked c rest).reg n = s.reg n := rfl

theorem asked_files (s : State) (c : FileCall) (rest : List HostAnswer) :
    (s.asked c rest).files = s.files := rfl

/-! ## Open (rule R175) -/

section Open

variable {s : State} {path : List Byte}

theorem serviceOpen_notAsked (h : s.files.firstVacant = none ∨ 1024 < path.length ∨ 3 < (s.reg .r1).toNat) :
    serviceOpen path s = s.failed := by
  rw [serviceOpen]
  split
  · next hc =>
    rw [Bool.and_eq_true, decide_eq_true_eq, BitVec.ule, decide_eq_true_eq] at hc
    obtain h | h | h := h
    · rw [h]
    · exact absurd hc.1 (Nat.not_le_of_lt h)
    · exact absurd hc.2 (Nat.not_le_of_lt h)
  · rfl

variable {k : Nat} {a : HostAnswer} {rest : List HostAnswer} (hk : s.files.firstVacant = some k)
  (hp : path.length ≤ 1024) (hm : (s.reg .r1).toNat ≤ 3) (hans : s.hostAnswers = a :: rest)
include hk hp hm hans

theorem serviceOpen_granted (hok : a.ok = true) :
    serviceOpen path s =
      (State.setReg { s.asked (.openFile path (s.reg .r1)) rest with
        files := s.files.set k ⟨a.file, a.position⟩ } .r0 (BitVec.ofNat 16 k)).freeZ := by
  have hmode : (s.reg .r1).ule 3 = true := decide_eq_true hm
  simp only [serviceOpen, hmode, decide_eq_true hp, Bool.and_self, if_true, hk,
    callHost_scripted s _ a rest hans, hok]
  rfl

theorem serviceOpen_denied (hok : a.ok = false) :
    serviceOpen path s = (s.asked (.openFile path (s.reg .r1)) rest).failed := by
  have hmode : (s.reg .r1).ule 3 = true := decide_eq_true hm
  simp only [serviceOpen, hmode, decide_eq_true hp, Bool.and_self, if_true, hk,
    callHost_scripted s _ a rest hans, hok]
  rfl

end Open

/-- Settles O49: open granted, denied, and not asked. -/
theorem openReturnsAHandleOrFailure : Obligations.OpenReturnsAHandleOrFailure := by
  intro s path a rest hpath hans
  have hpath' : StringAt (serviceStart s) ((serviceStart s).reg .r0) path := hpath
  obtain ⟨w, hw⟩ := withString_of_stringAt serviceOpen hpath'
  refine ⟨_, hw, (serviceOpen_frame _ _).regs .r1 (by simp), fun k hk hp hm => ?_, fun hbad => ?_⟩
  · have hlt : k < 2 ^ 16 := Nat.lt_trans (FileTable.firstVacant_lt _ _ hk) (by decide)
    cases hok : a.ok with
    | true =>
      rw [serviceOpen_granted (s := { serviceStart s with watchLog := w }) hk hp hm hans hok]
      refine ⟨rfl, rfl, fun _ => ⟨?_, FileTable.file_set s.files k _⟩, nofun⟩
      exact (BitVec.toNat_ofNat k 16).trans (Nat.mod_eq_of_lt hlt)
    | false =>
      rw [serviceOpen_denied (s := { serviceStart s with watchLog := w }) hk hp hm hans hok]
      exact ⟨rfl, rfl, nofun, fun _ => ⟨rfl, rfl⟩⟩
  · rw [serviceOpen_notAsked (s := { serviceStart s with watchLog := w }) hbad]
    exact ⟨rfl, rfl, rfl⟩

/-! ## Read and write (rules R176, R177) -/

section Answered

variable {s : State} {f : OpenFile} {a : HostAnswer} {rest : List HostAnswer}

theorem serviceReadFile_badHandle (h : s.files.file (s.reg .r0).toNat = none) :
    serviceReadFile s = s.result 0 := by
  rw [serviceReadFile, show s.openFileOf = none from h]

theorem serviceWriteFile_badHandle (h : s.files.file (s.reg .r0).toNat = none) :
    serviceWriteFile s = (s.readBytes (s.reg .r1) (s.reg .r2).toNat).2.result 0 := by
  rw [serviceWriteFile, show s.openFileOf = none from h]

theorem serviceClose_badHandle (h : s.files.file (s.reg .r0).toNat = none) : serviceClose s = s.failed := by
  rw [serviceClose, show s.openFileOf = none from h]

theorem serviceSeek_badHandle (h : s.files.file (s.reg .r0).toNat = none) : serviceSeek s = s.failed := by
  rw [serviceSeek, show s.openFileOf = none from h]

theorem serviceTell_badHandle (h : s.files.file (s.reg .r0).toNat = none) : serviceTell s = s.failed := by
  rw [serviceTell, show s.openFileOf = none from h]

/-- A whence above 2 fails, on any handle. -/
theorem serviceSeek_badWhence (h : 2 < (s.reg .r2).toNat) : serviceSeek s = s.failed := by
  have hw : ¬ (s.reg .r2).ule 2 = true := fun hle => absurd (of_decide_eq_true hle) (Nat.not_le_of_lt h)
  rw [serviceSeek]
  cases s.openFileOf with
  | none => rfl
  | some f => exact if_neg hw

variable (hf : s.files.file (s.reg .r0).toNat = some f) (hans : s.hostAnswers = a :: rest)
include hf hans

theorem serviceReadFile_granted (hok : a.ok = true) :
    serviceReadFile s =
      ((((s.asked (.readFile f.file (s.reg .r2).toNat) rest).setFile
          { f with position := f.position + (a.data.take (s.reg .r2).toNat).length }).writeBytes
        (s.reg .r1) (a.data.take (s.reg .r2).toNat)).result
          (BitVec.ofNat 16 (a.data.take (s.reg .r2).toNat).length)) := by
  simp only [serviceReadFile, show s.openFileOf = some f from hf, callHost_scripted s _ a rest hans, hok,
    if_true]
  rfl

theorem serviceReadFile_denied (hok : a.ok = false) :
    serviceReadFile s = (s.asked (.readFile f.file (s.reg .r2).toNat) rest).result 0 := by
  simp only [serviceReadFile, show s.openFileOf = some f from hf, callHost_scripted s _ a rest hans, hok]
  rfl

theorem serviceWriteFile_granted (hok : a.ok = true) :
    serviceWriteFile s =
      ((((s.readBytes (s.reg .r1) (s.reg .r2).toNat).2.asked
          (.writeFile f.file (s.readBytes (s.reg .r1) (s.reg .r2).toNat).1) rest).setFile
        { f with position := a.position }).result (s.reg .r2)) := by
  have hans' := (readBytes_hostAnswers s (s.reg .r1) (s.reg .r2).toNat).trans hans
  simp only [serviceWriteFile, show s.openFileOf = some f from hf, callHost_scripted _ _ a rest hans', hok,
    if_true]
  rfl

theorem serviceWriteFile_denied (hok : a.ok = false) :
    serviceWriteFile s =
      ((s.readBytes (s.reg .r1) (s.reg .r2).toNat).2.asked
        (.writeFile f.file (s.readBytes (s.reg .r1) (s.reg .r2).toNat).1) rest).result 0 := by
  have hans' := (readBytes_hostAnswers s (s.reg .r1) (s.reg .r2).toNat).trans hans
  simp only [serviceWriteFile, show s.openFileOf = some f from hf, callHost_scripted _ _ a rest hans', hok]
  rfl

theorem serviceClose_granted (hok : a.ok = true) :
    serviceClose s =
      (State.setReg { s.asked (.closeFile f.file) rest with
        files := s.files.vacate (s.reg .r0).toNat } .r0 0).freeZ := by
  simp only [serviceClose, show s.openFileOf = some f from hf, callHost_scripted s _ a rest hans, hok,
    if_true]
  rfl

theorem serviceClose_denied (hok : a.ok = false) :
    serviceClose s = (s.asked (.closeFile f.file) rest).failed := by
  simp only [serviceClose, show s.openFileOf = some f from hf, callHost_scripted s _ a rest hans, hok]
  rfl

theorem serviceTell_granted (hok : a.ok = true) :
    serviceTell s =
      ((s.asked (.tellFile f.file) rest).setReg .r0 (BitVec.ofNat 16 f.position)).freeZ := by
  simp only [serviceTell, show s.openFileOf = some f from hf, callHost_scripted s _ a rest hans, hok,
    if_true]
  rfl

theorem serviceTell_denied (hok : a.ok = false) :
    serviceTell s = (s.asked (.tellFile f.file) rest).failed := by
  simp only [serviceTell, show s.openFileOf = some f from hf, callHost_scripted s _ a rest hans, hok]
  rfl

theorem serviceSeek_granted (hw : (s.reg .r2).toNat ≤ 2) (hok : a.ok = true) :
    serviceSeek s =
      (((s.asked (.seekFile f.file (s.reg .r1).toInt (s.reg .r2)) rest).setFile
        { f with position := seekPosition f (s.reg .r1).toInt (s.reg .r2) a }).setReg .r0 0).freeZ := by
  have hule : (s.reg .r2).ule 2 = true := decide_eq_true hw
  simp only [serviceSeek, show s.openFileOf = some f from hf, callHost_scripted s _ a rest hans, hok, hule,
    if_true]
  rfl

theorem serviceSeek_denied (hw : (s.reg .r2).toNat ≤ 2) (hok : a.ok = false) :
    serviceSeek s = (s.asked (.seekFile f.file (s.reg .r1).toInt (s.reg .r2)) rest).failed := by
  have hule : (s.reg .r2).ule 2 = true := decide_eq_true hw
  simp only [serviceSeek, show s.openFileOf = some f from hf, callHost_scripted s _ a rest hans, hok, hule,
    if_true]
  rfl

end Answered

theorem result_r0 (s : State) (v : Word) : (s.result v).reg .r0 = v :=
  (setZ_reg _ _ _).trans (setReg_reg_same _ _ _)

/-- `result` sets Z exactly when the result is 0. -/
theorem result_z_iff (s : State) (v : Word) :
    (s.result v).flags.z = true ↔ (s.result v).reg .r0 = 0 := by
  rw [result_r0]
  exact beq_iff_eq

/-- The table after a file was put in the slot that r[0] names. -/
theorem setFile_file (s : State) (f : OpenFile) (k : Nat) :
    (s.setFile f).files.file k = if k = (s.reg .r0).toNat then some f else s.files.file k :=
  FileTable.file_set _ _ _ _

/-- Settles O50: each service on a bad handle, and on a valid one granted and denied. -/
theorem fileReadAndWriteMoveBytes : Obligations.FileReadAndWriteMoveBytes := by
  intro s a rest hans h
  refine ⟨⟨serviceReadFile (serviceStart s), rfl, ?_⟩, ⟨serviceWriteFile (serviceStart s), rfl, ?_⟩⟩
  · cases hf : s.files.file h with
    | none =>
      rw [serviceReadFile_badHandle (s := serviceStart s) hf]
      exact ⟨result_z_iff _ _, nofun, nofun, fun _ => ⟨rfl, rfl, rfl⟩, fun _ => rfl⟩
    | some f =>
      cases hok : a.ok with
      | false =>
        rw [serviceReadFile_denied (s := serviceStart s) hf hans hok]
        refine ⟨result_z_iff _ _, fun g hg => ?_, nofun, fun _ => ⟨rfl, rfl, rfl⟩, nofun⟩
        cases hg
        rfl
      | true =>
        have hlen : (a.data.take (s.reg .r2).toNat).length ≤ 0x10000 :=
          (List.length_take_le _ _).trans (Nat.le_of_lt (s.reg .r2).isLt)
        rw [serviceReadFile_granted (s := serviceStart s) hf hans hok]
        refine ⟨result_z_iff _ _, fun g hg => ?_, fun g hg _ => ?_, nofun, nofun⟩
        · cases hg
          exact writeBytes_hostCalls _ _ _
        · cases hg
          refine ⟨rfl, writeBytes_bytesAt _ _ _ hlen,
            writeBytes_memSame (State.setFile (State.asked (serviceStart s) _ rest) _) _ _ hlen, fun k => ?_⟩
          exact (congrArg (FileTable.file · k) (writeBytes_files _ _ _)).trans (setFile_file _ _ k)
  · cases hf : s.files.file h with
    | none =>
      rw [serviceWriteFile_badHandle (s := serviceStart s) hf]
      exact ⟨result_z_iff _ _, readBytes_mem _ _ _, nofun, nofun, fun _ => ⟨rfl, readBytes_files _ _ _⟩,
        fun _ => readBytes_hostCalls _ _ _⟩
    | some f =>
      have hasked : ∀ g, some f = some g → ∃ bytes, bytes.length = (s.reg .r2).toNat ∧
          BytesAt s (s.reg .r1) bytes ∧
          ((serviceStart s).readBytes (s.reg .r1) (s.reg .r2).toNat).2.hostCalls ++
            [.writeFile f.file ((serviceStart s).readBytes (s.reg .r1) (s.reg .r2).toNat).1] =
          s.hostCalls ++ [.writeFile g.file bytes] := fun g hg => by
        cases hg
        rw [readBytes_hostCalls]
        exact ⟨_, readBytes_length _ _ _, readBytes_bytesAt (serviceStart s) _ _, rfl⟩
      cases hok : a.ok with
      | false =>
        rw [serviceWriteFile_denied (s := serviceStart s) hf hans hok]
        exact ⟨result_z_iff _ _, readBytes_mem _ _ _, hasked, nofun, fun _ => ⟨rfl, readBytes_files _ _ _⟩,
          nofun⟩
      | true =>
        rw [serviceWriteFile_granted (s := serviceStart s) hf hans hok]
        refine ⟨result_z_iff _ _, readBytes_mem _ _ _, hasked,
          fun g hg _ => ⟨result_r0 _ _, fun k => ?_⟩, nofun, nofun⟩
        cases hg
        refine (setFile_file _ _ k).trans ?_
        rw [asked_reg, readBytes_reg, asked_files, readBytes_files]
        rfl

/-! ## Close, seek and tell (rules R178 to R180) -/

/-- A seek ends at its base plus the signed offset wherever that is no negative number. -/
theorem seekPosition_eq {f : OpenFile} {offset : Int} {whence : Word} {a : HostAnswer} {base p : Nat}
    (h0 : whence = 0 → base = 0) (h1 : whence = 1 → base = f.position) (h2 : whence = 2 → base = a.size)
    (hw : whence.toNat ≤ 2) (hp : (p : Int) = base + offset) : seekPosition f offset whence a = p := by
  have hbase : (if whence = 0 then 0 else if whence = 1 then f.position else a.size) = base := by
    by_cases hz : whence = 0
    · rw [if_pos hz, h0 hz]
    · by_cases ho : whence = 1
      · rw [if_neg hz, if_pos ho, h1 ho]
      · have htwo : whence = 2 := by bv_omega
        rw [if_neg hz, if_neg ho, h2 htwo]
  rw [seekPosition, hbase, ← hp, if_pos (Int.natCast_nonneg p), Int.toNat_natCast]

/-- Settles O51: each service on a bad handle, and on a valid one granted and denied. -/
theorem closeSeekAndTellAnswerInBand : Obligations.CloseSeekAndTellAnswerInBand := by
  intro s a rest hans f?
  refine ⟨⟨serviceClose (serviceStart s), rfl, ?_⟩, ⟨serviceSeek (serviceStart s), rfl, ?_⟩,
    ⟨serviceTell (serviceStart s), rfl, ?_⟩⟩
  · cases hf : f? with
    | none =>
      rw [serviceClose_badHandle (s := serviceStart s) hf]
      exact ⟨nofun, nofun, fun _ => rfl, fun _ => ⟨rfl, rfl⟩⟩
    | some f =>
      cases hok : a.ok with
      | false =>
        rw [serviceClose_denied (s := serviceStart s) hf hans hok]
        refine ⟨nofun, fun g hg => ?_, nofun, fun _ => ⟨rfl, rfl⟩⟩
        cases hg
        rfl
      | true =>
        rw [serviceClose_granted (s := serviceStart s) hf hans hok]
        refine ⟨fun _ _ => ⟨rfl, FileTable.file_vacate s.files _⟩, fun g hg => ?_, nofun, nofun⟩
        cases hg
        rfl
  · cases hf : f? with
    | none =>
      rw [serviceSeek_badHandle (s := serviceStart s) hf]
      exact ⟨fun _ _ => rfl, nofun, fun _ => rfl, nofun, fun _ => ⟨rfl, rfl⟩⟩
    | some f =>
      by_cases hw : (s.reg .r2).toNat ≤ 2
      · cases hok : a.ok with
        | false =>
          rw [serviceSeek_denied (s := serviceStart s) hf hans hw hok]
          refine ⟨fun _ _ => rfl, fun g hg _ => ?_, fun h => ?_, nofun, fun _ => ⟨rfl, rfl⟩⟩
          · cases hg
            rfl
          · exact absurd hw (Nat.not_le_of_lt (h.resolve_left nofun))
        | true =>
          rw [serviceSeek_granted (s := serviceStart s) hf hans hw hok]
          have hfile := FileTable.file_set s.files (s.reg .r0).toNat
            { f with position := seekPosition f (s.reg .r1).toInt (s.reg .r2) a }
          have hslot := (hfile (s.reg .r0).toNat).trans (if_pos rfl)
          refine ⟨fun k hk => (hfile k).trans (if_neg hk), fun g hg _ => ?_, fun h => ?_, fun g hg _ _ => ?_,
            fun h => ?_⟩
          · cases hg
            rfl
          · exact absurd hw (Nat.not_le_of_lt (h.resolve_left nofun))
          · cases hg
            refine ⟨rfl, ⟨_, hslot⟩, fun base h0 h1 h2 p hp => hslot.trans ?_⟩
            rw [seekPosition_eq h0 h1 h2 hw hp]
          · exact absurd hw (Nat.not_le_of_lt ((h.resolve_left nofun).resolve_left nofun))
      · have hgt : 2 < (s.reg .r2).toNat := Nat.lt_of_not_le hw
        rw [serviceSeek_badWhence (s := serviceStart s) hgt]
        exact ⟨fun _ _ => rfl, fun _ _ h => absurd h hw, fun _ => rfl, fun _ _ _ h => absurd h hw,
          fun _ => ⟨rfl, rfl⟩⟩
  · cases hf : f? with
    | none =>
      rw [serviceTell_badHandle (s := serviceStart s) hf]
      exact ⟨rfl, nofun, fun _ => rfl, nofun, fun _ => rfl⟩
    | some f =>
      cases hok : a.ok with
      | false =>
        rw [serviceTell_denied (s := serviceStart s) hf hans hok]
        refine ⟨rfl, fun g hg => ?_, nofun, nofun, fun _ => rfl⟩
        cases hg
        rfl
      | true =>
        rw [serviceTell_granted (s := serviceStart s) hf hans hok]
        refine ⟨rfl, fun g hg => ?_, nofun, fun g hg _ => ?_, nofun⟩
        · cases hg
          rfl
        · cases hg
          exact BitVec.toNat_ofNat f.position 16

end Sys2Proof.Machine
end

section
/-! SUPPORT. What every service leaves alone, and what an instruction writes of memory: O41 and O7, assembled
from the frames of the services, of the stores and of `JSR`. -/

namespace Sys2Proof.Machine

/-! ## The host's streams -/

/-- The host's input and output streams are as they were. -/
def SameStreams (s t : State) : Prop := t.hostIn = s.hostIn ∧ t.hostOut = s.hostOut

theorem callHost_streams (s : State) (c : FileCall) : SameStreams s (s.callHost c).2 :=
  ⟨callHost_hostIn s c, callHost_hostOut s c⟩

theorem readBytes_streams (s : State) (a : Word) (n : Nat) : SameStreams s (s.readBytes a n).2 := by
  rw [readBytes_snd]
  exact ⟨rfl, rfl⟩

theorem writeBytes_streams (s : State) (a : Word) (l : List Byte) : SameStreams s (s.writeBytes a l) := by
  rw [writeBytes_eq]
  exact ⟨rfl, rfl⟩

theorem SameStreams.trans {s t u : State} (h : SameStreams s t) (k : SameStreams t u) : SameStreams s u :=
  ⟨k.1.trans h.1, k.2.trans h.2⟩

theorem serviceOpen_streams (l : List Byte) (s : State) : SameStreams s (serviceOpen l s) := by
  rw [serviceOpen]
  split
  · cases s.files.firstVacant with
    | none => exact ⟨rfl, rfl⟩
    | some k =>
      dsimp only
      split <;> exact callHost_streams s _
  · exact ⟨rfl, rfl⟩

theorem serviceReadFile_streams (s : State) : SameStreams s (serviceReadFile s) := by
  rw [serviceReadFile]
  cases s.openFileOf with
  | none => exact ⟨rfl, rfl⟩
  | some f =>
    dsimp only
    split
    · exact (callHost_streams s _).trans (writeBytes_streams _ _ _)
    · exact callHost_streams s _

theorem serviceWriteFile_streams (s : State) : SameStreams s (serviceWriteFile s) := by
  rw [serviceWriteFile]
  cases s.openFileOf with
  | none => exact readBytes_streams s _ _
  | some f =>
    dsimp only
    split <;> exact (readBytes_streams s _ _).trans (callHost_streams _ _)

theorem serviceClose_streams (s : State) : SameStreams s (serviceClose s) := by
  rw [serviceClose]
  cases s.openFileOf with
  | none => exact ⟨rfl, rfl⟩
  | some f =>
    dsimp only
    split <;> exact callHost_streams s _

theorem serviceSeek_streams (s : State) : SameStreams s (serviceSeek s) := by
  rw [serviceSeek]
  cases s.openFileOf with
  | none => exact ⟨rfl, rfl⟩
  | some f =>
    dsimp only
    split
    · split <;> exact callHost_streams s _
    · exact ⟨rfl, rfl⟩

theorem serviceTell_streams (s : State) : SameStreams s (serviceTell s) := by
  rw [serviceTell]
  cases s.openFileOf with
  | none => exact ⟨rfl, rfl⟩
  | some f =>
    dsimp only
    split <;> exact callHost_streams s _

theorem serviceBank_streams (s : State) : SameStreams s (serviceBank s) := by
  rw [serviceBank]
  split <;> exact ⟨rfl, rfl⟩

theorem serviceGetc_hostOut (s : State) : (serviceGetc s).hostOut = s.hostOut := by
  rw [serviceGetc]
  cases s.inChar.1 <;> rfl

theorem serviceReadLine_hostOut (s : State) : (serviceReadLine s).hostOut = s.hostOut := by
  rw [serviceReadLine]
  have h := (writeBytes_streams { s with hostIn := (lineRead (s.reg .r1) s.hostIn).2.1 } (s.reg .r0)
    (lineRead (s.reg .r1) s.hostIn).1).2
  split <;> exact h

theorem numberResult_streams (v : Option Word) (s : State) : SameStreams s (numberResult v s) := by
  cases v <;> exact ⟨rfl, rfl⟩

/-- The next state of a string service is that of the service on some string, but for log lines. -/
theorem withString_next {f : List Byte → State → State} {s t : State} (h : withString f s = .next t) :
    ∃ l w, t = f l { s with watchLog := w } := by
  obtain ⟨l, w, hn⟩ | ⟨hr, -⟩ := withString_cases f s
  · cases hn.symm.trans h
    exact ⟨l, w, rfl⟩
  · cases hr.symm.trans h

/-- Which services read the input and which send output (rules R165 to R174). -/
theorem runService_streams {w : Service} {s t : State} (h : runService w s = .next t) :
    (w ∉ [Service.getc, .readLine, .readInt, .readHex] → t.hostIn = s.hostIn) ∧
      (w ∉ [Service.putc, .puts, .printSigned, .printHex, .printUnsigned, .println] →
        t.hostOut = s.hostOut) := by
  cases w
  case putc | printSigned | printHex | printUnsigned =>
    cases h
    exact ⟨fun _ => rfl, fun hw => absurd (by simp) hw⟩
  case puts | println =>
    obtain ⟨l, k, rfl⟩ := withString_next h
    exact ⟨fun _ => rfl, fun hw => absurd (by simp) hw⟩
  case getc =>
    cases h
    exact ⟨fun hw => absurd (by simp) hw, fun _ => serviceGetc_hostOut s⟩
  case readLine =>
    cases h
    exact ⟨fun hw => absurd (by simp) hw, fun _ => serviceReadLine_hostOut s⟩
  case readInt | readHex =>
    cases h
    exact ⟨fun hw => absurd (by simp) hw, fun _ => (numberResult_streams _ _).2⟩
  case openFile =>
    obtain ⟨l, k, rfl⟩ := withString_next h
    exact (serviceOpen_streams l { s with watchLog := k }).imp (fun h _ => h) (fun h _ => h)
  case readFile =>
    cases h
    exact (serviceReadFile_streams s).imp (fun h _ => h) (fun h _ => h)
  case writeFile =>
    cases h
    exact (serviceWriteFile_streams s).imp (fun h _ => h) (fun h _ => h)
  case closeFile =>
    cases h
    exact (serviceClose_streams s).imp (fun h _ => h) (fun h _ => h)
  case seekFile =>
    cases h
    exact (serviceSeek_streams s).imp (fun h _ => h) (fun h _ => h)
  case tellFile =>
    cases h
    exact (serviceTell_streams s).imp (fun h _ => h) (fun h _ => h)
  case bank =>
    cases h
    exact (serviceBank_streams s).imp (fun h _ => h) (fun h _ => h)

/-! ## The buffers of services 5 and 21 (decision D7) -/

theorem bytesFrom_mono {b : BitVec 2} {a : Word} {m n : Nat} (h : m ≤ n) :
    ∀ p ∈ bytesFrom b a m, p ∈ bytesFrom b a n := fun p hp => by
  obtain ⟨hb, k, hk, hx⟩ := mem_bytesFrom.mp hp
  exact mem_bytesFrom.mpr ⟨hb, k, Nat.lt_of_lt_of_le hk h, hx⟩

theorem serviceReadLine_memSame (s : State) :
    MemSameOutside (bytesFrom s.memBank (s.reg .r0) (s.reg .r1).toNat) s (serviceReadLine s) := by
  by_cases h0 : s.reg .r1 = 0
  · exact memSameOutside_of_eq (serviceReadLine_mem_zero s h0)
  · have hlen := lineRead_length (s.reg .r1) s.hostIn
    have hpos : (s.reg .r1).toNat ≠ 0 := fun h => h0 (BitVec.eq_of_toNat_eq h)
    have hlt := (s.reg .r1).isLt
    have hfit : ((lineRead (s.reg .r1) s.hostIn).1 ++ [0]).length ≤ (s.reg .r1).toNat := by
      rw [List.length_append, List.length_singleton]
      omega
    intro b a hn
    rw [serviceReadLine_mem_pos s h0]
    exact writeBytes_memSame { s with hostIn := _ } _ _ (by omega) b a fun hm => hn (bytesFrom_mono hfit _ hm)

theorem serviceReadFile_memSame (s : State) :
    MemSameOutside (bytesFrom s.memBank (s.reg .r1) (s.reg .r2).toNat) s (serviceReadFile s) := by
  rw [serviceReadFile]
  cases s.openFileOf with
  | none => exact memSameOutside_of_eq rfl
  | some f =>
    dsimp only
    split
    · have hfit := List.length_take_le (s.reg .r2).toNat
        (s.callHost (.readFile f.file (s.reg .r2).toNat)).1.data
      intro b a hn
      refine (writeBytes_memSame _ _ _ (by omega) b a fun hm => hn ?_).trans
        (congrArg (Memory.readByte · b a) (callHost_mem s _))
      rw [setFile_memBank, callHost_memBank] at hm
      exact bytesFrom_mono hfit _ hm
    · exact memSameOutside_of_eq (callHost_mem s _)

theorem execTrap_memSame {v : BitVec 8} {s t : State} (h : execTrap v s = .next t) :
    (v ≠ 5 → v ≠ 21 → t.mem = s.mem) ∧
      (v = 5 → MemSameOutside (bytesFrom s.memBank (s.reg .r0) (s.reg .r1).toNat) s t) ∧
      (v = 21 → MemSameOutside (bytesFrom s.memBank (s.reg .r1) (s.reg .r2).toNat) s t) := by
  refine ⟨fun h5 h21 => ?_, ?_, ?_⟩
  · obtain ⟨-, rfl⟩ | ⟨w, hw, -, -, -, hmem, -⟩ := execTrap_cases h
    · rfl
    · cases vector_of_serviceOf hw
      refine hmem ?_ ?_
      · rintro rfl
        exact h5 rfl
      · rintro rfl
        exact h21 rfl
  · rintro rfl
    cases h
    exact serviceReadLine_memSame (serviceStart s)
  · rintro rfl
    cases h
    exact serviceReadFile_memSame (serviceStart s)

/-! ## Every defined service -/

/-- `TRAP` completes unless its service takes a string and the data bank holds no zero byte. -/
theorem execTrap_completes {v : BitVec 8} {s : State}
    (h : v = 3 ∨ v = 8 ∨ v = 20 → ∃ a, s.mem.readByte s.memBank a = 0) :
    ∃ t, execTrap v s = .next t := by
  cases hx : execTrap v s with
  | next t => exact ⟨t, rfl⟩
  | fault f => exact absurd hx (execTrap_not_fault v s f)
  | refused r =>
    obtain ⟨-, hv, hnone⟩ := (execTrap_refused_iff v s r).mp hx
    obtain ⟨a, ha⟩ := h hv
    exact absurd ha (hnone a)

theorem vector_toNat_mem {w : Service} {l : List Service} (h : w ∈ l) :
    w.vector.toNat ∈ l.map fun w => w.vector.toNat := List.mem_map_of_mem h

/-- Settles O41: the frame of `execTrap_cases`, and the streams and memory by service. -/
theorem definedServicesCompleteInTheirFrame : Obligations.DefinedServicesCompleteInTheirFrame := by
  intro v s hv hstring
  obtain ⟨t, ht⟩ := execTrap_completes hstring
  obtain ⟨hnone, -⟩ | ⟨w, hw, hframe, -, -, -, hbank, hvalid, -⟩ := execTrap_cases ht
  · rw [hnone] at hv
    cases hv
  obtain ⟨hmem, hline, hfile⟩ := execTrap_memSame ht
  obtain ⟨hin, hout⟩ := runService_streams ((exec_trap_of_service hw s).symm.trans ht)
  cases vector_of_serviceOf hw
  refine ⟨t, ht, hframe.n, hframe.v, hframe.c, hframe.regs, hmem, hline, hfile, fun h26 => hbank ?_,
    fun h => hin fun hm => h ?_, fun h => hout fun hm => h ?_, fun h => execTrap_noFiles ht h,
    fun h20 h23 => hvalid ?_ ?_, hframe.halted, hframe.pc0, hframe.watch, hframe.breakpoints,
    hframe.breakHit, hframe.breakAddr⟩
  · rintro rfl
    exact h26 rfl
  · exact vector_toNat_mem hm
  · exact vector_toNat_mem hm
  · rintro rfl
    exact h20 rfl
  · rintro rfl
    exact h23 rfl

/-! ## The banks an instruction writes (rules R43, R47) -/

/-- Every byte of a bank that is neither bank 0 nor the data bank is unchanged, and bank 0 too unless it is
the data bank or `code` allows a store in it. -/
def KeepsOtherBanks (code : Bool) (s t : State) : Prop :=
  (∀ b a, b ≠ 0 → b ≠ s.memBank → t.mem.readByte b a = s.mem.readByte b a) ∧
    (s.memBank ≠ 0 → code = false → ∀ a, t.mem.readByte 0 a = s.mem.readByte 0 a)

theorem keepsOtherBanks_of_places {l : List (BitVec 2 × Word)} {code : Bool} {s t : State}
    (h : MemSameOutside l s t) (hl : ∀ p ∈ l, p.1 = s.memBank ∨ code = true ∧ p.1 = 0) :
    KeepsOtherBanks code s t := by
  refine ⟨fun b a h0 hb => h b a fun hp => ?_, fun h0 hc a => h 0 a fun hp => ?_⟩
  · obtain he | ⟨-, he⟩ := hl _ hp
    · exact hb he
    · exact h0 he
  · obtain he | ⟨he, -⟩ := hl _ hp
    · exact h0 he.symm
    · exact Bool.noConfusion (hc.symm.trans he)

theorem keepsOtherBanks_of_mem {s t : State} (h : t.mem = s.mem) (code : Bool) : KeepsOtherBanks code s t :=
  keepsOtherBanks_of_places (l := []) (memSameOutside_of_eq h) (by simp)

/-- Only an immediate or PC-relative spec has a target in the code bank (rule R31). -/
theorem resolve_view {sp : Spec} {z : Size} {s : State} {a : Word} (h : (resolve sp z s).1 = .mem .code a) :
    sp.codeTarget = true := by
  obtain ⟨m, n⟩ := sp
  cases m
  case autoInc | index =>
    cases n
    case r7 => rfl
    all_goals cases h
  all_goals cases h

theorem target_bytes_bank (dd : Spec) (z : Size) (s u : State) :
    ∀ p ∈ (resolve dd z u).1.bytes z s, p.1 = s.memBank ∨ dd.codeTarget = true ∧ p.1 = 0 := by
  cases hr : (resolve dd z u).1 with
  | reg n => simp [Target.bytes]
  | mem v a =>
    cases v with
    | data => cases z <;> simp [Target.bytes]
    | code =>
      have hc := resolve_view hr
      cases z <;> simp [Target.bytes, hc]

theorem keepsOtherBanks_bytesFrom {s t : State} {a : Word} {n : Nat}
    (h : MemSameOutside (bytesFrom s.memBank a n) s t) (code : Bool) : KeepsOtherBanks code s t :=
  keepsOtherBanks_of_places h fun _ hp => .inl (mem_bytesFrom.mp hp).1

theorem KeepsOtherBanks.of_resolve {d : Spec} {z : Size} {code : Bool} {s t : State}
    (h : KeepsOtherBanks code (resolve d z s).2 t) : KeepsOtherBanks code s t := by
  simpa only [KeepsOtherBanks, resolve_memBank, resolve_mem] using h

/-- A service stores in the data bank (decision D7). -/
theorem execTrap_keepsOtherBanks {v : BitVec 8} {s t : State} (h : execTrap v s = .next t) (code : Bool) :
    KeepsOtherBanks code s t := by
  obtain ⟨hmem, hline, hfile⟩ := execTrap_memSame h
  by_cases h5 : v = 5
  · exact keepsOtherBanks_bytesFrom (hline h5) code
  · by_cases h21 : v = 21
    · exact keepsOtherBanks_bytesFrom (hfile h21) code
    · exact keepsOtherBanks_of_mem (hmem h5 h21) code

/-- `JSR` pushes in the data bank (decision D5). -/
theorem execJsr_keepsOtherBanks {r : Reg} {d : Spec} {s t : State} (h : execJsr r d s = .next t)
    (code : Bool) : KeepsOtherBanks code s t := by
  obtain ⟨hd, -⟩ | ⟨-, hd⟩ := execJsr_outcome r d s
  · obtain ⟨v, a, ha⟩ := resolve_hasAddress hd .word s
    cases (execJsr_mem ha).symm.trans h
    exact .of_resolve (keepsOtherBanks_of_places (jsrState_memSame r a (resolve d .word s).2) (by simp))
  · cases hd.symm.trans h

theorem execJmp_keepsMem {d : Spec} {s t : State} (h : execJmp d s = .next t) : t.mem = s.mem := by
  obtain ⟨hd, -⟩ | ⟨-, hd⟩ := execJmp_outcome d s
  · obtain ⟨v, a, ha⟩ := resolve_hasAddress hd .word s
    cases (execJmp_mem ha).symm.trans h
    exact resolve_mem d .word s
  · cases hd.symm.trans h

theorem branchIf_mem (c : Bool) (off : BitVec 8) (s : State) : (branchIf c off s).mem = s.mem := by
  cases c <;> rfl

/-- An instruction of files 44 and 45 writes only the data bank. -/
theorem exec_control_keepsOtherBanks {i : Instr} {s t : State} (h : exec i s = .next t)
    (hi : aluSpecs i = []) (code : Bool) : KeepsOtherBanks code s t := by
  cases i
  case br o | bne o | beq o =>
    cases h
    exact keepsOtherBanks_of_mem (branchIf_mem _ o s) code
  case jmp d => exact keepsOtherBanks_of_mem (execJmp_keepsMem h) code
  case jsr r d => exact execJsr_keepsOtherBanks h code
  case rts r | halt =>
    cases h
    exact keepsOtherBanks_of_mem rfl code
  case trap v => exact execTrap_keepsOtherBanks h code
  all_goals cases hi

/-- An instruction writes the code bank only through an immediate or PC-relative destination. -/
theorem exec_keepsOtherBanks {i : Instr} {s t : State} (h : exec i s = .next t) :
    KeepsOtherBanks ((writtenSpec i).any Spec.codeTarget) s t := by
  cases hw : writtenSpec i with
  | some d =>
    obtain ⟨z, u, t', ht, ⟨-, -, hmem, -⟩, -⟩ := exec_storesThrough (s := s) hw
    cases ht.symm.trans h
    exact keepsOtherBanks_of_places hmem (target_bytes_bank d z s u)
  | none =>
    by_cases hi : aluSpecs i = []
    · exact exec_control_keepsOtherBanks h hi _
    · obtain ⟨t', ht, ⟨-, hmem, -⟩, -⟩ := exec_storesNothing (s := s) hw hi
      cases ht.symm.trans h
      exact keepsOtherBanks_of_places hmem (by simp)

/-- Settles O7: `exec_keepsOtherBanks`, read for a destination outside the code bank. -/
theorem instructionsKeepTheOtherBanks : Obligations.InstructionsKeepTheOtherBanks := by
  intro i s t h
  obtain ⟨hother, hzero⟩ := exec_keepsOtherBanks h
  refine ⟨hother, fun hs hd => hzero hs ?_⟩
  cases hw : writtenSpec i with
  | none => rfl
  | some d => exact hd d hw

end Sys2Proof.Machine
end
